-- ==== Sys2Proof/Word.lean ====
section
/-! DEFINITION. The fixed widths of the block (00_scope.md R5 to R8): a limb is 16 bits, a word is 32 bits, the base is
65536. Register numbers and context slot numbers are 4-bit fields (30_encoding.md R101), so they are `Fin 16`. -/

namespace Sys2Proof

/-- A limb: a 16-bit unsigned digit (R5 `LIMB_WIDTH`, R7). -/
abbrev Limb := BitVec 16

/-- A word: a 32-bit unsigned value, the width of every host access and command (R7, R84, R108). -/
abbrev Word := BitVec 32

/-- `BASE`, written `B` in the rules (R5). -/
abbrev base : Nat := 65536

/-- The number of a big-integer register, r0 to r15: all 16 values of a register field name a register (R101). -/
abbrev RegId := Fin 16

/-- The number in a `ctx` field, 0 to 15; it names a slot when it is below `NCTX` (R101). -/
abbrev SlotId := Fin 16

end Sys2Proof
end

