-- ==== Sys2Proof/Config.lean ====
section
/-! DEFINITION. The build parameters of the block (00_scope.md R5, 10_state.md R49) and the free values that the spec
leaves unspecified (93_implementation_defined.md). The parameters are `OPEN`: a claim about a state holds for every value of
them, because `State` carries a `Config` that no step changes. -/

namespace Sys2Proof

/-- The `OPEN` parameters of rule R5. `LIMB_WIDTH`, `BASE`, `NREG` and `GEN_WIDTH` are fixed by the spec and are in the types.
`windows` is the parameter `WINDOW_SIZE` as plain data: entry `j` is `WINDOW_SIZE(16·j)`; where it has no entry the reference
function of 43_exponent.md R231 applies. The engine asks for `WINDOW_SIZE` only at multiples of 16 up to `16·MAX_LIMBS`
(R232), so every `WINDOW_SIZE` the spec allows is expressed by some list. -/
structure Config where
  /-- `MAX_LIMBS`: even, from 2 to 1024 (R5, decision D3). -/
  maxLimbs : Nat
  /-- `NCTX`: from 1 to 16 (R5, decision D4). -/
  nctx : Nat
  /-- `BLOCK_BASE`: the platform address of offset 0 (R5, R70). -/
  blockBase : Nat
  /-- `WINDOW_SIZE`, tabulated at the multiples of 16 (R231, decision D24). -/
  windows : List Nat
deriving DecidableEq, Repr, Inhabited

/-- The reference values of R5 (`MAX_LIMBS` 256, `NCTX` 4) and the reference `WINDOW_SIZE` of R231. DESIGN CHOICE (log 3):
the spec gives no reference `BLOCK_BASE`, the model takes 0. -/
def Config.reference : Config := { maxLimbs := 256, nctx := 4, blockBase := 0, windows := [] }

/-- A free 16-bit value: a draw for a limb the spec calls unspecified when the host reads it (U1, U5), and for `NINV` of a
slot whose modulus is even (U7). Nothing constrains it. -/
opaque Config.freeLimb : Nat → Limb

/-- A free 32-bit value: the unspecified word a host read of a register window returns while `BUSY = 1` (U4). -/
opaque Config.freeWord : Nat → Word

end Sys2Proof
end

