-- ==== Sys2Proof/Syntax.lean ====
section
/-! DEFINITION. The command set: one constructor per row of spec/opcode_table.json (30_encoding.md R104), with the operands in
the order of the assembler syntax (R109): destinations first. -/

namespace Sys2Proof

/-- A decoded command. Register operands are register numbers; no command has an immediate (R103). -/
inductive Instr where
  /-- R138: `R[rd] <- R[ra] + R[rb]`. -/
  | add (rd ra rb : RegId)
  /-- R139: `R[rd] <- R[ra] - R[rb]`. -/
  | sub (rd ra rb : RegId)
  /-- R140: `R[rd] <- R[ra] * R[rb]`. -/
  | mul (rd ra rb : RegId)
  /-- R171: quotient of `R[ra]` by `R[rb]` to `rd`, remainder to `rc`. -/
  | divmod (rd rc ra rb : RegId)
  /-- R141: `STATUS.CMP` <- the ordering of `R[ra]` and `R[rb]`. -/
  | cmp (ra rb : RegId)
  /-- R142: `R[rd] <- trim R[ra]`. -/
  | trim (rd ra : RegId)
  /-- R143: `R[rd] <- R[ra]`, of either kind. -/
  | mov (rd ra : RegId)
  /-- R196: create a Montgomery context in slot `ctx` from the modulus in `R[ra]`. -/
  | mctx (ctx : SlotId) (ra : RegId)
  /-- R197: convert `R[ra]` into Montgomery form under slot `ctx`. -/
  | mconv (rd ra : RegId) (ctx : SlotId)
  /-- R198: Montgomery multiplication. -/
  | mmul (rd ra rb : RegId)
  /-- R238: sliding-window exponentiation, base `ra`, exponent `rb`. -/
  | mpow (rd ra rb : RegId)
  /-- R199: convert `R[ra]` out of Montgomery form. -/
  | mout (rd ra : RegId)
deriving DecidableEq, Repr

/-- The only pseudo-instruction (R110): `msqr rd, ra` is `mmul rd, ra, ra`. -/
abbrev Instr.msqr (rd ra : RegId) : Instr := .mmul rd ra ra

end Sys2Proof
end

