-- ==== Sys2Proof/WellFormed.lean ====
section
/-! DEFINITION. The conditions on a command that its fields' widths do not already express: the extra conditions of
30_encoding.md R105. -/

namespace Sys2Proof

/-- R105: `rd ≠ rc` for DIVMOD, `ctx < NCTX` for MCTX and MCONV; every other command is well formed at every operand. -/
def Instr.wf (nctx : Nat) : Instr → Bool
  | .add _ _ _ => true
  | .sub _ _ _ => true
  | .mul _ _ _ => true
  | .divmod rd rc _ _ => rd != rc
  | .cmp _ _ => true
  | .trim _ _ => true
  | .mov _ _ => true
  | .mctx ctx _ => decide (ctx.val < nctx)
  | .mconv _ _ ctx => decide (ctx.val < nctx)
  | .mmul _ _ _ => true
  | .mpow _ _ _ => true
  | .mout _ _ => true

end Sys2Proof
end

