-- ==== Sys2Proof/Decode.lean ====
section
/-! DEFINITION. The command format, the decoder, the encoder, the match and mask table and the assembler syntax
(30_encoding.md). A command is exactly one 32-bit word; no mode changes decoding and there is no other length (R108). -/

namespace Sys2Proof

/-- `w[hi:lo]` read as an unsigned number, for a field of `width` bits from bit `lo` (R8). -/
def field (w : Word) (lo width : Nat) : Nat := w.toNat / 2 ^ lo % 2 ^ width

/-- A 4-bit field as a register or slot number (R101, R103: `zext(field)`). -/
def field4 (w : Word) (lo : Nat) : Fin 16 := ⟨w.toNat / 2 ^ lo % 16, Nat.mod_lt _ (by decide)⟩

/-- The opcode field, bits 31:24 (R101). -/
def opOf (w : Word) : Nat := field w 24 8

/-- `rd`, bits 23:20 (R101). -/
def rdOf (w : Word) : RegId := field4 w 20

/-- `ra`, bits 19:16 (R101). -/
def raOf (w : Word) : RegId := field4 w 16

/-- `rb`, bits 15:12 (R101). -/
def rbOf (w : Word) : RegId := field4 w 12

/-- `rc`, bits 11:8 (R101). -/
def rcOf (w : Word) : RegId := field4 w 8

/-- `ctx`, bits 7:4 (R101). -/
def ctxOf (w : Word) : SlotId := field4 w 4

/-- `res`, bits 3:0, reserved (R101). -/
def resOf (w : Word) : Fin 16 := field4 w 0

/-- `i`, where the fields its command does not use are 0 and its extra condition holds; a refusal otherwise (R105, R106). -/
def legal (nctx : Nat) (unusedZero : Bool) (i : Instr) : Option Instr :=
  if unusedZero && i.wf nctx then some i else none

/-- The decoder (R104 to R107), total on any word: `none` is exactly `IllegalCommand`. Every opcode not listed is unassigned,
and there is no hint, no-op or reserved-but-ignored encoding (R107). -/
def decode (nctx : Nat) (w : Word) : Option Instr :=
  let rd := rdOf w; let ra := raOf w; let rb := rbOf w; let rc := rcOf w; let ctx := ctxOf w
  if resOf w ≠ 0 then none else
  match opOf w with
  | 0x01 => legal nctx (rc == 0 && ctx == 0) (.add rd ra rb)
  | 0x02 => legal nctx (rc == 0 && ctx == 0) (.sub rd ra rb)
  | 0x03 => legal nctx (rc == 0 && ctx == 0) (.mul rd ra rb)
  | 0x04 => legal nctx (ctx == 0) (.divmod rd rc ra rb)
  | 0x05 => legal nctx (rd == 0 && rc == 0 && ctx == 0) (.cmp ra rb)
  | 0x06 => legal nctx (rb == 0 && rc == 0 && ctx == 0) (.trim rd ra)
  | 0x07 => legal nctx (rb == 0 && rc == 0 && ctx == 0) (.mov rd ra)
  | 0x10 => legal nctx (rd == 0 && rb == 0 && rc == 0) (.mctx ctx ra)
  | 0x11 => legal nctx (rb == 0 && rc == 0) (.mconv rd ra ctx)
  | 0x12 => legal nctx (rc == 0 && ctx == 0) (.mmul rd ra rb)
  | 0x13 => legal nctx (rc == 0 && ctx == 0) (.mpow rd ra rb)
  | 0x14 => legal nctx (rb == 0 && rc == 0 && ctx == 0) (.mout rd ra)
  | _ => none

/-- A word assembled from its fields (R101); `res` is always 0. -/
def pack (op : Nat) (rd ra rb rc : RegId) (ctx : SlotId) : Word :=
  BitVec.ofNat 32 (op * 2 ^ 24 + rd.val * 2 ^ 20 + ra.val * 2 ^ 16 + rb.val * 2 ^ 12 + rc.val * 2 ^ 8 + ctx.val * 2 ^ 4)

/-- The opcode of each command (R104). -/
def Instr.opcode : Instr → Nat
  | .add _ _ _ => 0x01
  | .sub _ _ _ => 0x02
  | .mul _ _ _ => 0x03
  | .divmod _ _ _ _ => 0x04
  | .cmp _ _ => 0x05
  | .trim _ _ => 0x06
  | .mov _ _ => 0x07
  | .mctx _ _ => 0x10
  | .mconv _ _ _ => 0x11
  | .mmul _ _ _ => 0x12
  | .mpow _ _ _ => 0x13
  | .mout _ _ => 0x14

/-- The encoder: an assembler fills every unused field with 0 (R109). -/
def encode (i : Instr) : Word :=
  match i with
  | .add rd ra rb => pack i.opcode rd ra rb 0 0
  | .sub rd ra rb => pack i.opcode rd ra rb 0 0
  | .mul rd ra rb => pack i.opcode rd ra rb 0 0
  | .divmod rd rc ra rb => pack i.opcode rd ra rb rc 0
  | .cmp ra rb => pack i.opcode 0 ra rb 0 0
  | .trim rd ra => pack i.opcode rd ra 0 0 0
  | .mov rd ra => pack i.opcode rd ra 0 0 0
  | .mctx ctx ra => pack i.opcode 0 ra 0 0 ctx
  | .mconv rd ra ctx => pack i.opcode rd ra 0 0 ctx
  | .mmul rd ra rb => pack i.opcode rd ra rb 0 0
  | .mpow rd ra rb => pack i.opcode rd ra rb 0 0
  | .mout rd ra => pack i.opcode rd ra 0 0 0

/-- A row of R105: `mask` covers every bit that must have a fixed value and `match` is that value; the other fields are the
operands. -/
structure Row where
  mnemonic : String
  matchWord : Word
  maskWord : Word
  operands : Word → Instr

/-- Rule R105's table. `decode` reads the fields one by one; that it agrees with this table is one of the obligations. -/
def rows : List Row :=
  [ ⟨"ADD", 0x01000000#32, 0xFF000FFF#32, fun w => .add (rdOf w) (raOf w) (rbOf w)⟩,
    ⟨"SUB", 0x02000000#32, 0xFF000FFF#32, fun w => .sub (rdOf w) (raOf w) (rbOf w)⟩,
    ⟨"MUL", 0x03000000#32, 0xFF000FFF#32, fun w => .mul (rdOf w) (raOf w) (rbOf w)⟩,
    ⟨"DIVMOD", 0x04000000#32, 0xFF0000FF#32, fun w => .divmod (rdOf w) (rcOf w) (raOf w) (rbOf w)⟩ ] ++
  [ ⟨"CMP", 0x05000000#32, 0xFFF00FFF#32, fun w => .cmp (raOf w) (rbOf w)⟩,
    ⟨"TRIM", 0x06000000#32, 0xFF00FFFF#32, fun w => .trim (rdOf w) (raOf w)⟩,
    ⟨"MOV", 0x07000000#32, 0xFF00FFFF#32, fun w => .mov (rdOf w) (raOf w)⟩,
    ⟨"MCTX", 0x10000000#32, 0xFFF0FF0F#32, fun w => .mctx (ctxOf w) (raOf w)⟩ ] ++
  [ ⟨"MCONV", 0x11000000#32, 0xFF00FF0F#32, fun w => .mconv (rdOf w) (raOf w) (ctxOf w)⟩,
    ⟨"MMUL", 0x12000000#32, 0xFF000FFF#32, fun w => .mmul (rdOf w) (raOf w) (rbOf w)⟩,
    ⟨"MPOW", 0x13000000#32, 0xFF000FFF#32, fun w => .mpow (rdOf w) (raOf w) (rbOf w)⟩,
    ⟨"MOUT", 0x14000000#32, 0xFF00FFFF#32, fun w => .mout (rdOf w) (raOf w)⟩ ]

/-- The instruction the decoder reads from a table row's word: `nbits` is 32 for every row (R108), every bit above it is 0. The
parameters are those of the reference block, so a `ctx` field is valid below `NCTX = 4`. -/
def decodeTableWord (nbits w : Nat) : Option Instr := decode Config.reference.nctx (BitVec.ofNat 32 (w % 2 ^ nbits))

/-- A register in assembly (R109). -/
def regName (r : RegId) : String := "r" ++ toString r.val

/-- A context slot in assembly (R109). -/
def slotName (c : SlotId) : String := "c" ++ toString c.val

/-- The assembly text of a command: lowercase mnemonic, operands separated by commas, destination first (R109). -/
def Instr.asm : Instr → String
  | .add rd ra rb => "add " ++ regName rd ++ ", " ++ regName ra ++ ", " ++ regName rb
  | .sub rd ra rb => "sub " ++ regName rd ++ ", " ++ regName ra ++ ", " ++ regName rb
  | .mul rd ra rb => "mul " ++ regName rd ++ ", " ++ regName ra ++ ", " ++ regName rb
  | .divmod rd rc ra rb => "divmod " ++ regName rd ++ ", " ++ regName rc ++ ", " ++ regName ra ++ ", " ++ regName rb
  | .cmp ra rb => "cmp " ++ regName ra ++ ", " ++ regName rb
  | .trim rd ra => "trim " ++ regName rd ++ ", " ++ regName ra
  | .mov rd ra => "mov " ++ regName rd ++ ", " ++ regName ra
  | .mctx ctx ra => "mctx " ++ slotName ctx ++ ", " ++ regName ra
  | .mconv rd ra ctx => "mconv " ++ regName rd ++ ", " ++ regName ra ++ ", " ++ slotName ctx
  | .mmul rd ra rb => "mmul " ++ regName rd ++ ", " ++ regName ra ++ ", " ++ regName rb
  | .mpow rd ra rb => "mpow " ++ regName rd ++ ", " ++ regName ra ++ ", " ++ regName rb
  | .mout rd ra => "mout " ++ regName rd ++ ", " ++ regName ra

end Sys2Proof
end

