-- ==== Sys2Proof/Machine/State.lean ====
section
/-! DEFINITION. The state of the block as plain data (10_state.md), the host's pending inputs, the reasons a step can stop, and
the state after reset (R48). Everything that computes is in the other files of this folder. -/

namespace Sys2Proof.Machine

open Sys2Proof

/-- Register kind, `KIND` (R31): `Plain` = 0, `Mont` = 1. -/
inductive Kind where
  /-- The register holds a plain BigInteger. -/
  | plain
  /-- The register holds a MontgomeryValue. -/
  | mont
deriving DecidableEq, Repr, Inhabited

/-- RMOD's three-way ordering (R40, R137). -/
inductive Cmp3 where
  /-- The values are equal. -/
  | equal
  /-- The first value is less. -/
  | less
  /-- The first value is greater. -/
  | greater
deriving DecidableEq, Repr, Inhabited

/-- The error kinds of 60_exceptions.md R261. They are outcomes of a command that the host reads from `STATUS`, not stops of
the machine. -/
inductive ErrKind where
  /-- 0x01: the word does not decode. -/
  | illegalCommand
  /-- 0x02: a source register has the wrong kind. -/
  | operandKind
  /-- 0x03: a subtraction would be negative. -/
  | underflow
  /-- 0x04: the divisor or modulus trims to empty. -/
  | divideByZero
  /-- 0x05: the modulus's least significant limb is even. -/
  | noModularInverse
  /-- 0x06: Montgomery operands of different contexts. -/
  | modulusMismatch
  /-- 0x07: window table lookup outside the table. -/
  | indexOutOfRange
  /-- 0x08: an empty slot, or a tag that names no live context. -/
  | contextInvalid
  /-- 0x09: a result needs more than `MAX_LIMBS` limbs. -/
  | capacityOverflow
  /-- 0x0A: hex parsing, never raised by the block (R280). -/
  | invalidDigit
  /-- 0x0B: hex parsing, never raised by the block (R280). -/
  | limbOverflow
deriving DecidableEq, Repr, Inhabited

/-- The machine stops with a fault. -/
inductive Fault where
  /-- Raised by a host access (Machine/Bus.lean) whose platform address is outside the block's window: that address does not
  exist in the block's one address space (R70). Safe: the block has no behaviour there. -/
  | outsideWindow (addr : Nat)
deriving DecidableEq, Repr, Inhabited

/-- The model gives no step. Each constructor is a refusal the spec itself asks for, except `notModelled`. -/
inductive Refusal where
  /-- An instruction that has no meaning in the model yet. No arm of `exec` raises it. Safe. -/
  | notModelled (mnemonic : String)
  /-- Raised by the operand reads of Machine/Operands.lean: the value of source register `r` includes an unspecified limb (R33,
  U2 "The model does not step"). Safe. -/
  | unspecifiedLimb (r : RegId)
  /-- Raised by a host access that is not an aligned 32-bit access (R71, U3 "The model has no transition for it"). Safe. -/
  | accessForm (addr : Nat) (width : Nat)
  /-- Raised by an MCTX that would complete while `GEN = 0xFFFFFFFF` (R38, U6 "The model does not step"). Safe. -/
  | idWrap
deriving DecidableEq, Repr, Inhabited

/-- The limb storage of one register, `LIMB[i]`, least significant first. `none` is the spec's own *unspecified* (R31); every
cell the list does not reach is unspecified. Canonical form: no `none` at the end, so equal storages are equal lists. -/
abbrev Memory := List (Option Limb)

/-- A big-integer register `R[r]` (R31). `len` is `LEN`, an 11-bit field holding at most `MAX_LIMBS` (Safety.lean's invariant). -/
structure BigReg where
  /-- `LEN`: current limb count, which may include high zero limbs. -/
  len : Nat
  /-- `LIMB[0..MAX_LIMBS-1]`. -/
  mem : Memory
  /-- `KIND`. -/
  kind : Kind
  /-- `TAG`: instance id of the context that produced a Mont value; 0 when Plain. -/
  tag : Word
deriving DecidableEq, Repr, Inhabited

/-- The contents of a context slot whose `VALID` is 1 (R36). A slot of the block is an `Option Context`: `none` is `VALID = 0`,
whose other fields are never read (R48, U8). -/
structure Context where
  /-- `ID`: the instance id given at creation. -/
  id : Word
  /-- `N`: the trimmed modulus. -/
  n : List Limb
  /-- `L`: `len(N)`. -/
  l : Nat
  /-- `CF`: `R² mod N`. -/
  cf : Nat
  /-- `N0ODD`. -/
  n0odd : Bool
  /-- `NINV`: `B − (N₀)⁻¹ mod B` when `N0ODD = 1`, a free value otherwise (U7). -/
  ninv : Limb
deriving DecidableEq, Repr, Inhabited

/-- `STATUS` less `BUSY`, which is the engine phase (R39, R47). Reserved bits are not stored: they read as 0 and writes to
them are ignored. -/
structure Status where
  /-- Bit 1. -/
  err : Bool
  /-- Bit 2, sticky, write 1 to clear. -/
  accErr : Bool
  /-- Bits 4:3. -/
  cmp : BitVec 2
  /-- Bits 15:8. -/
  errCode : BitVec 8
deriving DecidableEq, Repr, Inhabited

/-- What a command reads, as it stood at acceptance (R46, R268): the register file, the slots and `GEN`. `draw` is the number
of the free value that is `NINV` if the command is an MCTX of an even modulus (U7). -/
structure Snapshot where
  regs : Vector BigReg 16
  slots : List (Option Context)
  gen : Word
  /-- The model's own field. -/
  draw : Nat
deriving DecidableEq, Repr, Inhabited

/-- Why a command does not succeed: an error of R261, or a refusal of the model. -/
inductive Stop where
  | err (e : ErrKind)
  | refuse (r : Refusal)
deriving DecidableEq, Repr, Inhabited

/-- What the completion of a successful command writes (R34, R266). -/
inductive Writes where
  /-- One destination register. -/
  | reg (rd : RegId) (v : BigReg)
  /-- DIVMOD's two destinations, written together (R171). -/
  | quotRem (rd : RegId) (q : BigReg) (rc : RegId) (r : BigReg)
  /-- `STATUS.CMP` (R40). -/
  | cmp (c : Cmp3)
  /-- `CTX[ctx]`, and with it `GEN ← GEN + 1` (R38). -/
  | slot (ctx : SlotId) (c : Context)
deriving DecidableEq, Repr, Inhabited

/-- The outcome of a command's algorithm on its snapshot. -/
abbrev CmdResult := Except Stop Writes

/-- A BitCursor (43_exponent.md R233): a signed bit position and the rolling accumulator. -/
structure BitCursor where
  pos : Int
  acc : Nat
deriving DecidableEq, Repr, Inhabited

/-- Where a Montgomery result goes: a Mont register with its tag (MCONV, MMUL, MPOW) or a Plain register (MOUT). -/
inductive Dest where
  | mont (rd : RegId) (tag : Word)
  | plain (rd : RegId)
deriving DecidableEq, Repr, Inhabited

/-- Which command runs the division engine: DIVMOD, or MCTX for `R² mod N` (R190). -/
inductive DivUse where
  | divmod (rd rc : RegId)
  | mctx (ctx : SlotId) (n : List Limb)
deriving DecidableEq, Repr, Inhabited

/-- The scratch state of the command in flight (R46), invisible to the host. -/
inductive Scratch where
  /-- The snapshot is taken and no engine step has run. -/
  | start
  /-- DIVMOD (R170): trimmed divisor, mutated dividend, number of limb positions left, subtractions counted at the present
  position, quotient digits found so far. -/
  | div (job : DivUse) (d rem : List Limb) (pos digit : Nat) (q : List Limb)
  /-- REDC (R193): accumulator `value` and iteration count. -/
  | redc (dest : Dest) (c : Context) (acc iter : Nat)
  /-- MPOW building the odd-power table (R236): exponent, window size, `x²`, the entries so far. -/
  | powTable (dest : Dest) (c : Context) (e : List Limb) (k x2 : Nat) (table : List Nat)
  /-- MPOW scanning (R234, R240 AT_ZERO_BIT or DONE): table, `result`, signed scan index. -/
  | powScan (dest : Dest) (c : Context) (e : List Limb) (k : Nat) (table : List Nat) (result : Nat) (i : Int)
  /-- MPOW inside a window (R240 IN_WINDOW): table, `result`, the scan index, which is the window's high bound, the window's low
  bound, the squarings done, the BitCursor accumulator. -/
  | powWindow (dest : Dest) (c : Context) (e : List Limb) (k : Nat) (table : List Nat) (result : Nat)
      (i : Int) (lo squarings acc : Nat)
  /-- The algorithm has ended; the next engine step is completion. -/
  | done (r : CmdResult)
deriving DecidableEq, Repr, Inhabited

/-- The command in flight (R30 item 5, R46): the accepted word, the snapshot and the scratch state. -/
structure Flight where
  word : Word
  snap : Snapshot
  scratch : Scratch
deriving DecidableEq, Repr, Inhabited

/-- What happens to the block next, in order of arrival (R86): host accesses, the engine's own steps, the platform's reset and
power. The order is the platform's and the scheduler's (log 1). -/
inductive Input where
  /-- `MemRead` of `width` bytes at platform address `addr` (R12, R70). -/
  | read (addr width : Nat)
  /-- `MemWrite` of `width` bytes at platform address `addr` (R12, R70). -/
  | write (addr width : Nat) (v : Word)
  /-- One engine step (R47, R310). -/
  | engine
  /-- All the engine steps that are left to the command in flight, its completion among them. -/
  | finish
  /-- The platform's reset (R290, R291). -/
  | reset
  /-- The platform removes clock or power (R277, U16). -/
  | powerLoss
deriving DecidableEq, Repr, Inhabited

/-- The state of the block (R30) and, in the last five fields, the model's own: the build parameters, what happens next, the
word the last host read returned, the counter of free values, and whether power was lost. -/
structure State where
  /-- `R[0..15]` (R31). -/
  regs : Vector BigReg 16
  /-- `CTX[0..NCTX-1]` (R36). -/
  slots : List (Option Context)
  /-- `GEN` (R38). -/
  gen : Word
  /-- `STATUS` (R39). -/
  status : Status
  /-- `LASTCMD` (R42). -/
  lastCmd : Word
  /-- `ERRCMD` (R42). -/
  errCmd : Word
  /-- The engine phase (R46, R47): `none` is Idle (`BUSY = 0`), `some` is Busy with the command in flight. -/
  flight : Option Flight
  /-- The build parameters (R5, R49); no step changes them. -/
  cfg : Config
  /-- Inputs not yet served, the next one first. -/
  inputs : List Input
  /-- The word the last served host read returned. -/
  reply : Option Word
  /-- How many free values have been drawn. -/
  draws : Nat
  /-- Clock or power was removed and no reset has followed (U16). -/
  lost : Bool
deriving DecidableEq, Repr, Inhabited

/-- A free state: after clock or power is removed "Every state field is a draw until reset" (U16). -/
opaque Config.lostState : Nat → State

/-- A register after reset: `LEN = 0`, `KIND = Plain`, `TAG = 0`, every limb unspecified (R48). -/
def BigReg.reset : BigReg := { len := 0, mem := [], kind := .plain, tag := 0 }

/-- The state of R48 for a block with parameters `cfg`, with nothing to serve. -/
def State.resetWith (cfg : Config) : State :=
  { regs := Vector.replicate 16 BigReg.reset
    slots := List.replicate cfg.nctx none
    gen := 0
    status := { err := false, accErr := false, cmp := 0, errCode := 0 }
    lastCmd := 0
    errCmd := 0
    flight := none
    cfg := cfg
    inputs := []
    reply := none
    draws := 0
    lost := false }

/-- The block right after reset (R48, R290), with the reference parameters (R5). -/
def State.reset : State := State.resetWith Config.reference

end Sys2Proof.Machine
end

