-- ==== Sys2Proof/Machine/Limbs.lean ====
section
/-! DEFINITION. Limb sequences (00_scope.md R9, R10) and the sequence functions of 40_bigint.md R131 to R137 that the commands,
the longdiv engine, REDC and the exponent engine share. Least significant limb first. -/

namespace Sys2Proof.Machine

open Sys2Proof

/-- `val(s) = Σ s[i] · B^i` (R9). -/
def val : List Limb → Nat
  | [] => 0
  | x :: xs => x.toNat + base * val xs

/-- `zeros(n)` (R9). -/
def zeros (n : Nat) : List Limb := List.replicate n 0

/-- `limbs_n(v)`, the n-limb sequence of value `v` when `v < B^n` (R9). -/
def limbs : Nat → Nat → List Limb
  | 0, _ => []
  | n + 1, v => BitVec.ofNat 16 v :: limbs n (v / base)

/-- `siglen(s)`, the position of the highest non-zero limb counted from 1, or 0 (R10). -/
def siglen : List Limb → Nat
  | [] => 0
  | x :: xs => if siglen xs = 0 then (if x = 0 then 0 else 1) else siglen xs + 1

/-- `trim(s)` (R10). -/
def trim (s : List Limb) : List Limb := s.take (siglen s)

/-- A sequence with no high-order zero limb; zero is the empty sequence (R10). -/
def canonical (s : List Limb) : Bool := s.length == siglen s

/-- The least `n` with `v < B^n` (R10). -/
def canonLen (v : Nat) : Nat := if v = 0 then 0 else v.log2 / 16 + 1

/-- `canon(v)`, the canonical sequence of value `v` (R10). -/
def canon (v : Nat) : List Limb := limbs (canonLen v) v

/-- The ripple of R132 over the limbs of `s`, reading the missing limbs of `t` as 0: the limbs written and the carry out. -/
def addLoop : List Limb → List Limb → Nat → List Limb × Nat
  | [], _, carry => ([], carry)
  | x :: xs, ts, carry =>
    let y := x.toNat + (ts.headD 0).toNat + carry
    let r := addLoop xs ts.tail (y / base)
    (BitVec.ofNat 16 y :: r.1, r.2)

/-- `add_seq(s, t)` (R132): `s` is extended to `t`'s length, and an appended limb receives the carry out. -/
def addSeq (s t : List Limb) : List Limb :=
  let r := addLoop (s ++ zeros (t.length - s.length)) t 0
  if r.2 = 1 then r.1 ++ [1] else r.1

/-- The ripple of R133 over the limbs of `s`, reading the missing limbs of `t` as 0: the limbs written and the borrow out. -/
def subLoop : List Limb → List Limb → Nat → List Limb × Nat
  | [], _, borrow => ([], borrow)
  | x :: xs, ts, borrow =>
    let y := (ts.headD 0).toNat + borrow
    let lent := if x.toNat < y then 1 else 0
    let r := subLoop xs ts.tail lent
    (BitVec.ofNat 16 (x.toNat + lent * base - y) :: r.1, r.2)

/-- `sub_seq(s, t)` (R133): `none` is `Underflow`. -/
def subSeq (s t : List Limb) : Option (List Limb) :=
  if val t = 0 then some s
  else if val s < val t then none
  else some (subLoop s t 0).1

/-- `add_at(r, k, limb)`: the carry-propagating add of one limb at offset `k` (R134). -/
def addAt (r : List Limb) (k : Nat) (limb : Limb) : List Limb := r.take k ++ (addLoop (r.drop k) [limb] 0).1

/-- One row of the schoolbook product (R134): every limb of `s` times `t[j] = y`, each product split into a low and a carry limb
(R131), accumulated from offset `k = j` on. -/
def mulRow : List Limb → Limb → Nat → List Limb → List Limb
  | [], _, _, r => r
  | x :: xs, y, k, r =>
    let p := x.toNat * y.toNat
    mulRow xs y (k + 1) (addAt (addAt r k (BitVec.ofNat 16 (p % base))) (k + 1) (BitVec.ofNat 16 (p / base)))

/-- The rows of the schoolbook product, from right-operand position `j` on (R134). -/
def mulRows (s : List Limb) : List Limb → Nat → List Limb → List Limb
  | [], _, r => r
  | y :: ys, j, r => mulRows s ys (j + 1) (mulRow s y j r)

/-- `mul_seq(s, t)` (R134). -/
def mulSeq (s t : List Limb) : List Limb :=
  if s = [] ∨ t = [] then [] else mulRows s t 0 (zeros (s.length + t.length))

/-- `shl_limbs(s, n)` (R135). -/
def shlLimbs (s : List Limb) (n : Nat) : List Limb := zeros n ++ s

/-- `shr_limbs(s, n)`: right shift past the end truncates (R135). -/
def shrLimbs (s : List Limb) (n : Nat) : List Limb := s.drop n

/-- `bit(s, i)`: 0 at or beyond the storage width (R136, 90_conflicts.md C7). -/
def bit (s : List Limb) (i : Nat) : Bool := (s.getD (i / 16) 0).getLsbD (i % 16)

/-- `bitlen(s)`: the storage width, high zero limbs included (R136). -/
def bitlen (s : List Limb) : Nat := s.length * 16

/-- Limb-by-limb comparison of two sequences of one length, from most to least significant; the first differing limb decides
(R137). -/
def cmpLimbs : List Limb → List Limb → Cmp3
  | x :: xs, ys =>
    match cmpLimbs xs ys.tail with
    | .equal => if x < ys.headD 0 then .less else if ys.headD 0 < x then .greater else .equal
    | c => c
  | [], _ => .equal

/-- `cmp3(s, t)` (R137): significant lengths first, so high zero limbs do not matter (90_conflicts.md C1). -/
def cmp3 (s t : List Limb) : Cmp3 :=
  if siglen s < siglen t then .less
  else if siglen t < siglen s then .greater
  else cmpLimbs (trim s) (trim t)

end Sys2Proof.Machine
end

