-- ==== Sys2Proof/Machine/Ops.lean ====
section
/-! DEFINITION. The named operations over the limb storage, the registers, the slots and the command in flight: reading and
writing a register, accepting a command (30_encoding.md R100), failing (the block's one way of "taking an exception",
60_exceptions.md R266, R270) and completing. -/

namespace Sys2Proof.Machine

open Sys2Proof

/-- The cell `LIMB[i]`; `none` is unspecified (R31, R33). -/
def Memory.read (m : Memory) (i : Nat) : Option Limb := m.getD i none

/-- A host write of one cell (R33, R77). Cells skipped on the way stay unspecified. -/
def Memory.write : Memory → Nat → Limb → Memory
  | [], 0, x => [some x]
  | [], i + 1, x => none :: Memory.write [] i x
  | _ :: m, 0, x => some x :: m
  | c :: m, i + 1, x => c :: Memory.write m i x

/-- The first `n` cells as a limb sequence; `none` if one of them is unspecified (R33). -/
def Memory.readSeq : Memory → Nat → Option (List Limb)
  | _, 0 => some []
  | [], _ + 1 => none
  | none :: _, _ + 1 => none
  | some x :: m, n + 1 => (Memory.readSeq m n).map (x :: ·)

/-- What an engine write leaves: the value's cells written, every other cell unspecified (R33). -/
def Memory.ofSeq (s : List Limb) : Memory := s.map some

/-- The canonical form: the last listed cell is not unspecified. -/
def Memory.wf (m : Memory) : Bool := m.getLast? != some none

/-- `seq(R[r])`, the limbs below `LEN` (R11); `none` if one of them is unspecified (R33). -/
def BigReg.seq (v : BigReg) : Option (List Limb) := v.mem.readSeq v.len

/-- `plain(s)` (R11). -/
def BigReg.plain (s : List Limb) : BigReg := { len := s.length, mem := Memory.ofSeq s, kind := .plain, tag := 0 }

/-- `mont(s, t)` (R11). -/
def BigReg.mont (s : List Limb) (t : Word) : BigReg := { len := s.length, mem := Memory.ofSeq s, kind := .mont, tag := t }

/-- `R[r]` of the snapshot (R268). -/
def Snapshot.reg (x : Snapshot) (r : RegId) : BigReg := x.regs.get r

/-- `CTX[c]` of the snapshot, if `VALID` (R36). -/
def Snapshot.slot (x : Snapshot) (c : SlotId) : Option Context := x.slots.getD c.val none

/-- `ctx_of(t)`: the live slot whose `ID` is `t` (R192). -/
def Snapshot.ctxOf (x : Snapshot) (t : Word) : Option Context :=
  (x.slots.filterMap id).find? (fun c => c.id == t)

/-- `R[r]`. -/
def State.reg (s : State) (r : RegId) : BigReg := s.regs.get r

/-- `R[r] <- v`. -/
def State.setReg (s : State) (r : RegId) (v : BigReg) : State := { s with regs := s.regs.set r.val v r.isLt }

/-- `CTX[c]`, if `VALID`. -/
def State.slot (s : State) (c : SlotId) : Option Context := s.slots.getD c.val none

/-- `BUSY`: the engine phase (R39, R47). -/
def State.busy (s : State) : Bool := s.flight.isSome

/-- The registers, slots and `GEN` as they stand (R268). -/
def State.snapshot (s : State) : Snapshot := { regs := s.regs, slots := s.slots, gen := s.gen, draw := s.draws }

/-- What a command reads: the snapshot of the command in flight (R268). On a state with no command in flight, which no run
executes a command in, it is the state as it stands (log 22). -/
def State.sources (s : State) : Snapshot :=
  match s.flight with
  | some f => f.snap
  | none => s.snapshot

/-- Acceptance of a command word (R100 step 1, R39, R73) with the snapshot of its sources (R268). `ACCERR` stays (R81). The
snapshot takes one free value, see `Snapshot.draw`. -/
def State.accept (s : State) (w : Word) : State :=
  { s with
    lastCmd := w
    status := { s.status with err := false, errCode := 0 }
    flight := some { word := w, snap := s.snapshot, scratch := .start }
    draws := s.draws + 1 }

/-- The code of an error kind (R261). -/
def ErrKind.code : ErrKind → BitVec 8
  | .illegalCommand => 0x01
  | .operandKind => 0x02
  | .underflow => 0x03
  | .divideByZero => 0x04
  | .noModularInverse => 0x05
  | .modulusMismatch => 0x06
  | .indexOutOfRange => 0x07
  | .contextInvalid => 0x08
  | .capacityOverflow => 0x09
  | .invalidDigit => 0x0A
  | .limbOverflow => 0x0B

/-- `CMP` of an ordering (R40). -/
def Cmp3.code : Cmp3 → BitVec 2
  | .equal => 0b00
  | .less => 0b01
  | .greater => 0b10

/-- Completion with failure (R266): no register, slot, `GEN` or `CMP` is written. This is the block's whole error entry: no
state is saved, no mode changes and control goes nowhere (R270); there is no return from it (R267). -/
def State.fail (s : State) (e : ErrKind) : State :=
  { s with
    status := { s.status with err := true, errCode := e.code }
    errCmd := s.lastCmd
    flight := none }

/-- The destination writes of a successful command (R34, R38, R40). -/
def State.apply (s : State) : Writes → State
  | .reg rd v => s.setReg rd v
  | .quotRem rd q rc r => (s.setReg rd q).setReg rc r
  | .cmp c => { s with status := { s.status with cmp := c.code } }
  | .slot ctx c => { s with slots := s.slots.set ctx.val (some c), gen := s.gen + 1 }

/-- Completion with success (R266): the destinations are written in one update, `ERR = 0`, `ERRCODE = 0`, `BUSY ← 0`. -/
def State.succeed (s : State) (w : Writes) : State :=
  let t := s.apply w
  { t with status := { t.status with err := false, errCode := 0 }, flight := none }

/-- Completion (R260, R266): exactly one of success and failure, or a refusal the spec asks of a model (R265). DESIGN CHOICE (log 26): a
command with an unspecified source limb is refused here, when it would complete, and not when its word is accepted; U2 says only "The model
does not step". -/
def State.complete (s : State) : CmdResult → Host.Outcome State Fault Refusal
  | .ok w => .next (s.succeed w)
  | .error (.err e) => .next (s.fail e)
  | .error (.refuse r) => .refused r

/-- `check_capacity(s)` (R130), for a block of `max` limbs. -/
def checkCapacity (max : Nat) (s : List Limb) : Except Stop Unit :=
  if max < s.length then .error (.err .capacityOverflow) else .ok ()

end Sys2Proof.Machine
end

