-- ==== Sys2Proof/Machine/Operands.lean ====
section
/-! DEFINITION. Reading a command's operands from the snapshot, with the checks in the order of 60_exceptions.md R264: kinds
(`ra` before `rb`), then the context, and only then the limbs, which the algorithm reads. An unspecified limb below `LEN` is
refused (R33, U2); log 8 says why the refusal stands after the checks that read no limb. -/

namespace Sys2Proof.Machine

open Sys2Proof

/-- `OperandKind(r)` unless `R[r].KIND = k` (R130 `require_plain`, R263). -/
def requireKind (x : Snapshot) (r : RegId) (k : Kind) : Except Stop Unit :=
  if (x.reg r).kind = k then .ok () else .error (.err .operandKind)

/-- The value of a source register as a limb sequence, or the refusal of U2. -/
def readLimbs (x : Snapshot) (r : RegId) : Except Stop (List Limb) :=
  match (x.reg r).seq with
  | some s => .ok s
  | none => .error (.refuse (.unspecifiedLimb r))

/-- One Plain source (TRIM, MCTX). -/
def plain1 (x : Snapshot) (ra : RegId) : Except Stop (List Limb) := do
  requireKind x ra .plain
  readLimbs x ra

/-- Two Plain sources, `ra` checked first (R130). -/
def plain2 (x : Snapshot) (ra rb : RegId) : Except Stop (List Limb × List Limb) := do
  requireKind x ra .plain
  requireKind x rb .plain
  let s ← readLimbs x ra
  let t ← readLimbs x rb
  return (s, t)

/-- The context a tag names, or `ContextInvalid` (R192). -/
def liveContext (x : Snapshot) (t : Word) : Except Stop Context :=
  match x.ctxOf t with
  | some c => .ok c
  | none => .error (.err .contextInvalid)

/-- MCONV's operands (R197): the Plain source, then slot `ctx`, or `ContextInvalid` if it is empty. -/
def mconvOperands (x : Snapshot) (ra : RegId) (ctx : SlotId) : Except Stop (Context × List Limb) := do
  requireKind x ra .plain
  match x.slot ctx with
  | none => .error (.err .contextInvalid)
  | some c => do
    let s ← readLimbs x ra
    return (c, s)

/-- MMUL's operands (R198): kinds, then tags (`ModulusMismatch`, by identity), then the context they name. -/
def mmulOperands (x : Snapshot) (ra rb : RegId) : Except Stop (Context × List Limb × List Limb) := do
  requireKind x ra .mont
  requireKind x rb .mont
  if (x.reg ra).tag ≠ (x.reg rb).tag then .error (.err .modulusMismatch) else .ok ()
  let c ← liveContext x (x.reg ra).tag
  let s ← readLimbs x ra
  let t ← readLimbs x rb
  return (c, s, t)

/-- MPOW's operands (R238): Mont base, Plain exponent, then the context the base names. -/
def mpowOperands (x : Snapshot) (ra rb : RegId) : Except Stop (Context × List Limb × List Limb) := do
  requireKind x ra .mont
  requireKind x rb .plain
  let c ← liveContext x (x.reg ra).tag
  let s ← readLimbs x ra
  let e ← readLimbs x rb
  return (c, s, e)

/-- MOUT's operand (R199): the Mont source and the context it names. -/
def moutOperands (x : Snapshot) (ra : RegId) : Except Stop (Context × List Limb) := do
  requireKind x ra .mont
  let c ← liveContext x (x.reg ra).tag
  let s ← readLimbs x ra
  return (c, s)

/-- The register a Montgomery result is written to (R11). -/
def Dest.write (d : Dest) (s : List Limb) : Writes :=
  match d with
  | .mont rd tag => .reg rd (BigReg.mont s tag)
  | .plain rd => .reg rd (BigReg.plain s)

end Sys2Proof.Machine
end

