-- ==== Sys2Proof/Machine/Flags.lean ====
section
/-! DEFINITION. The words the host sees of the status, configuration and context state: `STATUS` (10_state.md R39), `CONFIG`
(R43) and `CTXINFO` (R44). The codes of `ERRCODE` and `CMP` are in Machine/Ops.lean, where completion writes them. -/

namespace Sys2Proof.Machine

open Sys2Proof

/-- A flag as a number. -/
def flag (b : Bool) : Nat := if b then 1 else 0

/-- `STATUS` as the host reads it (R39). Bits 7:5 and 31:16 read as 0. -/
def State.statusWord (s : State) : Word :=
  BitVec.ofNat 32 (flag s.busy + 2 * flag s.status.err + 4 * flag s.status.accErr + 8 * s.status.cmp.toNat
    + 256 * s.status.errCode.toNat)

/-- `CONFIG` (R43): `MAX_LIMBS` in bits 10:0, `NREG` = 16 in bits 20:16, `NCTX` in bits 28:24, 0 elsewhere. -/
def configWord (cfg : Config) : Word :=
  BitVec.ofNat 32 (cfg.maxLimbs % 2 ^ 11 + 16 * 2 ^ 16 + cfg.nctx % 2 ^ 5 * 2 ^ 24)

/-- Word `k` of `CTXINFO[c]` (R44): everything reads as 0 while `VALID = 0`, and word 3 is reserved. -/
def ctxInfo (slot : Option Context) (k : Nat) : Word :=
  match slot, k with
  | some c, 0 => BitVec.ofNat 32 (1 + 2 * flag c.n0odd)
  | some c, 1 => c.id
  | some c, 2 => BitVec.ofNat 32 (c.l % 2 ^ 11)
  | _, _ => 0

end Sys2Proof.Machine
end

