-- ==== Sys2Proof/Machine/Bus.lean ====
section
/-! DEFINITION. The host's accesses to the register window (20_memory.md): the address map (R72), reads (R76 to R82), writes and
rejected writes (R81). The memory the host sees is this window; the block has no other memory (R70). -/

namespace Sys2Proof.Machine

open Sys2Proof

/-- The size of the window in bytes (R70). -/
abbrev windowSizeBytes : Nat := 0x11000

/-- What stands at an offset of the window (R72). -/
inductive Place where
  | cmd
  | status
  | errCmd
  | config
  | gen
  | ctxInfo (c k : Nat)
  | len (r : RegId)
  | kind (r : RegId)
  | tag (r : RegId)
  | limbWord (r : RegId) (j : Nat)
  | unmapped
deriving DecidableEq, Repr

/-- The control page of R72, offsets 0x000 to 0xFFF. -/
def controlPlace (cfg : Config) (off : Nat) : Place :=
  if off = 0x000 then .cmd
  else if off = 0x004 then .status
  else if off = 0x008 then .errCmd
  else if off = 0x00C then .config
  else if off = 0x010 then .gen
  else if 0x100 ≤ off ∧ (off - 0x100) / 0x10 < cfg.nctx then .ctxInfo ((off - 0x100) / 0x10) (off % 0x10 / 4)
  else .unmapped

/-- Offset `o` of the window of register `r` (R72, R75). -/
def registerPlace (cfg : Config) (r : RegId) (o : Nat) : Place :=
  if o = 0x000 then .len r
  else if o = 0x004 then .kind r
  else if o = 0x008 then .tag r
  else if 0x800 ≤ o ∧ (o - 0x800) / 4 < cfg.maxLimbs / 2 then .limbWord r ((o - 0x800) / 4)
  else .unmapped

/-- The register whose window holds an offset of 0x1000 or more: `W(r) = 0x1000·(r + 1)` (R75). -/
def windowReg (off : Nat) : RegId := ⟨(off / 0x1000 - 1) % 16, Nat.mod_lt _ (by decide)⟩

/-- The address map (R72), for an aligned offset below 0x11000. -/
def place (cfg : Config) (off : Nat) : Place :=
  if off < 0x1000 then controlPlace cfg off else registerPlace cfg (windowReg off) (off % 0x1000)

/-- The offset of a platform address, or why there is no access: a platform address outside the window (R70), or an access that is
not an aligned 32-bit access (R71, U3). -/
def offsetOf (cfg : Config) (addr width : Nat) : Except (Host.Outcome State Fault Refusal) Nat :=
  if addr < cfg.blockBase ∨ cfg.blockBase + windowSizeBytes ≤ addr then .error (.fault (.outsideWindow addr))
  else if width ≠ 4 ∨ (addr - cfg.blockBase) % 4 ≠ 0 then .error (.refused (.accessForm addr width))
  else .ok (addr - cfg.blockBase)

/-- Limb word `j` of a register: `LIMB[2j+1]·2^16 + LIMB[2j]` (R77, R83), each unspecified half a free value (U5). -/
def BigReg.limbWord (v : BigReg) (draws j : Nat) : Word :=
  let lo := (v.mem.read (2 * j)).getD (Config.freeLimb draws)
  let hi := (v.mem.read (2 * j + 1)).getD (Config.freeLimb (draws + 1))
  BitVec.ofNat 32 (hi.toNat * 2 ^ 16 + lo.toNat)

/-- `KIND` as the host reads it (R31, R78). -/
def Kind.word : Kind → Word
  | .plain => 0
  | .mont => 1

/-- The word a read returns while the place may be read: an unmapped offset reads as 0 (R82). -/
def State.readPlace (s : State) : Place → Word
  | .cmd => s.lastCmd
  | .status => s.statusWord
  | .errCmd => s.errCmd
  | .config => configWord s.cfg
  | .gen => s.gen
  | .ctxInfo c k => ctxInfo (s.slots.getD c none) k
  | .len r => BitVec.ofNat 32 (s.reg r).len
  | .kind r => (s.reg r).kind.word
  | .tag r => (s.reg r).tag
  | .limbWord r j => (s.reg r).limbWord s.draws j
  | .unmapped => 0

/-- The word `MemRead(off, 4)` returns: any offset of a register window while `BUSY = 1` is unspecified (R80, U4). -/
def State.readWord (s : State) (off : Nat) : Word :=
  if 0x1000 ≤ off ∧ s.busy then Config.freeWord s.draws else s.readPlace (place s.cfg off)

/-- A served read: the host gets the word, and nothing else changes (R85) but the model's counter of free values, which moves past
the two a register-window read may have used. -/
def State.hostRead (s : State) (off : Nat) : State :=
  { s with reply := some (s.readWord off), draws := if off < 0x1000 then s.draws else s.draws + 2 }

/-- `ACCERR ← 1`, the whole effect of an access the block does not accept (R81). -/
def State.reject (s : State) : State := { s with status := { s.status with accErr := true } }

/-- A write of a command word (R73, R100): rejected while busy, accepted otherwise; an accepted word that does not decode completes at
once with `IllegalCommand` (R73, R262). -/
def State.hostCommand (s : State) (decodes : Bool) (w : Word) : State :=
  if s.busy then s.reject
  else if decodes then s.accept w
  else (s.accept w).fail .illegalCommand

/-- A write of `STATUS`: bit 2 clears `ACCERR`, nothing else happens, busy or not (R74). -/
def State.hostStatus (s : State) (v : Word) : State :=
  if v.getLsbD 2 then { s with status := { s.status with accErr := false } } else s

/-- A write of `LEN` while idle (R76): above `MAX_LIMBS` it is rejected; else the register becomes Plain and no cell changes. -/
def State.hostLen (s : State) (r : RegId) (v : Word) : State :=
  if s.cfg.maxLimbs < v.toNat then s.reject
  else s.setReg r { s.reg r with len := v.toNat, kind := .plain, tag := 0 }

/-- A write of limb word `j` while idle (R77): two cells, `LEN` unchanged, the register becomes Plain. -/
def State.hostLimbs (s : State) (r : RegId) (j : Nat) (v : Word) : State :=
  s.setReg r { s.reg r with
    mem := Memory.write (Memory.write (s.reg r).mem (2 * j) (v.extractLsb' 0 16)) (2 * j + 1) (v.extractLsb' 16 16)
    kind := .plain
    tag := 0 }

/-- `MemWrite(off, 4, v)` at a place of the map. Writes to a register window while busy, to a read-only register and to an unmapped
offset are rejected (R78, R79, R81, R82). -/
def State.writePlace (s : State) (decodes : Bool) (p : Place) (v : Word) : State :=
  match p with
  | .cmd => s.hostCommand decodes v
  | .status => s.hostStatus v
  | .errCmd => s.reject
  | .config => s.reject
  | .gen => s.reject
  | .ctxInfo _ _ => s.reject
  | .len r => if s.busy then s.reject else s.hostLen r v
  | .kind _ => s.reject
  | .tag _ => s.reject
  | .limbWord r j => if s.busy then s.reject else s.hostLimbs r j v
  | .unmapped => s.reject

/-- A served write. -/
def State.hostWrite (s : State) (off : Nat) (v : Word) : State :=
  s.writePlace (decode s.cfg.nctx v).isSome (place s.cfg off) v

/-- `MemRead` as a step: the offset, then the read. -/
def State.serveRead (s : State) (addr width : Nat) : Host.Outcome State Fault Refusal :=
  match offsetOf s.cfg addr width with
  | .ok off => .next (s.hostRead off)
  | .error o => o

/-- `MemWrite` as a step: the offset, then the write. -/
def State.serveWrite (s : State) (addr width : Nat) (v : Word) : Host.Outcome State Fault Refusal :=
  match offsetOf s.cfg addr width with
  | .ok off => .next (s.hostWrite off v)
  | .error o => o

/-- The platform's reset (R290, R291): every state of the block takes its value of R48, and a command in flight is abandoned. The
build parameters, what arrives later and the counter of free values are not the block's state and stay. -/
def State.hardReset (s : State) : State :=
  { State.resetWith s.cfg with inputs := s.inputs, draws := s.draws }

/-- Clock or power removed (R277, U16): every state field is a free value until reset. -/
def State.powerOff (s : State) : State :=
  { Config.lostState s.draws with cfg := s.cfg, inputs := s.inputs, draws := s.draws + 1, lost := true }

/-- The host's `wlen rN, n` (R109): write `LEN`. -/
def wlen (cfg : Config) (r : RegId) (n : Nat) : List Input :=
  [.write (cfg.blockBase + 0x1000 * (r.val + 1)) 4 (BitVec.ofNat 32 n)]

/-- The limb words of a sequence from word `j` on; an odd last limb is paired with 0, which lies outside the value (R77). -/
def wlimbWords (cfg : Config) (r : RegId) : Nat → List Limb → List Input
  | _, [] => []
  | j, [x] => [.write (cfg.blockBase + 0x1000 * (r.val + 1) + 0x800 + 4 * j) 4 (BitVec.ofNat 32 x.toNat)]
  | j, x :: y :: s =>
    .write (cfg.blockBase + 0x1000 * (r.val + 1) + 0x800 + 4 * j) 4 (BitVec.ofNat 32 (y.toNat * 2 ^ 16 + x.toNat))
      :: wlimbWords cfg r (j + 1) s

/-- The host's `wlimbs rN, [l0, l1, …]` (R109): write every limb word of the value. -/
def wlimbs (cfg : Config) (r : RegId) (s : List Limb) : List Input := wlimbWords cfg r 0 s

/-- The host's write of a command (R73). -/
def wcmd (cfg : Config) (i : Instr) : List Input := [.write cfg.blockBase 4 (encode i)]

/-- The host's `poll` (R109) when the engine needs no further wait: the engine runs to completion, then `STATUS` is read. -/
def poll (cfg : Config) : List Input := [.finish, .read (cfg.blockBase + 4) 4]

end Sys2Proof.Machine
end

