-- ==== Sys2Proof/Machine/Bigint.lean ====
section
/-! DEFINITION. The big-integer commands ADD, SUB, MUL, CMP, TRIM and MOV (40_bigint.md section 2). -/

namespace Sys2Proof.Machine

open Sys2Proof

/-- ADD on a snapshot (R138). -/
def addResult (cfg : Config) (rd ra rb : RegId) (x : Snapshot) : CmdResult := do
  let (s, t) ← plain2 x ra rb
  let r := addSeq s t
  checkCapacity cfg.maxLimbs r
  return .reg rd (BigReg.plain r)

/-- SUB on a snapshot (R139). -/
def subResult (rd ra rb : RegId) (x : Snapshot) : CmdResult := do
  let (s, t) ← plain2 x ra rb
  match subSeq s t with
  | none => .error (.err .underflow)
  | some r => return .reg rd (BigReg.plain r)

/-- MUL on a snapshot (R140). -/
def mulResult (cfg : Config) (rd ra rb : RegId) (x : Snapshot) : CmdResult := do
  let (s, t) ← plain2 x ra rb
  let r := mulSeq s t
  checkCapacity cfg.maxLimbs r
  return .reg rd (BigReg.plain r)

/-- CMP on a snapshot (R141). -/
def cmpResult (ra rb : RegId) (x : Snapshot) : CmdResult := do
  let (s, t) ← plain2 x ra rb
  return .cmp (cmp3 s t)

/-- TRIM on a snapshot (R142). -/
def trimResult (rd ra : RegId) (x : Snapshot) : CmdResult := do
  let s ← plain1 x ra
  return .reg rd (BigReg.plain (trim s))

/-- MOV on a snapshot (R143): either kind, `TAG` kept. -/
def movResult (rd ra : RegId) (x : Snapshot) : CmdResult := do
  let s ← readLimbs x ra
  match (x.reg ra).kind with
  | .plain => return .reg rd (BigReg.plain s)
  | .mont => return .reg rd (BigReg.mont s (x.reg ra).tag)

/-- ADD (R138). -/
def execAdd (rd ra rb : RegId) (s : State) : Host.Outcome State Fault Refusal :=
  s.complete (addResult s.cfg rd ra rb s.sources)

/-- SUB (R139). -/
def execSub (rd ra rb : RegId) (s : State) : Host.Outcome State Fault Refusal :=
  s.complete (subResult rd ra rb s.sources)

/-- MUL (R140). -/
def execMul (rd ra rb : RegId) (s : State) : Host.Outcome State Fault Refusal :=
  s.complete (mulResult s.cfg rd ra rb s.sources)

/-- CMP (R141). -/
def execCmp (ra rb : RegId) (s : State) : Host.Outcome State Fault Refusal :=
  s.complete (cmpResult ra rb s.sources)

/-- TRIM (R142). -/
def execTrim (rd ra : RegId) (s : State) : Host.Outcome State Fault Refusal :=
  s.complete (trimResult rd ra s.sources)

/-- MOV (R143). -/
def execMov (rd ra : RegId) (s : State) : Host.Outcome State Fault Refusal :=
  s.complete (movResult rd ra s.sources)

end Sys2Proof.Machine
end

