-- ==== Sys2Proof/Machine/Longdiv.lean ====
section
/-! DEFINITION. Long division and DIVMOD (41_longdiv.md). R170's algorithm by repeated subtraction is `divmodSeq`; DIVMOD and
MCTX evaluate `divmodDigits`, which finds each quotient digit with one division, and Laws/Longdiv.lean proves the two equal.
The engine's scratch steps (Machine/Engine.lean) subtract one at a time, as R170 does. -/

namespace Sys2Proof.Machine

open Sys2Proof

/-- The `while` loop of R170 at position `p`: subtract the aligned divisor while the aligned value is at least the divisor,
counting. The first argument bounds the subtractions; `B` is enough, since at most `B − 1` happen (R170). -/
def subtractWhile (d : List Limb) (p : Nat) : Nat → List Limb → Nat → List Limb × Nat
  | 0, rem, digit => (rem, digit)
  | fuel + 1, rem, digit =>
    if val rem / base ^ p < val d then (rem, digit)
    else
      match subSeq rem (shlLimbs d p) with
      | none => (rem, digit)
      | some rem' => subtractWhile d p fuel rem' (digit + 1)

/-- The positions of R170, from `p − 1` down to 0, prepending each digit to the quotient: (quotient, remainder). -/
def divPositions (d : List Limb) : Nat → List Limb → List Limb → List Limb × List Limb
  | 0, rem, q => (q, rem)
  | p + 1, rem, q =>
    let r := subtractWhile d p base rem 0
    divPositions d p r.1 (BitVec.ofNat 16 r.2 :: q)

/-- `divmod_seq(s, t)` (R170) by repeated subtraction; `none` is `DivideByZero`. -/
def divmodSeq (s t : List Limb) : Option (List Limb × List Limb) :=
  if trim t = [] then none else some (divPositions (trim t) s.length s [])

/-- The positions of R170 on values, each digit found by one division: (quotient, remainder). -/
def divDigits (d : Nat) : Nat → Nat → List Limb → List Limb × Nat
  | 0, rem, q => (q, rem)
  | p + 1, rem, q =>
    let digit := rem / base ^ p / d
    divDigits d p (rem - digit * (d * base ^ p)) (BitVec.ofNat 16 digit :: q)

/-- `divmod_seq(s, t)` (R170) with one division per digit; `none` is `DivideByZero`. "Only timing can tell the two apart" (R170). -/
def divmodDigits (s t : List Limb) : Option (List Limb × List Limb) :=
  if trim t = [] then none
  else
    let r := divDigits (val t) s.length (val s) []
    some (r.1, limbs s.length r.2)

/-- DIVMOD on a snapshot (R171). -/
def divmodResult (rd rc ra rb : RegId) (x : Snapshot) : CmdResult := do
  let (s, t) ← plain2 x ra rb
  match divmodDigits s t with
  | none => .error (.err .divideByZero)
  | some (q, r) => return .quotRem rd (BigReg.plain q) rc (BigReg.plain r)

/-- DIVMOD (R171). -/
def execDivmod (rd rc ra rb : RegId) (s : State) : Host.Outcome State Fault Refusal :=
  s.complete (divmodResult rd rc ra rb s.sources)

end Sys2Proof.Machine
end

