-- ==== Sys2Proof/Machine/Montgomery.lean ====
section
/-! DEFINITION. The Montgomery context, the single-limb inverse, REDC, and MCTX, MCONV, MMUL and MOUT (42_montgomery.md). -/

namespace Sys2Proof.Machine

open Sys2Proof

/-- The extended-Euclid recurrence of R191 (93_implementation_defined.md G2): `(g, x, y)` with `a·x + b·y = g`. The first argument
bounds the recursion; more than `b` is enough, since `a mod b < b`. -/
def egcd : Nat → Nat → Nat → Nat × Int × Int
  | 0, a, _ => (a, 1, 0)
  | fuel + 1, a, b =>
    if b = 0 then (a, 1, 0)
    else
      let r := egcd fuel b (a % b)
      (r.1, r.2.2, r.2.1 - (a / b : Nat) * r.2.2)

/-- `inv_B(a)` (R191): `none` is `NoModularInverse`. -/
def invB (a : Limb) : Option Limb :=
  let r := egcd (base + 1) a.toNat base
  if r.1 = 1 then some (BitVec.ofNat 16 (r.2.1 % (base : Int)).toNat) else none

/-- `neg_inv_mod0 = B − inv_B(N₀)` (R191). -/
def negInv (a : Limb) : Option Limb := (invB a).map (fun y => BitVec.ofNat 16 (base - y.toNat))

/-- `context_constants(s)` (R190): the trimmed modulus, its limb count `L` and `B^(2L) mod N`; `none` is `DivideByZero`. The scratch
sequences are not capacity-checked (92_eei_decisions.md D33). -/
def contextConstants (s : List Limb) : Option (List Limb × Nat × Nat) :=
  let n := trim s
  let l := n.length
  let r := shlLimbs [1] l
  match divmodDigits (mulSeq r r) n with
  | none => none
  | some (_, cf) => some (n, l, val cf)

/-- `N0ODD`: whether `N[0]` is odd (R36). -/
def n0Odd (n : List Limb) : Bool := (n.headD 0).toNat % 2 == 1

/-- The commit of MCTX (R196) for a modulus `n` (trimmed) and `CF = cf`, or the refusal of an id wrap (R38, U6). An even modulus
leaves `NINV` a free value (U7). -/
def mctxCommit (x : Snapshot) (ctx : SlotId) (n : List Limb) (cf : Nat) : CmdResult :=
  if x.gen = 0xFFFFFFFF#32 then .error (.refuse .idWrap)
  else .ok (.slot ctx
    { id := x.gen, n := n, l := n.length, cf := cf, n0odd := n0Odd n,
      ninv := (negInv (n.headD 0)).getD (Config.freeLimb x.draw) })

/-- MCTX on a snapshot (R196). -/
def mctxResult (ctx : SlotId) (ra : RegId) (x : Snapshot) : CmdResult := do
  let s ← plain1 x ra
  match contextConstants s with
  | none => .error (.err .divideByZero)
  | some (n, _, cf) => mctxCommit x ctx n cf

/-- One iteration of REDC's step 2 (R193): `k = (acc mod B)·m mod B`, `acc ← (acc + N·k) div B`. -/
def redcIter (n m acc : Nat) : Nat := (acc + n * ((acc % base) * m % base)) / base

/-- `L` iterations of REDC's step 2 (R193). -/
def redcLoop (n m : Nat) : Nat → Nat → Nat
  | 0, acc => acc
  | l + 1, acc => redcLoop n m l (redcIter n m acc)

/-- REDC's step 3 (R193): `value mod N` (90_conflicts.md C2). -/
def redcFinal (n acc : Nat) : Nat := if n ≤ acc then acc % n else acc

/-- `val(redc(c, v))` for a slot whose `N0ODD` is 1 (R193 steps 2 and 3). -/
def redcVal (c : Context) (v : Nat) : Nat := redcFinal (val c.n) (redcLoop (val c.n) c.ninv.toNat c.l v)

/-- `NoModularInverse` unless `N₀` is invertible: REDC's step 1, checked on every call (R193). -/
def requireOdd (c : Context) : Except Stop Unit :=
  if c.n0odd then .ok () else .error (.err .noModularInverse)

/-- `redc(c, v)` (R193). -/
def redc (c : Context) (v : Nat) : Except Stop (List Limb) := do
  requireOdd c
  return canon (redcVal c v)

/-- MCONV on a snapshot (R197). -/
def mconvResult (rd ra : RegId) (ctx : SlotId) (x : Snapshot) : CmdResult := do
  let (c, s) ← mconvOperands x ra ctx
  let r ← redc c (val s * c.cf)
  return Dest.write (.mont rd c.id) r

/-- MMUL on a snapshot (R198). -/
def mmulResult (rd ra rb : RegId) (x : Snapshot) : CmdResult := do
  let (c, s, t) ← mmulOperands x ra rb
  let r ← redc c (val s * val t)
  return Dest.write (.mont rd (x.reg ra).tag) r

/-- MOUT on a snapshot (R199). -/
def moutResult (rd ra : RegId) (x : Snapshot) : CmdResult := do
  let (c, s) ← moutOperands x ra
  let r ← redc c (val s)
  return Dest.write (.plain rd) r

/-- MCTX (R196). -/
def execMctx (ctx : SlotId) (ra : RegId) (s : State) : Host.Outcome State Fault Refusal :=
  s.complete (mctxResult ctx ra s.sources)

/-- MCONV (R197). -/
def execMconv (rd ra : RegId) (ctx : SlotId) (s : State) : Host.Outcome State Fault Refusal :=
  s.complete (mconvResult rd ra ctx s.sources)

/-- MMUL (R198). -/
def execMmul (rd ra rb : RegId) (s : State) : Host.Outcome State Fault Refusal :=
  s.complete (mmulResult rd ra rb s.sources)

/-- MOUT (R199). -/
def execMout (rd ra : RegId) (s : State) : Host.Outcome State Fault Refusal :=
  s.complete (moutResult rd ra s.sources)

end Sys2Proof.Machine
end

