-- ==== Sys2Proof/Machine/Exponent.lean ====
section
/-! DEFINITION. Sliding-window exponentiation and MPOW (43_exponent.md). -/

namespace Sys2Proof.Machine

open Sys2Proof

/-- The bound of R231's search at window size `k`: `⌊k(k+1)·2^(2k) / (2^(k+1) − k − 2)⌋`. -/
def windowBound (k : Nat) : Nat := k * (k + 1) * 2 ^ (2 * k) / (2 ^ (k + 1) - k - 2)

/-- The search `k, k + 1, …` of R231, of at most the first argument's number of tries. -/
def windowSearch (n : Nat) : Nat → Nat → Nat
  | 0, k => k
  | fuel + 1, k => if windowBound k < n then windowSearch n fuel (k + 1) else k

/-- `WINDOW_SIZE_ref(n)` (R231; 93_implementation_defined.md G1). The bound of `k` is at least `k`, so `n` tries are enough. -/
def windowRef (n : Nat) : Nat := windowSearch n n 1

/-- `WINDOW_SIZE(n)` for a bit-length `n`, a multiple of 16 (R231, R232). -/
def windowSize (cfg : Config) (n : Nat) : Nat :=
  match cfg.windows[n / 16]? with
  | some k => k
  | none => windowRef n

/-- `K_MAX` (R5). -/
def kMax (cfg : Config) : Nat := windowSize cfg (16 * cfg.maxLimbs)

/-- `mmul(c, a, b) = val(redc(c, a·b))`, for a slot whose `N0ODD` is 1. -/
def mmul (c : Context) (a b : Nat) : Nat := redcVal c (a * b)

/-- The trim of R235: raise `lo` while its bit is 0, at most the given number of times. -/
def trimLow (e : List Limb) : Nat → Nat → Nat
  | 0, lo => lo
  | fuel + 1, lo => if bit e lo = false then trimLow e fuel (lo + 1) else lo

/-- `Σ bit(e, lo + j)·2^j` over the `n` bits from `lo` up (R235). -/
def bitsVal (e : List Limb) (lo : Nat) : Nat → Nat
  | 0 => 0
  | n + 1 => flag (bit e lo) + 2 * bitsVal e (lo + 1) n

/-- `window(e, i, k)` (R235): the low bound and the value of the trimmed window whose top bit is `i`. -/
def window (e : List Limb) (i k : Nat) : Nat × Nat :=
  let lo := trimLow e (k - 1) (i - (k - 1))
  (lo, bitsVal e lo (i - lo + 1))

/-- `odd_table(c, X, k)` (R236): `n` entries from `t` on, each the one before times `x2`. -/
def oddTable (c : Context) (x2 : Nat) : Nat → Nat → List Nat
  | 0, _ => []
  | n + 1, t => t :: oddTable c x2 n (mmul c t x2)

/-- `n` squarings. -/
def squarings (c : Context) : Nat → Nat → Nat
  | 0, r => r
  | n + 1, r => squarings c n (mmul c r r)

/-- The scan of R234 from index `n − 1` down; the signed index `i` of the rule is `n − 1`, and `n = 0` is past the least
significant bit. The first argument bounds the iterations; `log_n` is enough, since each one lowers the index. -/
def scan (c : Context) (e : List Limb) (k : Nat) (table : List Nat) : Nat → Nat → Nat → Except Stop Nat
  | 0, _, result => .ok result
  | _, 0, result => .ok result
  | fuel + 1, i + 1, result =>
    if bit e i = false then scan c e k table fuel i (mmul c result result)
    else
      let (lo, w) := window e i k
      match table[(w - 1) / 2]? with
      | none => .error (.err .indexOutOfRange)
      | some t => scan c e k table fuel lo (mmul c (squarings c (i - lo + 1) result) t)

/-- `mpow_core(c, X, e)` (R234). REDC's step 1 stands once, before the table: the first Montgomery multiplication of the table
makes the same check on the same slot. -/
def mpowCore (cfg : Config) (c : Context) (x : Nat) (e : List Limb) : Except Stop Nat := do
  requireOdd c
  let k := windowSize cfg (bitlen e)
  scan c e k (oddTable c (mmul c x x) (2 ^ k) x) (bitlen e) (bitlen e) (redcVal c (1 * c.cf))

/-- MPOW on a snapshot (R238). -/
def mpowResult (cfg : Config) (rd ra rb : RegId) (x : Snapshot) : CmdResult := do
  let (c, s, e) ← mpowOperands x ra rb
  let v ← mpowCore cfg c (val s) e
  return Dest.write (.mont rd (x.reg ra).tag) (canon v)

/-- MPOW (R238). -/
def execMpow (rd ra rb : RegId) (s : State) : Host.Outcome State Fault Refusal :=
  s.complete (mpowResult s.cfg rd ra rb s.sources)

end Sys2Proof.Machine
end

