-- ==== Sys2Proof/Machine/Dispatch.lean ====
section
/-! DEFINITION. The dispatch from a decoded command to its meaning, one arm per constructor of `Instr`. -/

namespace Sys2Proof.Machine

open Sys2Proof

def exec (i : Instr) (s : State) : Host.Outcome State Fault Refusal :=
  match i with
  | .add rd ra rb => Sys2Proof.Machine.execAdd rd ra rb s
  | .sub rd ra rb => Sys2Proof.Machine.execSub rd ra rb s
  | .mul rd ra rb => Sys2Proof.Machine.execMul rd ra rb s
  | .divmod rd rc ra rb => Sys2Proof.Machine.execDivmod rd rc ra rb s
  | .cmp ra rb => Sys2Proof.Machine.execCmp ra rb s
  | .trim rd ra => Sys2Proof.Machine.execTrim rd ra s
  | .mov rd ra => Sys2Proof.Machine.execMov rd ra s
  | .mctx ctx ra => Sys2Proof.Machine.execMctx ctx ra s
  | .mconv rd ra ctx => Sys2Proof.Machine.execMconv rd ra ctx s
  | .mmul rd ra rb => Sys2Proof.Machine.execMmul rd ra rb s
  | .mpow rd ra rb => Sys2Proof.Machine.execMpow rd ra rb s
  | .mout rd ra => Sys2Proof.Machine.execMout rd ra s

end Sys2Proof.Machine
end

