-- ==== Sys2Proof/Machine/Engine.lean ====
section
/-! DEFINITION. The engine one step at a time: the BitCursor (43_exponent.md R233) and the hidden scratch state of the command in
flight (10_state.md R46, R47), which the algorithms of 41_longdiv.md, 42_montgomery.md and 43_exponent.md go through between
acceptance and completion. The meanings (`exec`) run the same algorithms in one go; that both give the same outcome is one of the
obligations. How much work one engine step does is not in the spec (R310): log 18. -/

namespace Sys2Proof.Machine

open Sys2Proof

/-- The position of the highest set bit below `n`, or −1 (R233 `new`). -/
def topBit (s : List Limb) : Nat → Int
  | 0 => -1
  | n + 1 => if bit s n then (n : Int) else topBit s n

/-- `new(s)`: at the most significant set bit, accumulator 0 (R233). -/
def BitCursor.new (s : List Limb) : BitCursor := { pos := topBit s (bitlen s), acc := 0 }

/-- `dereference` (R233). -/
def BitCursor.deref (s : List Limb) (c : BitCursor) : Bool := bit s c.pos.toNat

/-- The forward step, toward less significant bits (R233). -/
def BitCursor.forward (s : List Limb) (c : BitCursor) : BitCursor :=
  { pos := c.pos - 1, acc := 2 * c.acc + flag (c.deref s) }

/-- The backward step (R233). -/
def BitCursor.backward (c : BitCursor) : BitCursor := { pos := c.pos + 1, acc := c.acc / 2 }

/-- `is_finished` (R233). -/
def BitCursor.isFinished (c : BitCursor) : Bool := decide (c.pos < 0)

/-- `clear_accumulator` (R233). -/
def BitCursor.clear (c : BitCursor) : BitCursor := { c with acc := 0 }

/-- The extension of a window: at most `n` forward steps, stopping early when the bit positions run out (R235). -/
def BitCursor.extend (s : List Limb) : Nat → BitCursor → BitCursor
  | 0, c => c
  | n + 1, c => if c.isFinished then c else BitCursor.extend s n (c.forward s)

/-- The trim of a window: backward while the lowest bit taken in is 0, at most `n` times (R235). -/
def BitCursor.retract : Nat → BitCursor → BitCursor
  | 0, c => c
  | n + 1, c => if c.acc % 2 = 0 then BitCursor.retract n c.backward else c

/-- `window(e, i, k)` formed with a BitCursor (R235): the low bound and the window's value. -/
def cursorWindow (e : List Limb) (i k : Nat) : Nat × Nat :=
  let start : BitCursor := { pos := i, acc := 0 }
  let c := BitCursor.retract (k - 1) (BitCursor.extend e k start.clear)
  ((c.pos + 1).toNat, c.acc)

/-- The outcome of each command on a snapshot: what its meaning completes with (Laws/Exec.lean `exec_eq_complete`). -/
def result (cfg : Config) (i : Instr) (x : Snapshot) : CmdResult :=
  match i with
  | .add rd ra rb => addResult cfg rd ra rb x
  | .sub rd ra rb => subResult rd ra rb x
  | .mul rd ra rb => mulResult cfg rd ra rb x
  | .divmod rd rc ra rb => divmodResult rd rc ra rb x
  | .cmp ra rb => cmpResult ra rb x
  | .trim rd ra => trimResult rd ra x
  | .mov rd ra => movResult rd ra x
  | .mctx ctx ra => mctxResult ctx ra x
  | .mconv rd ra ctx => mconvResult rd ra ctx x
  | .mmul rd ra rb => mmulResult rd ra rb x
  | .mpow rd ra rb => mpowResult cfg rd ra rb x
  | .mout rd ra => moutResult rd ra x

/-- The scratch state with which an algorithm begins, or `done` with the reason it does not. -/
def Scratch.begin (r : Except Stop Scratch) : Scratch :=
  match r with
  | .ok sc => sc
  | .error e => .done (.error e)

/-- A division of `s` by `t` for `job`, at the dividend's most significant limb (R170). -/
def Scratch.beginDiv (job : DivUse) (s t : List Limb) : Except Stop Scratch :=
  if trim t = [] then .error (.err .divideByZero) else .ok (.div job (trim t) s s.length 0 [])

/-- A REDC of `v` under `c` for `dest` (R193 step 1). -/
def Scratch.beginRedc (dest : Dest) (c : Context) (v : Nat) : Except Stop Scratch := do
  requireOdd c
  return .redc dest c v 0

/-- The first engine step: the checks of R264, and then the algorithm of the command; the single-pass commands end in it. -/
def Scratch.first (cfg : Config) (i : Instr) (x : Snapshot) : Scratch :=
  match i with
  | .add rd ra rb => .done (addResult cfg rd ra rb x)
  | .sub rd ra rb => .done (subResult rd ra rb x)
  | .mul rd ra rb => .done (mulResult cfg rd ra rb x)
  | .divmod rd rc ra rb => Scratch.begin do
      let (s, t) ← plain2 x ra rb
      Scratch.beginDiv (.divmod rd rc) s t
  | .cmp ra rb => .done (cmpResult ra rb x)
  | .trim rd ra => .done (trimResult rd ra x)
  | .mov rd ra => .done (movResult rd ra x)
  | .mctx ctx ra => Scratch.begin do
      let s ← plain1 x ra
      let r := shlLimbs [1] (trim s).length
      Scratch.beginDiv (.mctx ctx (trim s)) (mulSeq r r) (trim s)
  | .mconv rd ra ctx => Scratch.begin do
      let (c, s) ← mconvOperands x ra ctx
      Scratch.beginRedc (.mont rd c.id) c (val s * c.cf)
  | .mmul rd ra rb => Scratch.begin do
      let (c, s, t) ← mmulOperands x ra rb
      Scratch.beginRedc (.mont rd (x.reg ra).tag) c (val s * val t)
  | .mpow rd ra rb => Scratch.begin do
      let (c, s, e) ← mpowOperands x ra rb
      requireOdd c
      return .powTable (.mont rd (x.reg ra).tag) c e (windowSize cfg (bitlen e)) (mmul c (val s) (val s)) [val s]
  | .mout rd ra => Scratch.begin do
      let (c, s) ← moutOperands x ra
      Scratch.beginRedc (.plain rd) c (val s)

/-- What a finished division writes: DIVMOD's two registers (R171), or MCTX's slot (R196). -/
def DivUse.result (x : Snapshot) (job : DivUse) (q rem : List Limb) : CmdResult :=
  match job with
  | .divmod rd rc => .ok (.quotRem rd (BigReg.plain q) rc (BigReg.plain rem))
  | .mctx ctx n => mctxCommit x ctx n (val rem)

/-- One engine step on the scratch state of command `i` over snapshot `x`. -/
def Scratch.advance (cfg : Config) (i : Instr) (x : Snapshot) : Scratch → Scratch
  | .start => Scratch.first cfg i x
  | .div job _ rem 0 _ q => .done (job.result x q rem)
  | .div job d rem (p + 1) digit q =>
    if val rem / base ^ p < val d then .div job d rem p 0 (BitVec.ofNat 16 digit :: q)
    else
      match subSeq rem (shlLimbs d p) with
      | some rem' => .div job d rem' (p + 1) (digit + 1) q
      | none => .done (.error (.err .underflow))
  | .redc dest c acc iter =>
    if iter < c.l then .redc dest c (redcIter (val c.n) c.ninv.toNat acc) (iter + 1)
    else .done (.ok (dest.write (canon (redcFinal (val c.n) acc))))
  | .powTable dest c e k x2 table =>
    if table.length < 2 ^ k then .powTable dest c e k x2 (table ++ [mmul c (table.getLastD 0) x2])
    else .powScan dest c e k table (redcVal c (1 * c.cf)) ((bitlen e : Int) - 1)
  | .powScan dest c e k table result i =>
    if i < 0 then .done (.ok (dest.write (canon result)))
    else if bit e i.toNat = false then .powScan dest c e k table (mmul c result result) (i - 1)
    else
      let (lo, w) := cursorWindow e i.toNat k
      .powWindow dest c e k table result i lo 0 w
  | .powWindow dest c e k table result i lo sq w =>
    if (sq : Int) < i - lo + 1 then .powWindow dest c e k table (mmul c result result) i lo (sq + 1) w
    else
      match table[(w - 1) / 2]? with
      | none => .done (.error (.err .indexOutOfRange))
      | some t => .powScan dest c e k table (mmul c result t) ((lo : Int) - 1)
  | .done r => .done r

/-- `n` engine steps. -/
def Scratch.advanceN (cfg : Config) (i : Instr) (x : Snapshot) : Nat → Scratch → Scratch
  | 0, sc => sc
  | n + 1, sc => Scratch.advanceN cfg i x n (Scratch.advance cfg i x sc)

end Sys2Proof.Machine
end

