-- ==== Sys2Proof/Machine/Sched.lean ====
section
/-! DEFINITION. What one step does, by the next input: the command in flight run to completion, one engine step, a host access,
reset, loss of power (20_memory.md R86, 10_state.md R47). -/

namespace Sys2Proof.Machine

open Sys2Proof

/-- The command in flight, if its word decodes (R100 step 2). -/
def State.current (s : State) : Option Instr :=
  match s.flight with
  | none => none
  | some f => decode s.cfg.nctx f.word

/-- The command in flight run to completion: `exec` of the decoded command, or `IllegalCommand` (R262). An idle block does nothing. -/
def State.finish (s : State) : Host.Outcome State Fault Refusal :=
  match s.flight with
  | none => .next s
  | some f =>
    match decode s.cfg.nctx f.word with
    | none => .next (s.fail .illegalCommand)
    | some i => exec i s

/-- One engine step: completion if the algorithm has ended, else one step of its scratch state (R46, R47). -/
def State.engineStep (s : State) : Host.Outcome State Fault Refusal :=
  match s.flight with
  | none => .next s
  | some f =>
    match decode s.cfg.nctx f.word with
    | none => .next (s.fail .illegalCommand)
    | some i =>
      match f.scratch with
      | .done r => s.complete r
      | sc => .next { s with flight := some { f with scratch := sc.advance s.cfg i f.snap } }

/-- One input served by a powered block. -/
def State.serve (s : State) : Input → Host.Outcome State Fault Refusal
  | .read addr width => s.serveRead addr width
  | .write addr width v => s.serveWrite addr width v
  | .engine => s.engineStep
  | .finish => s.finish
  | .reset => .next s.hardReset
  | .powerLoss => .next s.powerOff

/-- One input served by a block that lost power: only reset brings it back (R277, U16). -/
def State.serveLost (s : State) : Input → State
  | .reset => s.hardReset
  | .read _ _ => s.powerOff
  | .write _ _ _ => s.powerOff
  | .engine => s.powerOff
  | .finish => s.powerOff
  | .powerLoss => s.powerOff

/-- The next step. When no input waits, a command in flight runs to its completion, which weak fairness guarantees (R310), and an idle
block stays as it is. -/
def State.advance (s : State) : Host.Outcome State Fault Refusal :=
  match s.inputs with
  | [] => if s.lost then .next s.powerOff else s.finish
  | i :: rest =>
    if s.lost then .next ({ s with inputs := rest }.serveLost i) else { s with inputs := rest }.serve i

/-- The block with word `w` accepted and all of the engine's steps next: what the host's write of `w` to `CMD` and the engine's turn
leave for the next step to do. -/
def State.withCommand (s : State) (w : Word) : State :=
  { s.accept w with inputs := .finish :: s.inputs, lost := false }

end Sys2Proof.Machine
end

