-- ==== Sys2Proof/Machine/Step.lean ====
section
/-! DEFINITION. The step of the block, and how the host places a command where the next step runs it. -/

namespace Sys2Proof.Machine

open Sys2Proof

/-- One step of the block (Machine/Sched.lean). -/
def step (s : State) : Host.Outcome State Fault Refusal := s.advance

/-- The state whose very next step runs the command word `w` (log 2). The block fetches nothing (R45, R89): a command is what the
host last wrote to `CMD`, so the word is accepted here (R73, R100 step 1) and the engine has the next turn. -/
def State.withFetchWord (s : State) (nbits w : Nat) : State := s.withCommand (BitVec.ofNat 32 (w % 2 ^ nbits))

end Sys2Proof.Machine
end

