-- ==== Sys2Proof/Safety.lean ====
section
/-! DEFINITION. What the claims about the block are stated in: the two ends of a command written out field by field, the registers,
slots and errors of each command, and the invariant of a powered block (10_state.md R31, R35 to R41, R46). -/

namespace Sys2Proof

/-- The registers a command may write (R34, R102). -/
def Instr.dests : Instr → List RegId
  | .add rd _ _ => [rd]
  | .sub rd _ _ => [rd]
  | .mul rd _ _ => [rd]
  | .divmod rd rc _ _ => [rd, rc]
  | .cmp _ _ => []
  | .trim rd _ => [rd]
  | .mov rd _ => [rd]
  | .mctx _ _ => []
  | .mconv rd _ _ => [rd]
  | .mmul rd _ _ => [rd]
  | .mpow rd _ _ => [rd]
  | .mout rd _ => [rd]

/-- The slot a command may write, and with it `GEN` (R34). -/
def Instr.slotDest : Instr → Option SlotId
  | .mctx ctx _ => some ctx
  | .add _ _ _ => none
  | .sub _ _ _ => none
  | .mul _ _ _ => none
  | .divmod _ _ _ _ => none
  | .cmp _ _ => none
  | .trim _ _ => none
  | .mov _ _ => none
  | .mconv _ _ _ => none
  | .mmul _ _ _ => none
  | .mpow _ _ _ => none
  | .mout _ _ => none

/-- Whether a command may write `STATUS.CMP` (R34, R40). -/
def Instr.writesCmp : Instr → Bool
  | .cmp _ _ => true
  | .add _ _ _ => false
  | .sub _ _ _ => false
  | .mul _ _ _ => false
  | .divmod _ _ _ _ => false
  | .trim _ _ => false
  | .mov _ _ => false
  | .mctx _ _ => false
  | .mconv _ _ _ => false
  | .mmul _ _ _ => false
  | .mpow _ _ _ => false
  | .mout _ _ => false

/-- Whether a command writes `KIND = Mont`: MCONV, MMUL and MPOW, and MOV from a Mont source (R35). -/
def Instr.mayWriteMont : Instr → Bool
  | .mconv _ _ _ => true
  | .mmul _ _ _ => true
  | .mpow _ _ _ => true
  | .mov _ _ => true
  | .add _ _ _ => false
  | .sub _ _ _ => false
  | .mul _ _ _ => false
  | .divmod _ _ _ _ => false
  | .cmp _ _ => false
  | .trim _ _ => false
  | .mctx _ _ => false
  | .mout _ _ => false

/-- The error codes a decoded command can report when its operands come from a block that keeps the invariant (R265, less
`IllegalCommand`, which a decoded command never reports, and the unreachable `IndexOutOfRange`). -/
def Instr.errorCodes : Instr → List (BitVec 8)
  | .add _ _ _ => [0x02, 0x09]
  | .sub _ _ _ => [0x02, 0x03]
  | .mul _ _ _ => [0x02, 0x09]
  | .divmod _ _ _ _ => [0x02, 0x04]
  | .cmp _ _ => [0x02]
  | .trim _ _ => [0x02]
  | .mov _ _ => []
  | .mctx _ _ => [0x02, 0x04]
  | .mconv _ _ _ => [0x02, 0x08, 0x05]
  | .mmul _ _ _ => [0x02, 0x06, 0x08]
  | .mpow _ _ _ => [0x02, 0x08]
  | .mout _ _ => [0x02, 0x08]

end Sys2Proof

namespace Sys2Proof.Machine

open Sys2Proof

/-- `s` after a command that succeeds and writes register `rd` only (R266): `ERR = 0`, `ERRCODE = 0`, `BUSY = 0`. -/
def State.wrote (s : State) (rd : RegId) (v : BigReg) : State :=
  { s with
    regs := s.regs.set rd.val v rd.isLt
    status := { s.status with err := false, errCode := 0 }
    flight := none }

/-- `s` after a command that fails with error code `code` (R266): `ERR = 1`, `ERRCODE`, `ERRCMD ← LASTCMD`, `BUSY = 0`. -/
def State.failed (s : State) (code : BitVec 8) : State :=
  { s with
    status := { s.status with err := true, errCode := code }
    errCmd := s.lastCmd
    flight := none }

/-- The requirements of R5 and R231 on the build parameters: `MAX_LIMBS` even, 2 to 1024; `NCTX` 1 to 16; `WINDOW_SIZE` at least 1
everywhere and at most `K_MAX` at every bit-length a register can have. -/
structure ConfigOk (cfg : Config) : Prop where
  maxEven : cfg.maxLimbs % 2 = 0
  maxRange : 2 ≤ cfg.maxLimbs ∧ cfg.maxLimbs ≤ 1024
  nctxRange : 1 ≤ cfg.nctx ∧ cfg.nctx ≤ 16
  windowPos : ∀ n, 1 ≤ windowSize cfg n
  windowMax : ∀ j, j ≤ cfg.maxLimbs → windowSize cfg (16 * j) ≤ kMax cfg

/-- The slot invariant (R37), and that the slot's id was issued before (R38). -/
structure ContextOk (cfg : Config) (gen : Word) (c : Context) : Prop where
  canonicalN : canonical c.n = true
  positive : 1 ≤ val c.n
  lenN : c.l = c.n.length
  fits : c.l ≤ cfg.maxLimbs
  cfIs : c.cf = base ^ (2 * c.l) % val c.n
  oddIs : c.n0odd = n0Odd c.n
  ninvIs : c.n0odd = true → negInv (c.n.headD 0) = some c.ninv
  issued : c.id.toNat < gen.toNat

/-- The slots: `NCTX` of them, each as R37 says, and no two with one id (R38, R192). -/
structure SlotsOk (cfg : Config) (gen : Word) (slots : List (Option Context)) : Prop where
  count : slots.length = cfg.nctx
  each : ∀ (j : Nat) (c : Context), slots[j]? = some (some c) → ContextOk cfg gen c
  distinct : ∀ (j k : Nat) (c d : Context), slots[j]? = some (some c) → slots[k]? = some (some d) → c.id = d.id → j = k

/-- A register (R31, R33, R35): `LEN` and its storage fit, the storage is in canonical form, a Plain register has `TAG = 0`, and a Mont
register holds a canonical value with an issued tag, below the odd `N` of its context if that context is live. -/
structure RegOk (cfg : Config) (gen : Word) (slots : List (Option Context)) (v : BigReg) : Prop where
  lenFits : v.len ≤ cfg.maxLimbs
  memFits : v.mem.length ≤ cfg.maxLimbs
  memWf : Memory.wf v.mem = true
  plainTag : v.kind = .plain → v.tag = 0
  montValue : v.kind = .mont → ∃ s, v.seq = some s ∧ canonical s = true ∧ v.tag.toNat < gen.toNat ∧
    ∀ (j : Nat) (c : Context), slots[j]? = some (some c) → c.id = v.tag → c.n0odd = true ∧ val s < val c.n

/-- `STATUS` (R39 to R41, U14): `ERRCODE` is 0 exactly when `ERR = 0` and never a reserved code; `CMP` is never 0b11. -/
structure StatusOk (st : Status) : Prop where
  codeZero : st.errCode = 0 ↔ st.err = false
  codeKnown : st.errCode.toNat ≤ 0x0B
  cmpKnown : st.cmp ≠ 0b11

/-- The command in flight (R46, R268): its word is `LASTCMD` and decodes, its snapshot is still what the block holds, `ERR` is clear, and
its scratch state is one the engine reaches from acceptance. -/
structure FlightOk (s : State) (f : Flight) : Prop where
  wordIs : f.word = s.lastCmd
  regsKept : f.snap.regs = s.regs
  slotsKept : f.snap.slots = s.slots
  genKept : f.snap.gen = s.gen
  errClear : s.status.err = false
  scratchReached : ∃ i n, decode s.cfg.nctx f.word = some i ∧ f.scratch = Scratch.advanceN s.cfg i f.snap n .start

/-- What holds of a powered block. -/
structure Sound (s : State) : Prop where
  config : ConfigOk s.cfg
  slots : SlotsOk s.cfg s.gen s.slots
  regs : ∀ r : RegId, RegOk s.cfg s.gen s.slots (s.reg r)
  status : StatusOk s.status
  flight : ∀ f, s.flight = some f → FlightOk s f

/-- The invariant: nothing is promised of a block that lost clock or power and was not reset but its parameters (R277, U16). -/
def Inv (s : State) : Prop := ConfigOk s.cfg ∧ (s.lost = false → Sound s)

end Sys2Proof.Machine
end

