-- ==== Sys2Proof/Certificates/Slice0/Obligations.lean ====
section
/-! DEFINITION. The statements about the block that are left to be proved, in the order of OBLIGATIONS.json: encoding, what a step does, the
two ends of a command, each command's result, the host's accesses, reset, the invariant, the engine, and the arithmetic laws. -/

open Sys2Proof Sys2Proof.Machine

/-! ### Encoding (30_encoding.md) -/

/-- Words of 95_test_vectors.md decode to the commands they are listed for. -/
def Obligations.DecodesListedWords : Prop :=
  decode 4 0x01201000#32 = some (.add 2 0 1) ∧ decode 4 0x02523000#32 = some (.sub 5 2 3) ∧
  decode 4 0x03733000#32 = some (.mul 7 3 3) ∧ decode 4 0x04201300#32 = some (.divmod 2 3 0 1) ∧
  decode 4 0x05040000#32 = some (.cmp 4 0) ∧ decode 4 0x06640000#32 = some (.trim 6 4) ∧
  decode 4 0x07530000#32 = some (.mov 5 3) ∧ decode 4 0x10000010#32 = some (.mctx 1 0) ∧
  decode 4 0x11310010#32 = some (.mconv 3 1 1) ∧ decode 4 0x12322000#32 = some (.mmul 3 2 2) ∧
  decode 4 0x13423000#32 = some (.mpow 4 2 3) ∧ decode 4 0x14540000#32 = some (.mout 5 4) ∧
  decode 4 0x00000000#32 = none ∧ decode 4 0x04200200#32 = none ∧ decode 4 0x10000040#32 = none

/-- Every well-formed command, at every operand, is what its encoding decodes to. -/
def Obligations.DecodeOfEncode : Prop :=
  ∀ (nctx : Nat) (i : Instr), i.wf nctx = true → decode nctx (encode i) = some i

/-- Each legal word has one meaning: the command it decodes to is well formed and encodes to that word. -/
def Obligations.EncodeOfDecode : Prop :=
  ∀ (nctx : Nat) (w : Word) (i : Instr), decode nctx w = some i → encode i = w ∧ i.wf nctx = true

/-- R105: a word decodes as a command exactly when that command's row matches and its extra condition holds, and at most one row matches. -/
def Obligations.DecodeIsMatchAndMask : Prop :=
  (∀ (nctx : Nat) (w : Word) (i : Instr), decode nctx w = some i ↔
    ∃ row ∈ rows, w &&& row.maskWord = row.matchWord ∧ i = row.operands w ∧ i.wf nctx = true) ∧
  (∀ (w : Word) (row other : Row), row ∈ rows → other ∈ rows → w &&& row.maskWord = row.matchWord →
    w &&& other.maskWord = other.matchWord → row.mnemonic = other.mnemonic)

/-- R106: a word is illegal exactly when its opcode is unassigned, `res ≠ 0`, a field its command does not use is not 0, an MCTX or MCONV names
a slot from `NCTX` on, or a DIVMOD has `rd = rc`. -/
def Obligations.IllegalWordsAreTheListed : Prop :=
  ∀ (nctx : Nat) (w : Word), decode nctx w = none ↔
    opOf w ∉ [0x01, 0x02, 0x03, 0x04, 0x05, 0x06, 0x07, 0x10, 0x11, 0x12, 0x13, 0x14] ∨
    resOf w ≠ 0 ∨
    (opOf w ∈ [0x01, 0x02, 0x03, 0x12, 0x13] ∧ (rcOf w ≠ 0 ∨ ctxOf w ≠ 0)) ∨
    (opOf w = 0x04 ∧ ctxOf w ≠ 0) ∨
    (opOf w = 0x05 ∧ (rdOf w ≠ 0 ∨ rcOf w ≠ 0 ∨ ctxOf w ≠ 0)) ∨
    (opOf w ∈ [0x06, 0x07, 0x14] ∧ (rbOf w ≠ 0 ∨ rcOf w ≠ 0 ∨ ctxOf w ≠ 0)) ∨
    (opOf w = 0x10 ∧ (rdOf w ≠ 0 ∨ rbOf w ≠ 0 ∨ rcOf w ≠ 0)) ∨
    (opOf w = 0x11 ∧ (rbOf w ≠ 0 ∨ rcOf w ≠ 0)) ∨
    (opOf w ∈ [0x10, 0x11] ∧ nctx ≤ (ctxOf w).val) ∨
    (opOf w = 0x04 ∧ rdOf w = rcOf w)

/-! ### What a step does -/

/-- When the command in flight decodes to `i` and the engine has the turn, the step is `exec i`, after the input is taken; so is the step of a
busy block that no input waits for, and the step after a command word is placed with `withFetchWord`. That the next input is taken first, and
what `finish` and an empty list of inputs do, is the model's choice (log 1, log 2). -/
def Obligations.StepRunsDecodedCommand : Prop :=
  (∀ (s : State) (f : Flight) (i : Instr) (rest : List Input), s.lost = false → s.flight = some f →
    decode s.cfg.nctx f.word = some i → s.inputs = .finish :: rest → step s = exec i { s with inputs := rest }) ∧
  (∀ (s : State) (f : Flight) (i : Instr), s.lost = false → s.flight = some f →
    decode s.cfg.nctx f.word = some i → s.inputs = [] → step s = exec i s) ∧
  (∀ (s : State) (w : Nat) (i : Instr), w < 2 ^ 32 → decode s.cfg.nctx (BitVec.ofNat 32 w) = some i →
    step (s.withFetchWord 32 w) = exec i { s.accept (BitVec.ofNat 32 w) with lost := false })

/-- R73, R100, R262, R268: the `CMD` register. While idle, a write of a word that decodes sets `LASTCMD`, clears `ERR` and `ERRCODE` and starts the command on a
snapshot of the registers, slots and `GEN`; a word that does not decode is accepted and completes at once with `IllegalCommand`. While busy the write is
ignored and sets `ACCERR`. A read returns `LASTCMD` and changes nothing. The model's choices in it:
the snapshot is the whole register file (log 25), the illegal word completes in the step of its write (log 17), and `inputs`, `reply` and `draws` are
the model's own fields (log 19). -/
def Obligations.CmdRegister : Prop :=
  ∀ (s : State) (w : Word) (rest : List Input), s.lost = false →
    (s.inputs = .write s.cfg.blockBase 4 w :: rest → s.flight = none → (decode s.cfg.nctx w).isSome = true →
      step s = .next { s with
        inputs := rest, lastCmd := w, status := { s.status with err := false, errCode := 0 },
        flight := some ⟨w, ⟨s.regs, s.slots, s.gen, s.draws⟩, .start⟩, draws := s.draws + 1 }) ∧
    (s.inputs = .write s.cfg.blockBase 4 w :: rest → s.flight = none → decode s.cfg.nctx w = none →
      step s = .next { s with
        inputs := rest, lastCmd := w, errCmd := w, status := { s.status with err := true, errCode := 0x01 },
        draws := s.draws + 1 }) ∧
    (s.inputs = .write s.cfg.blockBase 4 w :: rest → s.flight ≠ none →
      step s = .next { s with inputs := rest, status := { s.status with accErr := true } }) ∧
    (s.inputs = .read s.cfg.blockBase 4 :: rest → step s = .next { s with inputs := rest, reply := some s.lastCmd })

/-- R260: a command ends in success with `ERR = 0`, or in failure with one error kind and nothing changed but `ERR`, `ERRCODE`, `ERRCMD` and `BUSY`, or
in one of the two refusals the spec asks of a model; never in a fault. -/
def Obligations.CommandEndsInOneOutcome : Prop :=
  ∀ (i : Instr) (s : State),
    (∃ t, exec i s = .next t ∧ t.status.err = false ∧ t.status.errCode = 0 ∧ t.flight = none ∧ t.errCmd = s.errCmd) ∨
    (∃ e : ErrKind, exec i s = .next (s.failed e.code)) ∨
    (∃ r : RegId, exec i s = .refused (.unspecifiedLimb r) ∧ (s.sources.reg r).seq = none) ∨
    (∃ ctx ra, i = .mctx ctx ra ∧ s.sources.gen = 0xFFFFFFFF#32 ∧ exec i s = .refused .idWrap)

/-- R34, R266: the frame of every command. Registers other than its destinations keep `LEN`, every limb cell, `KIND` and `TAG`; slots other than MCTX's
keep their contents; only MCTX changes `GEN` and only CMP changes `STATUS.CMP`; `ACCERR`, `LASTCMD` and the model's own fields stay. -/
def Obligations.CommandFrame : Prop :=
  ∀ (i : Instr) (s t : State), exec i s = .next t →
    (∀ r : RegId, r ∉ i.dests → t.reg r = s.reg r) ∧
    (∀ j : Nat, (∀ c, i.slotDest = some c → c.val ≠ j) → t.slots[j]? = s.slots[j]?) ∧
    (i.slotDest = none → t.gen = s.gen) ∧
    (i.writesCmp = false → t.status.cmp = s.status.cmp) ∧
    t.status.accErr = s.status.accErr ∧ t.lastCmd = s.lastCmd ∧ t.flight = none ∧ t.cfg = s.cfg ∧ t.inputs = s.inputs ∧
    t.reply = s.reply ∧ t.draws = s.draws ∧ t.lost = s.lost

/-- R265: the errors each command can report in a block that keeps its invariant. MMUL, MPOW and MOUT never report `NoModularInverse`, and MPOW never
`IndexOutOfRange`. -/
def Obligations.ErrorsPerCommand : Prop :=
  ∀ (i : Instr) (s t : State), Sound s → exec i s = .next t → t.status.err = true → t.status.errCode ∈ i.errorCodes

/-! ### Results of the big-integer commands (40_bigint.md, 41_longdiv.md) -/

/-- R138, R132: ADD writes the sum in `max(len)` limbs, one more on carry out; it fails with `CapacityOverflow` when that exceeds `MAX_LIMBS`, and with
`OperandKind` when a source is Mont. -/
def Obligations.AddResult : Prop :=
  ∀ (s : State) (rd ra rb : RegId) (a b : List Limb) (n : Nat),
    ((s.sources.reg ra).kind = .plain ∧ (s.sources.reg rb).kind = .plain →
      (s.sources.reg ra).seq = some a → (s.sources.reg rb).seq = some b →
      n = max a.length b.length + (if val a + val b < base ^ max a.length b.length then 0 else 1) →
      (n ≤ s.cfg.maxLimbs → exec (.add rd ra rb) s = .next (s.wrote rd (BigReg.plain (limbs n (val a + val b))))) ∧
      (s.cfg.maxLimbs < n → exec (.add rd ra rb) s = .next (s.failed 0x09))) ∧
    ((s.sources.reg ra).kind = .mont ∨ (s.sources.reg rb).kind = .mont → exec (.add rd ra rb) s = .next (s.failed 0x02))

/-- R139, R133: SUB writes the difference in the minuend's limbs; it fails with `Underflow` exactly when the subtrahend is larger, and with
`OperandKind` when a source is Mont. -/
def Obligations.SubResult : Prop :=
  ∀ (s : State) (rd ra rb : RegId) (a b : List Limb),
    ((s.sources.reg ra).kind = .plain ∧ (s.sources.reg rb).kind = .plain →
      (s.sources.reg ra).seq = some a → (s.sources.reg rb).seq = some b →
      (val b ≤ val a → exec (.sub rd ra rb) s = .next (s.wrote rd (BigReg.plain (limbs a.length (val a - val b))))) ∧
      (val a < val b → exec (.sub rd ra rb) s = .next (s.failed 0x03))) ∧
    ((s.sources.reg ra).kind = .mont ∨ (s.sources.reg rb).kind = .mont → exec (.sub rd ra rb) s = .next (s.failed 0x02))

/-- R140, R134: MUL writes the product in `len(a) + len(b)` limbs, or the empty value if an operand is empty; it fails with `CapacityOverflow` by
lengths, and with `OperandKind` when a source is Mont. -/
def Obligations.MulResult : Prop :=
  ∀ (s : State) (rd ra rb : RegId) (a b : List Limb) (n : Nat),
    ((s.sources.reg ra).kind = .plain ∧ (s.sources.reg rb).kind = .plain →
      (s.sources.reg ra).seq = some a → (s.sources.reg rb).seq = some b →
      n = (if a = [] ∨ b = [] then 0 else a.length + b.length) →
      (n ≤ s.cfg.maxLimbs → exec (.mul rd ra rb) s = .next (s.wrote rd (BigReg.plain (limbs n (val a * val b))))) ∧
      (s.cfg.maxLimbs < n → exec (.mul rd ra rb) s = .next (s.failed 0x09))) ∧
    ((s.sources.reg ra).kind = .mont ∨ (s.sources.reg rb).kind = .mont → exec (.mul rd ra rb) s = .next (s.failed 0x02))

/-- R171, R172: DIVMOD writes quotient and remainder of floor division, each in the dividend's limb count; it fails with `DivideByZero` for a zero
divisor of any length, and with `OperandKind` when a source is Mont. -/
def Obligations.DivmodResult : Prop :=
  ∀ (s : State) (rd rc ra rb : RegId) (a b : List Limb), rd ≠ rc →
    ((s.sources.reg ra).kind = .plain ∧ (s.sources.reg rb).kind = .plain →
      (s.sources.reg ra).seq = some a → (s.sources.reg rb).seq = some b →
      (val b ≠ 0 → exec (.divmod rd rc ra rb) s = .next { s with
        regs := (s.regs.set rd.val (BigReg.plain (limbs a.length (val a / val b))) rd.isLt).set rc.val
          (BigReg.plain (limbs a.length (val a % val b))) rc.isLt,
        status := { s.status with err := false, errCode := 0 }, flight := none }) ∧
      (val b = 0 → exec (.divmod rd rc ra rb) s = .next (s.failed 0x04))) ∧
    ((s.sources.reg ra).kind = .mont ∨ (s.sources.reg rb).kind = .mont →
      exec (.divmod rd rc ra rb) s = .next (s.failed 0x02))

/-- R141, R40: CMP writes `STATUS.CMP` by the order of the values, whatever the lengths, and no register; it fails with `OperandKind`, leaving `CMP`, when
a source is Mont. -/
def Obligations.CmpResult : Prop :=
  ∀ (s : State) (ra rb : RegId) (a b : List Limb),
    ((s.sources.reg ra).kind = .plain ∧ (s.sources.reg rb).kind = .plain →
      (s.sources.reg ra).seq = some a → (s.sources.reg rb).seq = some b →
      exec (.cmp ra rb) s = .next { s with
        status := { s.status with
          cmp := if val a < val b then 0b01 else if val b < val a then 0b10 else 0b00, err := false, errCode := 0 },
        flight := none }) ∧
    ((s.sources.reg ra).kind = .mont ∨ (s.sources.reg rb).kind = .mont → exec (.cmp ra rb) s = .next (s.failed 0x02))

/-- R142: TRIM writes the canonical sequence of the value; it fails with `OperandKind` when the source is Mont. -/
def Obligations.TrimResult : Prop :=
  ∀ (s : State) (rd ra : RegId) (a : List Limb),
    ((s.sources.reg ra).kind = .plain → (s.sources.reg ra).seq = some a →
      canonical (canon (val a)) = true ∧ exec (.trim rd ra) s = .next (s.wrote rd (BigReg.plain (canon (val a))))) ∧
    ((s.sources.reg ra).kind = .mont → exec (.trim rd ra) s = .next (s.failed 0x02))

/-- R143: MOV copies the value, the length, the kind and the tag; the cells from `LEN` on become unspecified. -/
def Obligations.MovResult : Prop :=
  ∀ (s : State) (rd ra : RegId) (a : List Limb), (s.sources.reg ra).seq = some a →
    ((s.sources.reg ra).kind = .plain → exec (.mov rd ra) s = .next (s.wrote rd ⟨a.length, a.map some, .plain, 0⟩)) ∧
    ((s.sources.reg ra).kind = .mont →
      exec (.mov rd ra) s = .next (s.wrote rd ⟨a.length, a.map some, .mont, (s.sources.reg ra).tag⟩))

/-- R33, U2, R307: every command whose operands pass the checks that read no limb, and one of whose sources has an unspecified limb below `LEN`,
is refused, naming a source that has one. That the refusal comes after those checks is the model's reading (log 8); that it comes when the command
would complete, and not when its word is accepted, is the model's choice (log 26). -/
def Obligations.UnspecifiedLimbIsRefused : Prop :=
  ∀ (s : State) (ra rb : RegId),
    ((s.sources.reg ra).kind = .plain ∧ (s.sources.reg rb).kind = .plain →
      (s.sources.reg ra).seq = none ∨ (s.sources.reg rb).seq = none →
      ∀ i : Instr, (∃ rd rc, i = .add rd ra rb ∨ i = .sub rd ra rb ∨ i = .mul rd ra rb ∨ i = .divmod rd rc ra rb ∨
        i = .cmp ra rb) →
      ∃ r, (r = ra ∨ r = rb) ∧ (s.sources.reg r).seq = none ∧ exec i s = .refused (.unspecifiedLimb r)) ∧
    ((s.sources.reg ra).kind = .plain → (s.sources.reg ra).seq = none →
      ∀ i : Instr, (∃ rd ctx, i = .trim rd ra ∨ i = .mctx ctx ra) → exec i s = .refused (.unspecifiedLimb ra)) ∧
    ((s.sources.reg ra).seq = none → ∀ rd, exec (.mov rd ra) s = .refused (.unspecifiedLimb ra)) ∧
    ((s.sources.reg ra).kind = .plain → (s.sources.reg ra).seq = none →
      ∀ rd ctx, s.sources.slot ctx ≠ none → exec (.mconv rd ra ctx) s = .refused (.unspecifiedLimb ra)) ∧
    ((s.sources.reg ra).kind = .mont ∧ (s.sources.reg rb).kind = .mont →
      (s.sources.reg ra).tag = (s.sources.reg rb).tag → (∃ c, some c ∈ s.sources.slots ∧ c.id = (s.sources.reg ra).tag) →
      (s.sources.reg ra).seq = none ∨ (s.sources.reg rb).seq = none →
      ∀ rd, ∃ r, (r = ra ∨ r = rb) ∧ (s.sources.reg r).seq = none ∧ exec (.mmul rd ra rb) s = .refused (.unspecifiedLimb r)) ∧
    ((s.sources.reg ra).kind = .mont ∧ (s.sources.reg rb).kind = .plain →
      (∃ c, some c ∈ s.sources.slots ∧ c.id = (s.sources.reg ra).tag) →
      (s.sources.reg ra).seq = none ∨ (s.sources.reg rb).seq = none →
      ∀ rd, ∃ r, (r = ra ∨ r = rb) ∧ (s.sources.reg r).seq = none ∧ exec (.mpow rd ra rb) s = .refused (.unspecifiedLimb r)) ∧
    ((s.sources.reg ra).kind = .mont → (∃ c, some c ∈ s.sources.slots ∧ c.id = (s.sources.reg ra).tag) →
      (s.sources.reg ra).seq = none → ∀ rd, exec (.mout rd ra) s = .refused (.unspecifiedLimb ra))

/-! ### Results of the Montgomery commands (42_montgomery.md, 43_exponent.md) -/

/-- R196, R37, R38: MCTX writes the slot with the trimmed modulus, its length, `B^(2L) mod N`, the parity of `N` and, for odd `N`, the `NINV` that makes
`N₀·NINV + 1` a multiple of `B`, under the id `GEN`, and moves `GEN` on; for even `N` nothing is said of `NINV`. It fails with `DivideByZero` for a zero
modulus and with `OperandKind` for a Mont one, and is refused where the id would wrap. -/
def Obligations.MctxResult : Prop :=
  ∀ (s : State) (ctx : SlotId) (ra : RegId) (a : List Limb),
    ((s.sources.reg ra).kind = .plain → (s.sources.reg ra).seq = some a →
      (val a ≠ 0 → s.sources.gen ≠ 0xFFFFFFFF#32 → ∃ m : Limb,
        (val a % 2 = 1 → (val a % base * m.toNat + 1) % base = 0) ∧
        exec (.mctx ctx ra) s = .next { s with
          slots := s.slots.set ctx.val (some ⟨s.sources.gen, canon (val a), (canon (val a)).length,
            base ^ (2 * (canon (val a)).length) % val a, decide (val a % 2 = 1), m⟩),
          gen := s.gen + 1,
          status := { s.status with err := false, errCode := 0 }, flight := none }) ∧
      (val a ≠ 0 → s.sources.gen = 0xFFFFFFFF#32 → exec (.mctx ctx ra) s = .refused .idWrap) ∧
      (val a = 0 → exec (.mctx ctx ra) s = .next (s.failed 0x04))) ∧
    ((s.sources.reg ra).kind = .mont → exec (.mctx ctx ra) s = .next (s.failed 0x02))

/-- R197, R195: under a slot as R37 says, MCONV writes `x·R mod N`, `R = B^L`, canonical, with the slot's id as tag, for every `x`; an even `N` gives
`NoModularInverse`, an empty slot `ContextInvalid`, a Mont source `OperandKind`. -/
def Obligations.MconvResult : Prop :=
  ∀ (s : State) (rd ra : RegId) (ctx : SlotId) (a : List Limb),
    ((s.sources.reg ra).kind = .plain → (s.sources.reg ra).seq = some a →
      ∀ c, s.sources.slot ctx = some c → ContextOk s.cfg s.sources.gen c →
        (val c.n % 2 = 1 →
          exec (.mconv rd ra ctx) s = .next (s.wrote rd (BigReg.mont (canon (val a * base ^ c.l % val c.n)) c.id))) ∧
        (val c.n % 2 = 0 → exec (.mconv rd ra ctx) s = .next (s.failed 0x05))) ∧
    ((s.sources.reg ra).kind = .plain → s.sources.slot ctx = none → exec (.mconv rd ra ctx) s = .next (s.failed 0x08)) ∧
    ((s.sources.reg ra).kind = .mont → exec (.mconv rd ra ctx) s = .next (s.failed 0x02))

/-- R198, R195: MMUL of two values of one live context with odd `N` writes the canonical residue `r` with `r·R ≡ a·b (mod N)`, with the same tag; different
tags give `ModulusMismatch`, a tag no live slot has gives `ContextInvalid`, a Plain source `OperandKind`. -/
def Obligations.MmulResult : Prop :=
  ∀ (s : State) (rd ra rb : RegId) (a b : List Limb),
    ((s.sources.reg ra).kind = .mont ∧ (s.sources.reg rb).kind = .mont →
      (s.sources.reg ra).tag = (s.sources.reg rb).tag → (s.sources.reg ra).seq = some a → (s.sources.reg rb).seq = some b →
      SlotsOk s.cfg s.sources.gen s.sources.slots →
      ∀ (j : Nat) (c : Context), s.sources.slots[j]? = some (some c) → c.id = (s.sources.reg ra).tag → val c.n % 2 = 1 →
        ∃ r, r < val c.n ∧ r * base ^ c.l % val c.n = val a * val b % val c.n ∧
          exec (.mmul rd ra rb) s = .next (s.wrote rd (BigReg.mont (canon r) (s.sources.reg ra).tag))) ∧
    ((s.sources.reg ra).kind = .mont ∧ (s.sources.reg rb).kind = .mont →
      (s.sources.reg ra).tag ≠ (s.sources.reg rb).tag → exec (.mmul rd ra rb) s = .next (s.failed 0x06)) ∧
    ((s.sources.reg ra).kind = .mont ∧ (s.sources.reg rb).kind = .mont →
      (s.sources.reg ra).tag = (s.sources.reg rb).tag → (∀ c, some c ∈ s.sources.slots → c.id ≠ (s.sources.reg ra).tag) →
      exec (.mmul rd ra rb) s = .next (s.failed 0x08)) ∧
    ((s.sources.reg ra).kind = .plain ∨ (s.sources.reg rb).kind = .plain → exec (.mmul rd ra rb) s = .next (s.failed 0x02))

/-- R199, R195: MOUT of a value of a live context with odd `N` writes the canonical residue `r` with `r·R ≡ a (mod N)`, Plain; a tag no live slot has gives
`ContextInvalid`, a Plain source `OperandKind`. -/
def Obligations.MoutResult : Prop :=
  ∀ (s : State) (rd ra : RegId) (a : List Limb),
    ((s.sources.reg ra).kind = .mont → (s.sources.reg ra).seq = some a → SlotsOk s.cfg s.sources.gen s.sources.slots →
      ∀ (j : Nat) (c : Context), s.sources.slots[j]? = some (some c) → c.id = (s.sources.reg ra).tag → val c.n % 2 = 1 →
        ∃ r, r < val c.n ∧ r * base ^ c.l % val c.n = val a % val c.n ∧
          exec (.mout rd ra) s = .next (s.wrote rd (BigReg.plain (canon r)))) ∧
    ((s.sources.reg ra).kind = .mont → (∀ c, some c ∈ s.sources.slots → c.id ≠ (s.sources.reg ra).tag) →
      exec (.mout rd ra) s = .next (s.failed 0x08)) ∧
    ((s.sources.reg ra).kind = .plain → exec (.mout rd ra) s = .next (s.failed 0x02))

/-- R238, R239: MPOW of the Montgomery form of `x` writes the Montgomery form of `x^e mod N`, whatever the window sizes (at least 1) and the exponent's high
zero limbs; a tag no live slot has gives `ContextInvalid`, a Plain base or a Mont exponent `OperandKind`. -/
def Obligations.MpowResult : Prop :=
  ∀ (s : State) (rd ra rb : RegId) (a e : List Limb),
    ((s.sources.reg ra).kind = .mont ∧ (s.sources.reg rb).kind = .plain →
      (s.sources.reg ra).seq = some a → (s.sources.reg rb).seq = some e → (∀ n, 1 ≤ windowSize s.cfg n) →
      SlotsOk s.cfg s.sources.gen s.sources.slots →
      ∀ (j : Nat) (c : Context) (x : Nat), s.sources.slots[j]? = some (some c) → c.id = (s.sources.reg ra).tag →
        val c.n % 2 = 1 → val a = x * base ^ c.l % val c.n →
        exec (.mpow rd ra rb) s =
          .next (s.wrote rd (BigReg.mont (canon (x ^ val e * base ^ c.l % val c.n)) (s.sources.reg ra).tag))) ∧
    ((s.sources.reg ra).kind = .mont ∧ (s.sources.reg rb).kind = .plain →
      (∀ c, some c ∈ s.sources.slots → c.id ≠ (s.sources.reg ra).tag) →
      exec (.mpow rd ra rb) s = .next (s.failed 0x08)) ∧
    ((s.sources.reg ra).kind = .plain ∨ (s.sources.reg rb).kind = .mont → exec (.mpow rd ra rb) s = .next (s.failed 0x02))

/-- R195: converting in and out again gives `x mod N`, for every `x` and every odd `N`, through any two registers. The MOUT runs on
the idle state that the MCONV leaves, where reading the registers as they stand is the model's choice (log 22). -/
def Obligations.MontgomeryRoundTrip : Prop :=
  ∀ (s : State) (rd ra rq : RegId) (ctx : SlotId) (a : List Limb) (c : Context),
    (s.sources.reg ra).kind = .plain → (s.sources.reg ra).seq = some a → s.sources.slot ctx = some c →
    s.sources.slots = s.slots → SlotsOk s.cfg s.sources.gen s.sources.slots → val c.n % 2 = 1 →
    ∃ t u, exec (.mconv rd ra ctx) s = .next t ∧ exec (.mout rq rd) t = .next u ∧
      u.reg rq = BigReg.plain (canon (val a % val c.n))

/-- R239, R231: what MPOW computes does not depend on the window sizes, as long as they are at least 1. -/
def Obligations.MpowIndependentOfWindowSize : Prop :=
  ∀ (cfg cfg' own : Config) (gen : Word) (c : Context) (x : Nat) (e : List Limb),
    (∀ n, 1 ≤ windowSize cfg n) → (∀ n, 1 ≤ windowSize cfg' n) → ContextOk own gen c → x < val c.n →
    mpowCore cfg c x e = mpowCore cfg' c x e

/-- R237, R281: the table index check of MPOW never fires, in any state, for window sizes of at least 1. -/
def Obligations.IndexOutOfRangeNeverFires : Prop :=
  ∀ (s t : State) (rd ra rb : RegId), (∀ n, 1 ≤ windowSize s.cfg n) → exec (.mpow rd ra rb) s = .next t →
    t.status.errCode ≠ 0x07

/-- R231: the reference window size is the smallest `k ≥ 1` whose bound reaches `n`. The bound's formula is general knowledge (G1, log 4). -/
def Obligations.ReferenceWindowSizeIsLeast : Prop :=
  ∀ n : Nat, 1 ≤ windowRef n ∧ n ≤ windowBound (windowRef n) ∧ ∀ k, 1 ≤ k → k < windowRef n → windowBound k < n

/-- R235: the window whose top bit is `i` goes down at most `k − 1` further bits, its low end is the lowest of those positions that holds a 1, its value is
the exponent's bits from `i` to that end, odd and below `2^k`; a BitCursor that extends forward and trims backward forms the same window. -/
def Obligations.CursorFormsTheWindow : Prop :=
  ∀ (e : List Limb) (i k lo w : Nat), bit e i = true → 1 ≤ k → window e i k = (lo, w) →
    i - (k - 1) ≤ lo ∧ lo ≤ i ∧ bit e lo = true ∧ (∀ j, i - (k - 1) ≤ j → j < lo → bit e j = false) ∧
    w = val e / 2 ^ lo % 2 ^ (i - lo + 1) ∧ w % 2 = 1 ∧ w < 2 ^ k ∧ cursorWindow e i k = (lo, w)

/-- R233: a new cursor has accumulator 0 and stands at the most significant set bit, or at −1 for the value 0, where it is finished; a backward
step after a forward step gives back the cursor. -/
def Obligations.CursorSteps : Prop :=
  (∀ s : List Limb, val s = 0 → (BitCursor.new s).pos = -1 ∧ (BitCursor.new s).acc = 0 ∧ (BitCursor.new s).isFinished = true) ∧
  (∀ s : List Limb, val s ≠ 0 → (BitCursor.new s).pos = (Nat.log2 (val s) : Int) ∧ (BitCursor.new s).acc = 0 ∧
    (BitCursor.new s).isFinished = false) ∧
  (∀ (s : List Limb) (c : BitCursor), (c.forward s).backward = c)

/-! ### Host accesses (20_memory.md, 10_state.md) -/

/-- R39: the layout of `STATUS`; the reserved bits read as 0. -/
def Obligations.StatusLayout : Prop :=
  ∀ s : State,
    s.statusWord.getLsbD 0 = s.flight.isSome ∧ s.statusWord.getLsbD 1 = s.status.err ∧
    s.statusWord.getLsbD 2 = s.status.accErr ∧ s.statusWord.extractLsb' 3 2 = s.status.cmp ∧
    s.statusWord.extractLsb' 5 3 = 0#3 ∧ s.statusWord.extractLsb' 8 8 = s.status.errCode ∧
    s.statusWord.extractLsb' 16 16 = 0#16

/-- R74: a read of `STATUS` returns its word; a write clears `ACCERR` if bit 2 of the written word is 1 and changes nothing else, busy or not. -/
def Obligations.StatusRegister : Prop :=
  ∀ (s : State) (v : Word) (rest : List Input), s.lost = false →
    (s.inputs = .read (s.cfg.blockBase + 4) 4 :: rest →
      step s = .next { s with inputs := rest, reply := some s.statusWord }) ∧
    (s.inputs = .write (s.cfg.blockBase + 4) 4 v :: rest →
      step s = .next { s with
        inputs := rest,
        status := { s.status with accErr := if v.getLsbD 2 then false else s.status.accErr } })

/-- R43, R42, R38: `CONFIG`, `ERRCMD` and `GEN` as the host reads them, busy or not. -/
def Obligations.ControlPageReads : Prop :=
  ∀ (s : State) (rest : List Input), s.lost = false → ConfigOk s.cfg →
    (s.inputs = .read (s.cfg.blockBase + 0x008) 4 :: rest →
      step s = .next { s with inputs := rest, reply := some s.errCmd }) ∧
    (s.inputs = .read (s.cfg.blockBase + 0x010) 4 :: rest →
      step s = .next { s with inputs := rest, reply := some s.gen }) ∧
    (s.inputs = .read (s.cfg.blockBase + 0x00C) 4 :: rest →
      ∃ w : Word, step s = .next { s with inputs := rest, reply := some w } ∧
        (w.extractLsb' 0 11).toNat = s.cfg.maxLimbs ∧ w.extractLsb' 11 5 = 0#5 ∧ (w.extractLsb' 16 5).toNat = 16 ∧
        w.extractLsb' 21 3 = 0#3 ∧ (w.extractLsb' 24 5).toNat = s.cfg.nctx ∧ w.extractLsb' 29 3 = 0#3)

/-- R44: the four read-only words of `CTXINFO[c]`, all 0 while the slot is empty; a write to one sets `ACCERR` and changes nothing else. -/
def Obligations.CtxInfoWords : Prop :=
  ∀ (s : State) (v : Word) (rest : List Input) (c k : Nat), s.lost = false → ConfigOk s.cfg → c < s.cfg.nctx → k < 4 →
    SlotsOk s.cfg s.gen s.slots →
    (s.inputs = .read (s.cfg.blockBase + (0x100 + 0x10 * c + 4 * k)) 4 :: rest →
      ∃ w : Word, step s = .next { s with inputs := rest, reply := some w } ∧
        (s.slots[c]? = some none → w = 0) ∧
        (∀ x : Context, s.slots[c]? = some (some x) →
          (k = 0 → w = if x.n0odd then 3#32 else 1#32) ∧ (k = 1 → w = x.id) ∧ (k = 2 → w.toNat = x.l) ∧
          (k = 3 → w = 0))) ∧
    (s.inputs = .write (s.cfg.blockBase + (0x100 + 0x10 * c + 4 * k)) 4 v :: rest →
      step s = .next { s with inputs := rest, status := { s.status with accErr := true } })

/-- R76: `LEN`. A read returns it; a write up to `MAX_LIMBS` sets it, makes the register Plain and changes no limb cell; a larger value, or a write while
busy, is ignored and sets `ACCERR`. -/
def Obligations.LenRegister : Prop :=
  ∀ (s : State) (r : RegId) (v : Word) (rest : List Input), s.lost = false →
    (s.flight = none → s.inputs = .read (s.cfg.blockBase + 0x1000 * (r.val + 1)) 4 :: rest →
      ∃ d, step s = .next { s with inputs := rest, reply := some (BitVec.ofNat 32 (s.reg r).len), draws := d }) ∧
    (s.flight = none → s.inputs = .write (s.cfg.blockBase + 0x1000 * (r.val + 1)) 4 v :: rest →
      v.toNat ≤ s.cfg.maxLimbs → step s = .next { s with
        inputs := rest
        regs := s.regs.set r.val { len := v.toNat, mem := (s.reg r).mem, kind := .plain, tag := 0 } r.isLt }) ∧
    (s.inputs = .write (s.cfg.blockBase + 0x1000 * (r.val + 1)) 4 v :: rest →
      s.cfg.maxLimbs < v.toNat ∨ s.flight ≠ none →
      step s = .next { s with inputs := rest, status := { s.status with accErr := true } })

/-- R77: limb words. A read while idle returns the two cells, the lower-numbered one in bits 15:0, each half exactly where its cell is specified; a write
while idle sets the two cells, leaves every other cell, `LEN` and every other register, and makes the register Plain. -/
def Obligations.LimbWords : Prop :=
  ∀ (s : State) (r : RegId) (j : Nat) (v : Word) (rest : List Input), s.lost = false → ConfigOk s.cfg →
    j < s.cfg.maxLimbs / 2 → s.flight = none →
    (s.inputs = .read (s.cfg.blockBase + (0x1000 * (r.val + 1) + 0x800 + 4 * j)) 4 :: rest →
      ∃ (d : Nat) (w : Word), step s = .next { s with inputs := rest, reply := some w, draws := d } ∧
        (∀ x : Limb, Memory.read (s.reg r).mem (2 * j) = some x → w.extractLsb' 0 16 = x) ∧
        (∀ x : Limb, Memory.read (s.reg r).mem (2 * j + 1) = some x → w.extractLsb' 16 16 = x)) ∧
    (s.inputs = .write (s.cfg.blockBase + (0x1000 * (r.val + 1) + 0x800 + 4 * j)) 4 v :: rest →
      ∃ m : Memory, step s = .next { s with
          inputs := rest
          regs := s.regs.set r.val { len := (s.reg r).len, mem := m, kind := .plain, tag := 0 } r.isLt } ∧
        Memory.read m (2 * j) = some (v.extractLsb' 0 16) ∧ Memory.read m (2 * j + 1) = some (v.extractLsb' 16 16) ∧
        ∀ i, i ≠ 2 * j → i ≠ 2 * j + 1 → Memory.read m i = Memory.read (s.reg r).mem i)

/-- R77, R76, R109: the host loads a value by its writes of `LEN` and of every limb word, in any order: afterwards the register is Plain and holds
exactly those limbs, and nothing else of an idle block has changed. -/
def Obligations.HostLoadsAValue : Prop :=
  ∀ (s : State) (r : RegId) (a : List Limb), s.lost = false → ConfigOk s.cfg → s.flight = none → a.length ≤ s.cfg.maxLimbs →
    s.inputs.Perm (wlen s.cfg r a.length ++ wlimbs s.cfg r a) →
    ∃ (v : BigReg) (t : State), Host.Core.run Sys2Proof.core s.inputs.length s = .next t ∧ v.seq = some a ∧ v.kind = .plain ∧ v.tag = 0 ∧
      t = { s with inputs := [], regs := s.regs.set r.val v r.isLt }

/-- R78: `KIND` and `TAG` read as 0 or 1 and as the tag; a write to either is ignored and sets `ACCERR`. -/
def Obligations.KindAndTagRegisters : Prop :=
  ∀ (s : State) (r : RegId) (v : Word) (rest : List Input), s.lost = false →
    (s.flight = none → s.inputs = .read (s.cfg.blockBase + (0x1000 * (r.val + 1) + 4)) 4 :: rest →
      ∃ d, step s = .next { s with
        inputs := rest, reply := some (if (s.reg r).kind = .mont then 1#32 else 0#32), draws := d }) ∧
    (s.flight = none → s.inputs = .read (s.cfg.blockBase + (0x1000 * (r.val + 1) + 8)) 4 :: rest →
      ∃ d, step s = .next { s with inputs := rest, reply := some (s.reg r).tag, draws := d }) ∧
    (s.inputs = .write (s.cfg.blockBase + (0x1000 * (r.val + 1) + 4)) 4 v :: rest ∨
      s.inputs = .write (s.cfg.blockBase + (0x1000 * (r.val + 1) + 8)) 4 v :: rest →
      step s = .next { s with inputs := rest, status := { s.status with accErr := true } })

/-- R79, R81, R82: a write to `ERRCMD`, `CONFIG`, `GEN`, `CTXINFO` or an unmapped offset is ignored and sets `ACCERR`, busy or not; an unmapped offset of the control
page, or of a register window while idle, reads as 0. -/
def Obligations.ReadOnlyAndUnmapped : Prop :=
  ∀ (s : State) (off : Nat) (v : Word) (rest : List Input), s.lost = false → ConfigOk s.cfg → off % 4 = 0 → off < 0x11000 →
    (s.inputs = .write (s.cfg.blockBase + off) 4 v :: rest →
      (8 ≤ off ∧ off < 0x1000) ∨ (0x1000 ≤ off ∧ 0xC ≤ off % 0x1000 ∧ off % 0x1000 < 0x800) ∨
        (0x1000 ≤ off ∧ 0x800 + 2 * s.cfg.maxLimbs ≤ off % 0x1000) →
      step s = .next { s with inputs := rest, status := { s.status with accErr := true } }) ∧
    (s.inputs = .read (s.cfg.blockBase + off) 4 :: rest →
      (0x14 ≤ off ∧ off < 0x100) ∨ (0x100 + 0x10 * s.cfg.nctx ≤ off ∧ off < 0x1000) →
      step s = .next { s with inputs := rest, reply := some 0 }) ∧
    (s.inputs = .read (s.cfg.blockBase + off) 4 :: rest → s.flight = none → 0x1000 ≤ off →
      (0xC ≤ off % 0x1000 ∧ off % 0x1000 < 0x800) ∨ 0x800 + 2 * s.cfg.maxLimbs ≤ off % 0x1000 →
      ∃ d, step s = .next { s with inputs := rest, reply := some 0, draws := d })

/-- R80, R81, R84, R86: while busy, a host access in the window changes neither the command in flight nor any register, slot, `GEN`, `CMP`, `ERR`, `ERRCODE`,
`LASTCMD` or `ERRCMD`; a write to `CMD` or a register window only sets `ACCERR`. -/
def Obligations.BusyBlockKeepsItsCommand : Prop :=
  ∀ (s t : State) (i : Input) (rest : List Input), s.lost = false → s.flight ≠ none → s.inputs = i :: rest → step s = .next t →
    ((∃ addr width, i = .read addr width) ∨ (∃ addr width v, i = .write addr width v) →
      t.flight = s.flight ∧ t.regs = s.regs ∧ t.slots = s.slots ∧ t.gen = s.gen ∧ t.lastCmd = s.lastCmd ∧
      t.errCmd = s.errCmd ∧ t.status.err = s.status.err ∧ t.status.errCode = s.status.errCode ∧
      t.status.cmp = s.status.cmp) ∧
    (∀ off v, i = .write (s.cfg.blockBase + off) 4 v → off = 0 ∨ 0x1000 ≤ off →
      t = { s with inputs := rest, status := { s.status with accErr := true } })

/-- R71, R70: an access in the window that is not an aligned 32-bit one is refused; an address outside the window faults, which is the model's choice (log 12). -/
def Obligations.BadAccessesStop : Prop :=
  ∀ (s : State) (addr width : Nat) (v : Word) (rest : List Input), s.lost = false →
    (s.inputs = .read addr width :: rest ∨ s.inputs = .write addr width v :: rest →
      (s.cfg.blockBase ≤ addr ∧ addr < s.cfg.blockBase + 0x11000 → width ≠ 4 ∨ (addr - s.cfg.blockBase) % 4 ≠ 0 →
        step s = .refused (.accessForm addr width)) ∧
      (addr < s.cfg.blockBase ∨ s.cfg.blockBase + 0x11000 ≤ addr → step s = .fault (.outsideWindow addr)))

/-- R85: no read has a side effect: a served read changes only the word returned and the model's count of free values. -/
def Obligations.ReadsHaveNoSideEffect : Prop :=
  ∀ (s t : State) (addr width : Nat) (rest : List Input), s.lost = false → s.inputs = .read addr width :: rest →
    step s = .next t → t = { s with inputs := rest, reply := t.reply, draws := t.draws }

/-! ### Whole-machine rules and reset -/

/-- R35: a register becomes Mont, or changes as a Mont register, only by MCONV, MMUL, MPOW or MOV writing it. -/
def Obligations.MontOnlyByMontCommands : Prop :=
  ∀ (s t : State) (r : RegId), Sound s → s.lost = false → step s = .next t → t.lost = false → (t.reg r).kind = .mont →
    t.reg r = s.reg r ∨ ∃ i, s.current = some i ∧ i.mayWriteMont = true ∧ r ∈ i.dests

/-- R38: `GEN` changes only when an MCTX completes, by one and without wrapping, or at reset, to 0. -/
def Obligations.GenOnlyByMctx : Prop :=
  ∀ (s t : State), Sound s → s.lost = false → step s = .next t → t.lost = false →
    t.gen = s.gen ∨
    (∃ ctx ra, s.current = some (.mctx ctx ra) ∧ t.gen = s.gen + 1 ∧ s.gen.toNat + 1 < 2 ^ 32) ∨
    (s.inputs.head? = some .reset ∧ t.gen = 0)

/-- R40: `STATUS.CMP` changes only when a CMP completes without error, or at reset. -/
def Obligations.CmpOnlyByCmp : Prop :=
  ∀ (s t : State), Sound s → s.lost = false → step s = .next t → t.lost = false →
    t.status.cmp = s.status.cmp ∨ (∃ ra rb, s.current = some (.cmp ra rb) ∧ t.status.err = false) ∨
    s.inputs.head? = some .reset

/-- R49: the build parameters are fixed: no step changes them, from any state. -/
def Obligations.ParametersNeverChange : Prop :=
  ∀ s t : State, step s = .next t → t.cfg = s.cfg

/-- R48: the state after reset, every register, slot and status field at the value the spec gives. -/
def Obligations.ResetValues : Prop :=
  (∀ r : RegId, (State.reset.reg r).len = 0 ∧ (State.reset.reg r).kind = .plain ∧ (State.reset.reg r).tag = 0 ∧
    ∀ i, Memory.read (State.reset.reg r).mem i = none) ∧
  State.reset.slots.length = State.reset.cfg.nctx ∧ (∀ c, some c ∉ State.reset.slots) ∧
  (∀ c k, ctxInfo (State.reset.slots.getD c none) k = 0) ∧
  State.reset.gen = 0 ∧ State.reset.statusWord = 0 ∧ State.reset.lastCmd = 0 ∧ State.reset.errCmd = 0 ∧
  State.reset.flight = none ∧ configWord State.reset.cfg = 0x04100100#32

/-- R290, R291: reset, at any time, busy or not, gives the state of R48 whatever command was running. -/
def Obligations.ResetAtAnyTime : Prop :=
  ∀ (s : State) (rest : List Input), s.inputs = .reset :: rest →
    ∃ t, step s = .next t ∧
      (∀ r : RegId, t.reg r = { len := 0, mem := [], kind := .plain, tag := 0 }) ∧
      t.slots = List.replicate s.cfg.nctx none ∧ t.gen = 0 ∧ t.statusWord = 0 ∧
      t.lastCmd = 0 ∧ t.errCmd = 0 ∧ t.flight = none ∧ t.lost = false

/-- R277, U16: a block that lost power stays lost until reset, whatever arrives. That such a block still takes its inputs one by one, and that a
flag says it is lost, is the model's choice (log 20). -/
def Obligations.LostUntilReset : Prop :=
  ∀ s : State, s.lost = true ∧ s.inputs.head? ≠ some .reset →
    ∃ t, step s = .next t ∧ t.lost = true ∧ t.cfg = s.cfg ∧ t.inputs = s.inputs.tail

/-! ### The invariant -/

/-- The invariant holds after reset. -/
def Obligations.ResetMeetsInvariant : Prop := Inv State.reset

/-- R31, R35 to R41, R46: every step keeps the invariant, from every state that meets it: registers and storage fit and are in canonical form, Plain
registers have tag 0, Mont registers hold canonical values below the odd `N` of their live context, slots are as R37 says with distinct issued ids,
`ERRCODE` is 0 exactly when `ERR` is, `CMP` is never 0b11, and the command in flight runs on what the block still holds. -/
def Obligations.StepKeepsInvariant : Prop :=
  ∀ s t : State, Inv s → step s = .next t → Inv t

/-! ### The engine step by step -/

/-- R46, R234 to R240, R193, R170: whenever the engine's steps end, they end with the outcome of the command's meaning: repeated subtraction, REDC
iteration by iteration, the table entry by entry and the scan with BitCursor windows give what `exec` gives. What one engine step does is the
model's choice (log 18). -/
def Obligations.EngineStepsGiveTheResult : Prop :=
  ∀ (cfg : Config) (i : Instr) (x : Snapshot) (n : Nat) (r : CmdResult), (∀ b, 1 ≤ windowSize cfg b) →
    Scratch.advanceN cfg i x n .start = .done r → r = result cfg i x

/-- R310: every command completes after a finite number of engine steps. What one engine step does is the model's choice (log 18). -/
def Obligations.EngineStepsTerminate : Prop :=
  ∀ (cfg : Config) (i : Instr) (x : Snapshot), (∀ b, 1 ≤ windowSize cfg b) →
    ∃ (n : Nat) (r : CmdResult), Scratch.advanceN cfg i x n .start = .done r

/-- R266: in a block that keeps its invariant, the engine step that completes a command is `exec` of that command. -/
def Obligations.EngineCompletionIsExec : Prop :=
  ∀ (s : State) (f : Flight) (i : Instr) (r : CmdResult) (rest : List Input), Sound s → s.lost = false → s.flight = some f →
    decode s.cfg.nctx f.word = some i → f.scratch = .done r → s.inputs = .engine :: rest →
    step s = exec i { s with inputs := rest }

/-! ### Arithmetic laws -/

/-- R194: REDC gives the canonical residue `r` with `r·R ≡ v (mod N)`, for every `v`; the loop's accumulator is already congruent to `v·B^(−L)`,
and below `N·R` the loop ends below `2N`. -/
def Obligations.RedcValueLaw : Prop :=
  ∀ (cfg : Config) (gen : Word) (c : Context) (v : Nat), ContextOk cfg gen c → val c.n % 2 = 1 →
    (∃ r, redc c v = .ok (canon r) ∧ r < val c.n ∧ r * base ^ c.l % val c.n = v % val c.n) ∧
    redcLoop (val c.n) c.ninv.toNat c.l v * base ^ c.l % val c.n = v % val c.n ∧
    (v < val c.n * base ^ c.l → redcLoop (val c.n) c.ninv.toNat c.l v < 2 * val c.n)

/-- R172: the division identity of the repeated-subtraction algorithm, both results in the dividend's limb count; division by zero never gives a value. -/
def Obligations.DivisionIdentity : Prop :=
  ∀ a b : List Limb,
    (val b = 0 → divmodSeq a b = none) ∧
    (val b ≠ 0 → ∃ q r, divmodSeq a b = some (q, r) ∧ val a = val q * val b + val r ∧ val r < val b ∧
      val q = val a / val b ∧ val r = val a % val b ∧ q.length = a.length ∧ r.length = a.length)
end

