-- ==== Sys2Proof/Laws/Memory.lean ====
section
/-! SUPPORT. The laws of the limb storage (10_state.md R31, R33): reading back what was written, leaving every other cell alone,
keeping the canonical form, and the value of a register that the engine wrote. -/

namespace Sys2Proof.Machine

open Sys2Proof

theorem read_write_self (m : Memory) (i : Nat) (x : Limb) : Memory.read (Memory.write m i x) i = some x := by
  induction i generalizing m with
  | zero => cases m <;> simp [Memory.write, Memory.read]
  | succ i ih =>
    cases m with
    | nil => simpa [Memory.write, Memory.read] using ih []
    | cons c m => simpa [Memory.write, Memory.read] using ih m

theorem read_write_ne (m : Memory) {i j : Nat} (x : Limb) (h : j ≠ i) :
    Memory.read (Memory.write m i x) j = Memory.read m j := by
  induction i generalizing m j with
  | zero => cases m <;> cases j <;> simp_all [Memory.write, Memory.read]
  | succ i ih =>
    cases j with
    | zero => cases m <;> simp [Memory.write, Memory.read]
    | succ j =>
      have hj : j ≠ i := by omega
      cases m with
      | nil => simpa [Memory.write, Memory.read] using ih [] hj
      | cons c m => simpa [Memory.write, Memory.read] using ih m hj

theorem length_write (m : Memory) (i : Nat) (x : Limb) : (Memory.write m i x).length = max m.length (i + 1) := by
  induction i generalizing m with
  | zero => cases m <;> simp [Memory.write]
  | succ i ih => cases m <;> simp [Memory.write, ih]

theorem write_ne_nil (m : Memory) (i : Nat) (x : Limb) : Memory.write m i x ≠ [] := by
  cases i <;> cases m <;> simp [Memory.write]

/-- A write keeps the canonical form. -/
theorem wf_write (m : Memory) (i : Nat) (x : Limb) (h : Memory.wf m = true) : Memory.wf (Memory.write m i x) = true := by
  induction i generalizing m with
  | zero =>
    cases m with
    | nil => simp [Memory.write, Memory.wf]
    | cons c m => cases m <;> simp_all [Memory.write, Memory.wf, List.getLast?_cons_cons]
  | succ i ih =>
    cases m with
    | nil =>
      have := ih [] (by simp [Memory.wf])
      obtain ⟨d, n, hd⟩ := List.exists_cons_of_ne_nil (write_ne_nil [] i x)
      simp only [Memory.write, Memory.wf, hd, List.getLast?_cons_cons] at *
      exact this
    | cons c m =>
      have hm : Memory.wf m = true := by
        cases m with
        | nil => simp [Memory.wf]
        | cons d m => simpa [Memory.wf, List.getLast?_cons_cons] using h
      have := ih m hm
      obtain ⟨d, n, hd⟩ := List.exists_cons_of_ne_nil (write_ne_nil m i x)
      simp only [Memory.write, Memory.wf, hd, List.getLast?_cons_cons] at *
      exact this

/-- What the engine writes is in canonical form. -/
theorem wf_ofSeq (s : List Limb) : Memory.wf (Memory.ofSeq s) = true := by
  simp [Memory.wf, Memory.ofSeq, List.getLast?_map]

theorem readSeq_ofSeq (s : List Limb) : Memory.readSeq (Memory.ofSeq s) s.length = some s := by
  induction s with
  | nil => simp [Memory.ofSeq, Memory.readSeq]
  | cons x xs ih => simp only [Memory.ofSeq] at ih; simp [Memory.ofSeq, Memory.readSeq, ih]

theorem length_readSeq {m : Memory} {n : Nat} {s : List Limb} (h : Memory.readSeq m n = some s) : s.length = n := by
  induction n generalizing m s with
  | zero => cases m <;> simp_all [Memory.readSeq]
  | succ n ih =>
    match m with
    | [] => simp [Memory.readSeq] at h
    | none :: _ => simp [Memory.readSeq] at h
    | some x :: m =>
      simp only [Memory.readSeq, Option.map_eq_some_iff] at h
      obtain ⟨t, ht, rfl⟩ := h
      simp [ih ht]

/-- The cells of a value: the value is specified exactly when every cell below `LEN` is (R33). -/
theorem readSeq_eq_some {m : Memory} {n : Nat} {s : List Limb} :
    Memory.readSeq m n = some s ↔ s.length = n ∧ ∀ i, i < n → Memory.read m i = s[i]? := by
  induction n generalizing m s with
  | zero => cases m <;> simp [Memory.readSeq, eq_comm (a := ([] : List Limb))]
  | succ n ih =>
    match m with
    | [] =>
      simp only [Memory.readSeq, reduceCtorEq, false_iff, not_and, not_forall]
      intro hs
      refine ⟨0, by omega, ?_⟩
      cases s <;> simp_all [Memory.read]
    | none :: m =>
      simp only [Memory.readSeq, reduceCtorEq, false_iff, not_and, not_forall]
      intro hs
      refine ⟨0, by omega, ?_⟩
      cases s <;> simp_all [Memory.read]
    | some x :: m =>
      simp only [Memory.readSeq, Option.map_eq_some_iff]
      constructor
      · rintro ⟨t, ht, rfl⟩
        obtain ⟨h1, h2⟩ := ih.1 ht
        refine ⟨by simp [h1], fun i hi => ?_⟩
        cases i with
        | zero => simp [Memory.read]
        | succ i => simpa [Memory.read] using h2 i (by omega)
      · rintro ⟨h1, h2⟩
        cases s with
        | nil => simp at h1
        | cons y t =>
          have h0 := h2 0 (by omega)
          simp [Memory.read] at h0
          subst h0
          exact ⟨t, ih.2 ⟨by simpa using h1, fun i hi => by simpa [Memory.read] using h2 (i + 1) (by omega)⟩, rfl⟩

@[simp] theorem seq_plain (s : List Limb) : (BigReg.plain s).seq = some s := readSeq_ofSeq s
@[simp] theorem seq_mont (s : List Limb) (t : Word) : (BigReg.mont s t).seq = some s := readSeq_ofSeq s

theorem length_seq {v : BigReg} {s : List Limb} (h : v.seq = some s) : s.length = v.len := length_readSeq h

/-- The reset storage is in canonical form. -/
theorem wf_reset : Memory.wf BigReg.reset.mem = true := by decide

end Sys2Proof.Machine
end

