-- ==== Sys2Proof/Laws/State.lean ====
section
/-! SUPPORT. One lemma per field of `State` for each update of the model, and the accessors after an update; no later proof unfolds a
record update. -/

namespace Sys2Proof.Machine

open Sys2Proof

/-! `State.setReg`: one register. -/

@[simp] theorem State_setReg_regs (s : State) (r : RegId) (v : BigReg) : (s.setReg r v).regs = s.regs.set r.val v r.isLt := rfl
@[simp] theorem State_setReg_slots (s : State) (r : RegId) (v : BigReg) : (s.setReg r v).slots = s.slots := rfl
@[simp] theorem State_setReg_gen (s : State) (r : RegId) (v : BigReg) : (s.setReg r v).gen = s.gen := rfl
@[simp] theorem State_setReg_status (s : State) (r : RegId) (v : BigReg) : (s.setReg r v).status = s.status := rfl
@[simp] theorem State_setReg_lastCmd (s : State) (r : RegId) (v : BigReg) : (s.setReg r v).lastCmd = s.lastCmd := rfl
@[simp] theorem State_setReg_errCmd (s : State) (r : RegId) (v : BigReg) : (s.setReg r v).errCmd = s.errCmd := rfl
@[simp] theorem State_setReg_flight (s : State) (r : RegId) (v : BigReg) : (s.setReg r v).flight = s.flight := rfl
@[simp] theorem State_setReg_cfg (s : State) (r : RegId) (v : BigReg) : (s.setReg r v).cfg = s.cfg := rfl
@[simp] theorem State_setReg_inputs (s : State) (r : RegId) (v : BigReg) : (s.setReg r v).inputs = s.inputs := rfl
@[simp] theorem State_setReg_reply (s : State) (r : RegId) (v : BigReg) : (s.setReg r v).reply = s.reply := rfl
@[simp] theorem State_setReg_draws (s : State) (r : RegId) (v : BigReg) : (s.setReg r v).draws = s.draws := rfl
@[simp] theorem State_setReg_lost (s : State) (r : RegId) (v : BigReg) : (s.setReg r v).lost = s.lost := rfl

/-! `State.wrote`: a command that wrote one register. -/

@[simp] theorem State_wrote_regs (s : State) (r : RegId) (v : BigReg) : (s.wrote r v).regs = s.regs.set r.val v r.isLt := rfl
@[simp] theorem State_wrote_slots (s : State) (r : RegId) (v : BigReg) : (s.wrote r v).slots = s.slots := rfl
@[simp] theorem State_wrote_gen (s : State) (r : RegId) (v : BigReg) : (s.wrote r v).gen = s.gen := rfl
@[simp] theorem State_wrote_status (s : State) (r : RegId) (v : BigReg) : (s.wrote r v).status = { s.status with err := false, errCode := 0 } := rfl
@[simp] theorem State_wrote_lastCmd (s : State) (r : RegId) (v : BigReg) : (s.wrote r v).lastCmd = s.lastCmd := rfl
@[simp] theorem State_wrote_errCmd (s : State) (r : RegId) (v : BigReg) : (s.wrote r v).errCmd = s.errCmd := rfl
@[simp] theorem State_wrote_flight (s : State) (r : RegId) (v : BigReg) : (s.wrote r v).flight = none := rfl
@[simp] theorem State_wrote_cfg (s : State) (r : RegId) (v : BigReg) : (s.wrote r v).cfg = s.cfg := rfl
@[simp] theorem State_wrote_inputs (s : State) (r : RegId) (v : BigReg) : (s.wrote r v).inputs = s.inputs := rfl
@[simp] theorem State_wrote_reply (s : State) (r : RegId) (v : BigReg) : (s.wrote r v).reply = s.reply := rfl
@[simp] theorem State_wrote_draws (s : State) (r : RegId) (v : BigReg) : (s.wrote r v).draws = s.draws := rfl
@[simp] theorem State_wrote_lost (s : State) (r : RegId) (v : BigReg) : (s.wrote r v).lost = s.lost := rfl

/-! `State.fail`: a command that failed. -/

@[simp] theorem State_fail_regs (s : State) (e : ErrKind) : (s.fail e).regs = s.regs := rfl
@[simp] theorem State_fail_slots (s : State) (e : ErrKind) : (s.fail e).slots = s.slots := rfl
@[simp] theorem State_fail_gen (s : State) (e : ErrKind) : (s.fail e).gen = s.gen := rfl
@[simp] theorem State_fail_status (s : State) (e : ErrKind) : (s.fail e).status = { s.status with err := true, errCode := e.code } := rfl
@[simp] theorem State_fail_lastCmd (s : State) (e : ErrKind) : (s.fail e).lastCmd = s.lastCmd := rfl
@[simp] theorem State_fail_errCmd (s : State) (e : ErrKind) : (s.fail e).errCmd = s.lastCmd := rfl
@[simp] theorem State_fail_flight (s : State) (e : ErrKind) : (s.fail e).flight = none := rfl
@[simp] theorem State_fail_cfg (s : State) (e : ErrKind) : (s.fail e).cfg = s.cfg := rfl
@[simp] theorem State_fail_inputs (s : State) (e : ErrKind) : (s.fail e).inputs = s.inputs := rfl
@[simp] theorem State_fail_reply (s : State) (e : ErrKind) : (s.fail e).reply = s.reply := rfl
@[simp] theorem State_fail_draws (s : State) (e : ErrKind) : (s.fail e).draws = s.draws := rfl
@[simp] theorem State_fail_lost (s : State) (e : ErrKind) : (s.fail e).lost = s.lost := rfl

/-! `State.failed`: a command that failed, by its code. -/

@[simp] theorem State_failed_regs (s : State) (c : BitVec 8) : (s.failed c).regs = s.regs := rfl
@[simp] theorem State_failed_slots (s : State) (c : BitVec 8) : (s.failed c).slots = s.slots := rfl
@[simp] theorem State_failed_gen (s : State) (c : BitVec 8) : (s.failed c).gen = s.gen := rfl
@[simp] theorem State_failed_status (s : State) (c : BitVec 8) : (s.failed c).status = { s.status with err := true, errCode := c } := rfl
@[simp] theorem State_failed_lastCmd (s : State) (c : BitVec 8) : (s.failed c).lastCmd = s.lastCmd := rfl
@[simp] theorem State_failed_errCmd (s : State) (c : BitVec 8) : (s.failed c).errCmd = s.lastCmd := rfl
@[simp] theorem State_failed_flight (s : State) (c : BitVec 8) : (s.failed c).flight = none := rfl
@[simp] theorem State_failed_cfg (s : State) (c : BitVec 8) : (s.failed c).cfg = s.cfg := rfl
@[simp] theorem State_failed_inputs (s : State) (c : BitVec 8) : (s.failed c).inputs = s.inputs := rfl
@[simp] theorem State_failed_reply (s : State) (c : BitVec 8) : (s.failed c).reply = s.reply := rfl
@[simp] theorem State_failed_draws (s : State) (c : BitVec 8) : (s.failed c).draws = s.draws := rfl
@[simp] theorem State_failed_lost (s : State) (c : BitVec 8) : (s.failed c).lost = s.lost := rfl

/-! `State.accept`: a command word accepted. -/

@[simp] theorem State_accept_regs (s : State) (w : Word) : (s.accept w).regs = s.regs := rfl
@[simp] theorem State_accept_slots (s : State) (w : Word) : (s.accept w).slots = s.slots := rfl
@[simp] theorem State_accept_gen (s : State) (w : Word) : (s.accept w).gen = s.gen := rfl
@[simp] theorem State_accept_status (s : State) (w : Word) : (s.accept w).status = { s.status with err := false, errCode := 0 } := rfl
@[simp] theorem State_accept_lastCmd (s : State) (w : Word) : (s.accept w).lastCmd = w := rfl
@[simp] theorem State_accept_errCmd (s : State) (w : Word) : (s.accept w).errCmd = s.errCmd := rfl
@[simp] theorem State_accept_flight (s : State) (w : Word) : (s.accept w).flight = some { word := w, snap := s.snapshot, scratch := .start } := rfl
@[simp] theorem State_accept_cfg (s : State) (w : Word) : (s.accept w).cfg = s.cfg := rfl
@[simp] theorem State_accept_inputs (s : State) (w : Word) : (s.accept w).inputs = s.inputs := rfl
@[simp] theorem State_accept_reply (s : State) (w : Word) : (s.accept w).reply = s.reply := rfl
@[simp] theorem State_accept_draws (s : State) (w : Word) : (s.accept w).draws = s.draws + 1 := rfl
@[simp] theorem State_accept_lost (s : State) (w : Word) : (s.accept w).lost = s.lost := rfl

/-! `State.reject`: a host access not accepted. -/

@[simp] theorem State_reject_regs (s : State) : (s.reject).regs = s.regs := rfl
@[simp] theorem State_reject_slots (s : State) : (s.reject).slots = s.slots := rfl
@[simp] theorem State_reject_gen (s : State) : (s.reject).gen = s.gen := rfl
@[simp] theorem State_reject_status (s : State) : (s.reject).status = { s.status with accErr := true } := rfl
@[simp] theorem State_reject_lastCmd (s : State) : (s.reject).lastCmd = s.lastCmd := rfl
@[simp] theorem State_reject_errCmd (s : State) : (s.reject).errCmd = s.errCmd := rfl
@[simp] theorem State_reject_flight (s : State) : (s.reject).flight = s.flight := rfl
@[simp] theorem State_reject_cfg (s : State) : (s.reject).cfg = s.cfg := rfl
@[simp] theorem State_reject_inputs (s : State) : (s.reject).inputs = s.inputs := rfl
@[simp] theorem State_reject_reply (s : State) : (s.reject).reply = s.reply := rfl
@[simp] theorem State_reject_draws (s : State) : (s.reject).draws = s.draws := rfl
@[simp] theorem State_reject_lost (s : State) : (s.reject).lost = s.lost := rfl

/-! `State.hostRead`: a host read. -/

@[simp] theorem State_hostRead_regs (s : State) (off : Nat) : (s.hostRead off).regs = s.regs := rfl
@[simp] theorem State_hostRead_slots (s : State) (off : Nat) : (s.hostRead off).slots = s.slots := rfl
@[simp] theorem State_hostRead_gen (s : State) (off : Nat) : (s.hostRead off).gen = s.gen := rfl
@[simp] theorem State_hostRead_status (s : State) (off : Nat) : (s.hostRead off).status = s.status := rfl
@[simp] theorem State_hostRead_lastCmd (s : State) (off : Nat) : (s.hostRead off).lastCmd = s.lastCmd := rfl
@[simp] theorem State_hostRead_errCmd (s : State) (off : Nat) : (s.hostRead off).errCmd = s.errCmd := rfl
@[simp] theorem State_hostRead_flight (s : State) (off : Nat) : (s.hostRead off).flight = s.flight := rfl
@[simp] theorem State_hostRead_cfg (s : State) (off : Nat) : (s.hostRead off).cfg = s.cfg := rfl
@[simp] theorem State_hostRead_inputs (s : State) (off : Nat) : (s.hostRead off).inputs = s.inputs := rfl
@[simp] theorem State_hostRead_reply (s : State) (off : Nat) : (s.hostRead off).reply = some (s.readWord off) := rfl
@[simp] theorem State_hostRead_draws (s : State) (off : Nat) : (s.hostRead off).draws = if off < 0x1000 then s.draws else s.draws + 2 := rfl
@[simp] theorem State_hostRead_lost (s : State) (off : Nat) : (s.hostRead off).lost = s.lost := rfl

/-! `State.hardReset`: reset. -/

@[simp] theorem State_hardReset_regs (s : State) : (s.hardReset).regs = Vector.replicate 16 BigReg.reset := rfl
@[simp] theorem State_hardReset_slots (s : State) : (s.hardReset).slots = List.replicate s.cfg.nctx none := rfl
@[simp] theorem State_hardReset_gen (s : State) : (s.hardReset).gen = 0 := rfl
@[simp] theorem State_hardReset_status (s : State) : (s.hardReset).status = { err := false, accErr := false, cmp := 0, errCode := 0 } := rfl
@[simp] theorem State_hardReset_lastCmd (s : State) : (s.hardReset).lastCmd = 0 := rfl
@[simp] theorem State_hardReset_errCmd (s : State) : (s.hardReset).errCmd = 0 := rfl
@[simp] theorem State_hardReset_flight (s : State) : (s.hardReset).flight = none := rfl
@[simp] theorem State_hardReset_cfg (s : State) : (s.hardReset).cfg = s.cfg := rfl
@[simp] theorem State_hardReset_inputs (s : State) : (s.hardReset).inputs = s.inputs := rfl
@[simp] theorem State_hardReset_reply (s : State) : (s.hardReset).reply = none := rfl
@[simp] theorem State_hardReset_draws (s : State) : (s.hardReset).draws = s.draws := rfl
@[simp] theorem State_hardReset_lost (s : State) : (s.hardReset).lost = false := rfl

/-! Registers and slots after an update. -/

@[simp] theorem reg_setReg_self (s : State) (r : RegId) (v : BigReg) : (s.setReg r v).reg r = v := by
  simp [State.reg, State.setReg, Vector.get_eq_getElem]

theorem reg_setReg_ne (s : State) {r q : RegId} (v : BigReg) (h : q ≠ r) : (s.setReg r v).reg q = s.reg q := by
  have : r.val ≠ q.val := fun e => h (Fin.ext e.symm)
  simp [State.reg, State.setReg, Vector.get_eq_getElem, this]

theorem reg_setReg (s : State) (r q : RegId) (v : BigReg) : (s.setReg r v).reg q = if q = r then v else s.reg q := by
  split_ifs with h
  · subst h; simp
  · exact reg_setReg_ne s v h

theorem reg_wrote (s : State) (r q : RegId) (v : BigReg) : (s.wrote r v).reg q = if q = r then v else s.reg q :=
  reg_setReg s r q v

@[simp] theorem reg_fail (s : State) (e : ErrKind) (q : RegId) : (s.fail e).reg q = s.reg q := rfl
@[simp] theorem reg_accept (s : State) (w : Word) (q : RegId) : (s.accept w).reg q = s.reg q := rfl
@[simp] theorem reg_reject (s : State) (q : RegId) : s.reject.reg q = s.reg q := rfl
@[simp] theorem reg_hostRead (s : State) (off : Nat) (q : RegId) : (s.hostRead off).reg q = s.reg q := rfl

@[simp] theorem reg_hardReset (s : State) (q : RegId) : s.hardReset.reg q = BigReg.reset := by
  simp [State.reg, Vector.get_eq_getElem]

/-- Success with one destination is the state written out. -/
theorem succeed_reg (s : State) (rd : RegId) (v : BigReg) : s.succeed (.reg rd v) = s.wrote rd v := rfl

/-- Failure is the state written out, with the kind's code. -/
theorem fail_eq_failed (s : State) (e : ErrKind) : s.fail e = s.failed e.code := rfl

/-- What a command reads while it is in flight (R268). -/
theorem sources_of_flight {s : State} {f : Flight} (h : s.flight = some f) : s.sources = f.snap := by
  simp [State.sources, h]

/-- Acceptance takes the snapshot of the state (R268). -/
@[simp] theorem sources_accept (s : State) (w : Word) : (s.accept w).sources = s.snapshot := rfl

@[simp] theorem busy_accept (s : State) (w : Word) : (s.accept w).busy = true := rfl
@[simp] theorem busy_fail (s : State) (e : ErrKind) : (s.fail e).busy = false := rfl

end Sys2Proof.Machine
end

