-- ==== Sys2Proof/Laws/Bus.lean ====
section
/-! SUPPORT. The host's accesses: which offset an address is, what stands at the offsets of the map (20_memory.md R72), what a served
read and a served write can do, and what one step does for each input. -/

namespace Sys2Proof.Machine

open Sys2Proof

/-- An aligned 32-bit access in the window is the access to its offset (R70, R71). -/
theorem offsetOf_aligned (cfg : Config) (off : Nat) (h : off < 0x11000) (h4 : off % 4 = 0) :
    offsetOf cfg (cfg.blockBase + off) 4 = .ok off := by
  unfold offsetOf
  rw [if_neg (by simp only [windowSizeBytes]; omega), if_neg (by simp only [ne_eq, not_true_eq_false, false_or]; omega)]
  simp

theorem offsetOf_outside (cfg : Config) (addr width : Nat) (h : addr < cfg.blockBase ∨ cfg.blockBase + 0x11000 ≤ addr) :
    offsetOf cfg addr width = .error (.fault (.outsideWindow addr)) := if_pos h

theorem offsetOf_badForm (cfg : Config) (addr width : Nat) (h : cfg.blockBase ≤ addr ∧ addr < cfg.blockBase + 0x11000)
    (hw : width ≠ 4 ∨ (addr - cfg.blockBase) % 4 ≠ 0) : offsetOf cfg addr width = .error (.refused (.accessForm addr width)) := by
  unfold offsetOf
  rw [if_neg (by simp only [windowSizeBytes]; omega), if_pos hw]

/-- `R[r]` of the window that starts at `W(r)` (R75). -/
theorem windowReg_eq (r : RegId) (o : Nat) (h : o < 0x1000) : windowReg (0x1000 * (r.val + 1) + o) = r := by
  have := r.isLt
  apply Fin.ext
  simp only [windowReg]
  omega

/-- The map at offset `o` of the window of `R[r]` is that window's map (R72). -/
theorem place_window (cfg : Config) (r : RegId) (o : Nat) (h : o < 0x1000) :
    place cfg (0x1000 * (r.val + 1) + o) = registerPlace cfg r o := by
  unfold place
  rw [if_neg (by omega), windowReg_eq r o h, show (0x1000 * (r.val + 1) + o) % 0x1000 = o by omega]

theorem place_limbWord (cfg : Config) (r : RegId) (j : Nat) (h : j < cfg.maxLimbs / 2) (hm : cfg.maxLimbs ≤ 1024) :
    place cfg (0x1000 * (r.val + 1) + (0x800 + 4 * j)) = .limbWord r j := by
  rw [place_window cfg r _ (by omega)]
  unfold registerPlace
  rw [if_neg (by omega), if_neg (by omega), if_neg (by omega), if_pos (by omega), show (0x800 + 4 * j - 0x800) / 4 = j by omega]

/-- A served read returns `readWord` and changes nothing else but the count of free values (R85). -/
theorem serveRead_next {s t : State} {addr width : Nat} (h : s.serveRead addr width = .next t) :
    ∃ off, offsetOf s.cfg addr width = .ok off ∧ t = s.hostRead off := by
  unfold State.serveRead at h
  split at h
  · rename_i off ho
    exact ⟨off, ho, by simpa using h.symm⟩
  · rename_i o ho
    unfold offsetOf at ho
    split_ifs at ho <;> simp_all

/-- A served write is the write to its offset. -/
theorem serveWrite_next {s t : State} {addr width : Nat} {v : Word} (h : s.serveWrite addr width v = .next t) :
    ∃ off, offsetOf s.cfg addr width = .ok off ∧ t = s.hostWrite off v := by
  unfold State.serveWrite at h
  split at h
  · rename_i off ho
    exact ⟨off, ho, by simpa using h.symm⟩
  · rename_i o ho
    unfold offsetOf at ho
    split_ifs at ho <;> simp_all

/-- Everything a served write can do (R73 to R82): a rejection, a command accepted or failed, `ACCERR` cleared or nothing, or one
register's `LEN` or limb word while idle. -/
theorem writePlace_cases (s : State) (d : Bool) (p : Place) (v : Word) :
    s.writePlace d p v = s.reject ∨
    (p = .cmd ∧ s.busy = false ∧ d = true ∧ s.writePlace d p v = s.accept v) ∨
    (p = .cmd ∧ s.busy = false ∧ d = false ∧ s.writePlace d p v = (s.accept v).fail .illegalCommand) ∨
    (p = .status ∧ s.writePlace d p v = s.hostStatus v) ∨
    (∃ r, p = .len r ∧ s.busy = false ∧ v.toNat ≤ s.cfg.maxLimbs ∧
      s.writePlace d p v = s.setReg r { s.reg r with len := v.toNat, kind := .plain, tag := 0 }) ∨
    (∃ r j, p = .limbWord r j ∧ s.busy = false ∧ s.writePlace d p v = s.hostLimbs r j v) := by
  cases hb : s.busy with
  | true => cases p <;> simp [State.writePlace, State.hostCommand, hb]
  | false =>
    cases p with
    | cmd => cases d <;> simp [State.writePlace, State.hostCommand, hb]
    | len r =>
      by_cases h : s.cfg.maxLimbs < v.toNat
      · simp [State.writePlace, State.hostLen, hb, h]
      · exact .inr (.inr (.inr (.inr (.inl ⟨r, rfl, rfl, by omega, by simp [State.writePlace, State.hostLen, hb, h]⟩))))
    | _ => simp [State.writePlace, hb]

/-! ### One step, by the next input -/

theorem step_lost_nil {s : State} (hl : s.lost = true) (h : s.inputs = []) : step s = .next s.powerOff := by
  simp [step, State.advance, h, hl]

theorem step_lost_cons {s : State} {i : Input} {rest : List Input} (hl : s.lost = true) (h : s.inputs = i :: rest) :
    step s = .next ({ s with inputs := rest }.serveLost i) := by
  simp [step, State.advance, h, hl]

theorem step_nil {s : State} (hl : s.lost = false) (h : s.inputs = []) : step s = s.finish := by
  simp [step, State.advance, h, hl]

theorem step_cons {s : State} {i : Input} {rest : List Input} (hl : s.lost = false) (h : s.inputs = i :: rest) :
    step s = { s with inputs := rest }.serve i := by
  simp [step, State.advance, h, hl]

end Sys2Proof.Machine
end

