-- ==== Sys2Proof/Laws/Limbs.lean ====
section
/-! SUPPORT. What the limb-sequence functions of Machine/Limbs.lean compute, in terms of `val` and `length` (00_scope.md R9, R10;
40_bigint.md R131 to R137). -/

namespace Sys2Proof.Machine

open Sys2Proof

@[simp] theorem val_nil : val [] = 0 := rfl
@[simp] theorem val_cons (x : Limb) (xs : List Limb) : val (x :: xs) = x.toNat + base * val xs := rfl

theorem val_lt (s : List Limb) : val s < base ^ s.length := by
  induction s with
  | nil => simp
  | cons x xs ih =>
    have hx := x.isLt
    simp only [val_cons, List.length_cons, pow_succ]
    simp only [base] at *
    omega

theorem val_append (s t : List Limb) : val (s ++ t) = val s + base ^ s.length * val t := by
  induction s with
  | nil => simp
  | cons x xs ih => simp only [List.cons_append, val_cons, ih, List.length_cons, pow_succ]; ring

@[simp] theorem length_zeros (n : Nat) : (zeros n).length = n := by simp [zeros]

@[simp] theorem val_zeros (n : Nat) : val (zeros n) = 0 := by
  induction n with
  | zero => rfl
  | succ n ih =>
    have : zeros (n + 1) = 0 :: zeros n := rfl
    simp [this, ih]

/-- A limb made from a number keeps it modulo `B`. -/
theorem limb_toNat (v : Nat) : (BitVec.ofNat 16 v).toNat = v % base := BitVec.toNat_ofNat v 16

/-! ### `limbs`, `siglen`, `trim`, `canon` -/

@[simp] theorem length_limbs (n v : Nat) : (limbs n v).length = n := by
  induction n generalizing v with
  | zero => rfl
  | succ n ih => simp [limbs, ih]

theorem val_limbs (n v : Nat) : val (limbs n v) = v % base ^ n := by
  induction n generalizing v with
  | zero => simp [limbs, Nat.mod_one]
  | succ n ih =>
    simp only [limbs, val_cons, ih, limb_toNat, pow_succ]
    rw [Nat.mul_comm (base ^ n), Nat.mod_mul]

theorem val_limbs_of_lt {n v : Nat} (h : v < base ^ n) : val (limbs n v) = v := by
  rw [val_limbs, Nat.mod_eq_of_lt h]

/-- A sequence is determined by its length and its value. -/
theorem eq_of_val_eq {s t : List Limb} (hl : s.length = t.length) (hv : val s = val t) : s = t := by
  induction s generalizing t with
  | nil => cases t with
    | nil => rfl
    | cons => simp at hl
  | cons x xs ih => cases t with
    | nil => simp at hl
    | cons y ys =>
      simp only [val_cons, List.length_cons, Nat.add_right_cancel_iff] at *
      have hx := x.isLt
      have hy := y.isLt
      have h1 : x.toNat = y.toNat := by simp only [base] at *; omega
      have h2 : val xs = val ys := by simp only [base] at *; omega
      rw [BitVec.eq_of_toNat_eq h1, ih hl h2]

theorem limbs_val (s : List Limb) : limbs s.length (val s) = s :=
  eq_of_val_eq (by simp) (val_limbs_of_lt (val_lt s))

theorem siglen_le (s : List Limb) : siglen s ≤ s.length := by
  induction s with
  | nil => simp [siglen]
  | cons x xs ih => simp only [siglen, List.length_cons]; split_ifs <;> omega

theorem siglen_eq_zero (s : List Limb) : siglen s = 0 ↔ val s = 0 := by
  induction s with
  | nil => simp [siglen]
  | cons x xs ih =>
    have : x = 0 ↔ x.toNat = 0 := by simp [← BitVec.toNat_inj]
    simp only [siglen, val_cons, base]
    split_ifs with h1 h2 <;> simp_all

theorem length_trim (s : List Limb) : (trim s).length = siglen s := by
  simp [trim, siglen_le]

theorem val_trim (s : List Limb) : val (trim s) = val s := by
  induction s with
  | nil => rfl
  | cons x xs ih =>
    have hz := siglen_eq_zero xs
    simp only [trim, siglen] at *
    split_ifs with h1 h2
    · simp [h2, hz.1 h1]
    · simp [hz.1 h1]
    · simp only [List.take_succ_cons, val_cons, ih]

theorem trim_eq_nil (s : List Limb) : trim s = [] ↔ val s = 0 := by
  rw [← List.length_eq_zero_iff, length_trim, siglen_eq_zero]

/-- Below the significant length the value has as many limbs as it needs. -/
theorem base_pow_le_val {s : List Limb} (h : siglen s ≠ 0) : base ^ (siglen s - 1) ≤ val s := by
  induction s with
  | nil => simp [siglen] at h
  | cons x xs ih =>
    simp only [siglen] at *
    split_ifs at * with h1 h2
    · contradiction
    · have : x.toNat ≠ 0 := by simpa [← BitVec.toNat_inj] using h2
      simp; omega
    · have h3 := ih h1
      have : siglen xs = siglen xs - 1 + 1 := by omega
      simp only [Nat.add_sub_cancel, val_cons]
      calc base ^ siglen xs = base * base ^ (siglen xs - 1) := by rw [this, pow_succ]; simp [Nat.mul_comm]
        _ ≤ base * val xs := Nat.mul_le_mul_left _ h3
        _ ≤ _ := Nat.le_add_left _ _

theorem val_lt_siglen (s : List Limb) : val s < base ^ siglen s := by
  have := val_lt (trim s)
  rwa [length_trim, val_trim] at this

theorem siglen_trim (s : List Limb) : siglen (trim s) = siglen s := by
  have h1 := siglen_le (trim s)
  rw [length_trim] at h1
  rcases Nat.eq_or_lt_of_le h1 with h | h
  · exact h
  · exfalso
    have h2 := val_lt_siglen (trim s)
    rw [val_trim] at h2
    have h3 := base_pow_le_val (s := s) (by omega)
    have h4 : base ^ siglen (trim s) ≤ base ^ (siglen s - 1) := Nat.pow_le_pow_right (by decide) (by omega)
    omega

theorem canonical_trim (s : List Limb) : canonical (trim s) = true := by
  simp [canonical, length_trim, siglen_trim]

theorem canonical_iff (s : List Limb) : canonical s = true ↔ s.length = siglen s := by simp [canonical]

/-- Canonical sequences of one value are equal (R10). -/
theorem canonical_unique {s t : List Limb} (hs : canonical s = true) (ht : canonical t = true) (h : val s = val t) :
    s = t := by
  rw [canonical_iff] at *
  apply eq_of_val_eq _ h
  rw [hs, ht]
  have key : ∀ a b : List Limb, val a = val b → siglen a ≤ siglen b := by
    intro a b hab
    by_contra hlt
    have h3 := base_pow_le_val (s := a) (by omega)
    have h2 := val_lt_siglen b
    have h4 : base ^ siglen b ≤ base ^ (siglen a - 1) := Nat.pow_le_pow_right (by decide) (by omega)
    omega
  exact le_antisymm (key s t h) (key t s h.symm)

theorem lt_base_pow_canonLen (v : Nat) : v < base ^ canonLen v := by
  unfold canonLen
  split_ifs with h
  · simp [h]
  · have h1 : v < 2 ^ (v.log2 + 1) := Nat.lt_log2_self
    calc v < 2 ^ (v.log2 + 1) := h1
      _ ≤ 2 ^ (16 * (v.log2 / 16 + 1)) := Nat.pow_le_pow_right (by decide) (by omega)
      _ = base ^ (v.log2 / 16 + 1) := pow_mul 2 16 _

theorem base_pow_le_of_canonLen {v : Nat} (h : v ≠ 0) : base ^ (canonLen v - 1) ≤ v := by
  simp only [canonLen, h, if_false, Nat.add_sub_cancel]
  calc base ^ (v.log2 / 16) = 2 ^ (16 * (v.log2 / 16)) := (pow_mul 2 16 _).symm
    _ ≤ 2 ^ v.log2 := Nat.pow_le_pow_right (by decide) (by omega)
    _ ≤ v := Nat.log2_self_le h

@[simp] theorem val_canon (v : Nat) : val (canon v) = v := val_limbs_of_lt (lt_base_pow_canonLen v)

theorem canonical_canon (v : Nat) : canonical (canon v) = true := by
  rw [canonical_iff]
  have hl : (canon v).length = canonLen v := by simp [canon]
  have h1 := siglen_le (canon v)
  rcases Nat.eq_or_lt_of_le h1 with h | h
  · exact h.symm
  · exfalso
    have h2 := val_lt_siglen (canon v)
    rw [val_canon] at h2
    rw [hl] at h
    by_cases hv : v = 0
    · simp [canonLen, hv] at h
    · have h3 := base_pow_le_of_canonLen hv
      have h4 : base ^ siglen (canon v) ≤ base ^ (canonLen v - 1) := Nat.pow_le_pow_right (by decide) (by omega)
      omega

theorem canon_val {s : List Limb} (h : canonical s = true) : canon (val s) = s :=
  canonical_unique (canonical_canon _) h (val_canon _)

theorem canon_eq_trim (s : List Limb) : canon (val s) = trim s :=
  canonical_unique (canonical_canon _) (canonical_trim _) (by rw [val_canon, val_trim])

theorem length_canon_le {v n : Nat} (h : v < base ^ n) : (canon v).length ≤ n := by
  by_contra hlt
  simp only [canon, length_limbs] at hlt
  by_cases hv : v = 0
  · simp [canonLen, hv] at hlt
  · have h1 := base_pow_le_of_canonLen hv
    have h2 : base ^ n ≤ base ^ (canonLen v - 1) := Nat.pow_le_pow_right (by decide) (by omega)
    omega

/-! ### Addition and subtraction -/

theorem val_eq_head_tail (t : List Limb) : val t = (t.headD 0).toNat + base * val t.tail := by
  cases t <;> simp

theorem addLoop_length (s t : List Limb) (c : Nat) : (addLoop s t c).1.length = s.length := by
  induction s generalizing t c with
  | nil => rfl
  | cons x xs ih => simp [addLoop, ih]

/-- The carry-propagating addition (R132): the limbs and the carry out make up the sum, as far as `t` fits `s`. -/
theorem addLoop_spec (s t : List Limb) (c : Nat) (hc : c ≤ 1) (ht : t.length ≤ s.length) :
    val (addLoop s t c).1 + base ^ s.length * (addLoop s t c).2 = val s + val t + c ∧ (addLoop s t c).2 ≤ 1 := by
  induction s generalizing t c with
  | nil =>
    have : t = [] := by simpa using ht
    subst this
    simp [addLoop, hc]
  | cons x xs ih =>
    have hx := x.isLt
    have hh := (t.headD 0).isLt
    have hy : (x.toNat + (t.headD 0).toNat + c) / base ≤ 1 := by simp only [base]; omega
    obtain ⟨h1, h2⟩ := ih t.tail _ hy (by simp at *; omega)
    refine ⟨?_, h2⟩
    have ht' := val_eq_head_tail t
    simp only [addLoop, val_cons, limb_toNat, List.length_cons, pow_succ]
    rw [ht']
    have hd := Nat.div_add_mod (x.toNat + (t.headD 0).toNat + c) base
    linear_combination base * h1 + hd

theorem length_addSeq (s t : List Limb) :
    (addSeq s t).length = max s.length t.length + (if val s + val t < base ^ max s.length t.length then 0 else 1) ∧
      val (addSeq s t) = val s + val t := by
  have hlen : (s ++ zeros (t.length - s.length)).length = max s.length t.length := by simp; omega
  obtain ⟨h1, h2⟩ := addLoop_spec (s ++ zeros (t.length - s.length)) t 0 (by omega) (by rw [hlen]; omega)
  have h3 := addLoop_length (s ++ zeros (t.length - s.length)) t 0
  have h4 := val_lt (addLoop (s ++ zeros (t.length - s.length)) t 0).1
  rw [hlen] at h1 h3
  rw [h3] at h4
  rw [val_append, val_zeros] at h1
  simp only [Nat.mul_zero, Nat.add_zero] at h1
  unfold addSeq
  generalize addLoop (s ++ zeros (t.length - s.length)) t 0 = r at *
  obtain ⟨r1, r2⟩ := r
  simp only at *
  interval_cases r2
  · simp only [Nat.mul_zero, Nat.add_zero] at h1
    rw [if_neg (by decide), if_pos (by omega)]
    exact ⟨by omega, h1⟩
  · rw [if_pos rfl, if_neg (by omega)]
    refine ⟨by simp [h3], ?_⟩
    rw [val_append, h3]
    simpa using h1

theorem val_addSeq (s t : List Limb) : val (addSeq s t) = val s + val t := (length_addSeq s t).2

/-- ADD's result is the sum in exactly the limbs R132 gives it. -/
theorem addSeq_eq (s t : List Limb) : addSeq s t =
    limbs (max s.length t.length + (if val s + val t < base ^ max s.length t.length then 0 else 1)) (val s + val t) := by
  obtain ⟨h1, h2⟩ := length_addSeq s t
  have := limbs_val (addSeq s t)
  rw [h1, h2] at this
  exact this.symm

theorem subLoop_length (s t : List Limb) (b : Nat) : (subLoop s t b).1.length = s.length := by
  induction s generalizing t b with
  | nil => rfl
  | cons x xs ih => simp [subLoop, ih]

/-- The borrow-propagating subtraction (R133): the limbs less the borrow out make up the difference. -/
theorem subLoop_spec (s t : List Limb) (b : Nat) (hb : b ≤ 1) (h : val t + b ≤ val s) :
    val (subLoop s t b).1 + val t + b = val s ∧ (subLoop s t b).2 = 0 := by
  induction s generalizing t b with
  | nil => simp [subLoop] at *; omega
  | cons x xs ih =>
    have hx := x.isLt
    have hh := (t.headD 0).isLt
    have ht' := val_eq_head_tail t
    simp only [val_cons] at h
    rw [ht'] at h
    have hlent : (if x.toNat < (t.headD 0).toNat + b then 1 else 0 : Nat) ≤ 1 := by split_ifs <;> omega
    have hstep : val t.tail + (if x.toNat < (t.headD 0).toNat + b then 1 else 0) ≤ val xs := by
      simp only [base] at h
      split_ifs <;> omega
    obtain ⟨h1, h2⟩ := ih t.tail _ hlent hstep
    refine ⟨?_, h2⟩
    simp only [subLoop, val_cons, BitVec.toNat_ofNat]
    rw [ht']
    simp only [base] at *
    split_ifs at * with hc
    · rw [Nat.mod_eq_of_lt (by omega)]; omega
    · rw [Nat.mod_eq_of_lt (by omega)]; omega

/-- SUB (R133): `Underflow` exactly when the subtrahend is larger, else the difference in the minuend's limbs. -/
theorem subSeq_eq (s t : List Limb) :
    subSeq s t = if val s < val t then none else some (limbs s.length (val s - val t)) := by
  unfold subSeq
  by_cases h0 : val t = 0
  · rw [if_pos h0, if_neg (by omega), h0, Nat.sub_zero, limbs_val]
  · rw [if_neg h0]
    split_ifs with h1
    · rfl
    · obtain ⟨h2, -⟩ := subLoop_spec s t 0 (by omega) (by omega)
      have h3 := subLoop_length s t 0
      have h4 := limbs_val (subLoop s t 0).1
      rw [h3] at h4
      rw [← h4]
      congr 2
      omega

/-! ### Multiplication -/

theorem addAt_length (r : List Limb) (k : Nat) (l : Limb) : (addAt r k l).length = r.length := by
  simp [addAt, addLoop_length]; omega

/-- `add_at` adds `limb · B^k` in the limbs that are there (R134). -/
theorem addAt_val (r : List Limb) (k : Nat) (l : Limb) :
    val (addAt r k l) ≡ val r + l.toNat * base ^ k [MOD base ^ r.length] := by
  by_cases hk : k < r.length
  · have hd : (r.drop k).length = r.length - k := by simp
    obtain ⟨h1, -⟩ := addLoop_spec (r.drop k) [l] 0 (by omega) (by simp; omega)
    have hr : val r = val (r.take k) + base ^ k * val (r.drop k) := by
      conv_lhs => rw [← List.take_append_drop k r, val_append]
      simp [Nat.min_eq_left (le_of_lt hk)]
    have hv : val (addAt r k l) = val (r.take k) + base ^ k * val (addLoop (r.drop k) [l] 0).1 := by
      simp [addAt, val_append, Nat.min_eq_left (le_of_lt hk)]
    have hp : base ^ r.length = base ^ k * base ^ (r.length - k) := by rw [← pow_add]; congr 1; omega
    rw [hd] at h1
    simp only [val_cons, val_nil] at h1
    have : val (addAt r k l) + base ^ r.length * (addLoop (r.drop k) [l] 0).2 = val r + l.toNat * base ^ k := by
      rw [hv, hr, hp]
      linear_combination (base ^ k) * h1
    rw [← this]
    exact (Nat.ModEq.symm (by simp [Nat.ModEq]))
  · have h1 : addAt r k l = r := by
      simp [addAt, List.drop_eq_nil_of_le (Nat.le_of_not_lt hk), addLoop, List.take_of_length_le (Nat.le_of_not_lt hk)]
    rw [h1]
    have : base ^ r.length ∣ l.toNat * base ^ k := Dvd.dvd.mul_left (pow_dvd_pow _ (by omega)) _
    obtain ⟨m, hm⟩ := this
    rw [hm]
    exact (by simp [Nat.ModEq])

theorem mulRow_length (s : List Limb) (y : Limb) (k : Nat) (r : List Limb) : (mulRow s y k r).length = r.length := by
  induction s generalizing k r with
  | nil => rfl
  | cons x xs ih => simp [mulRow, ih, addAt_length]

theorem mulRow_val (s : List Limb) (y : Limb) (k : Nat) (r : List Limb) :
    val (mulRow s y k r) ≡ val r + val s * y.toNat * base ^ k [MOD base ^ r.length] := by
  induction s generalizing k r with
  | nil => simp only [mulRow, val_nil, Nat.zero_mul, Nat.add_zero]; exact Nat.ModEq.refl _
  | cons x xs ih =>
    have hx := x.isLt
    have hy := y.isLt
    have hp : x.toNat * y.toNat < base * base := by
      simp only [base]; exact Nat.mul_lt_mul'' hx hy
    set p := x.toNat * y.toNat with hpd
    have h1 := addAt_val r k (BitVec.ofNat 16 (p % base))
    have h2 := addAt_val (addAt r k (BitVec.ofNat 16 (p % base))) (k + 1) (BitVec.ofNat 16 (p / base))
    have h3 := ih (k + 1) (addAt (addAt r k (BitVec.ofNat 16 (p % base))) (k + 1) (BitVec.ofNat 16 (p / base)))
    rw [addAt_length] at h2
    rw [addAt_length, addAt_length] at h3
    have e1 : (BitVec.ofNat 16 (p % base)).toNat = p % base := by
      rw [BitVec.toNat_ofNat]; exact Nat.mod_eq_of_lt (Nat.mod_lt _ (by decide))
    have e2 : (BitVec.ofNat 16 (p / base)).toNat = p / base := by
      rw [BitVec.toNat_ofNat]; exact Nat.mod_eq_of_lt (Nat.div_lt_of_lt_mul hp)
    rw [e1] at h1
    rw [e2] at h2
    simp only [mulRow, ← hpd]
    refine h3.trans ?_
    have h4 := (h2.trans (Nat.ModEq.add_right _ h1)).add_right (val xs * y.toNat * base ^ (k + 1))
    refine h4.trans ?_
    have hd := Nat.div_add_mod p base
    have : val r + p % base * base ^ k + p / base * base ^ (k + 1) + val xs * y.toNat * base ^ (k + 1)
        = val r + val (x :: xs) * y.toNat * base ^ k := by
      rw [val_cons, pow_succ]
      have : (x.toNat + base * val xs) * y.toNat = p + base * val xs * y.toNat := by rw [hpd]; ring
      rw [this]
      linear_combination (base ^ k) * hd
    rw [this]

theorem mulRows_length (s t : List Limb) (j : Nat) (r : List Limb) : (mulRows s t j r).length = r.length := by
  induction t generalizing j r with
  | nil => rfl
  | cons y ys ih => simp [mulRows, ih, mulRow_length]

theorem mulRows_val (s t : List Limb) (j : Nat) (r : List Limb) :
    val (mulRows s t j r) ≡ val r + val s * val t * base ^ j [MOD base ^ r.length] := by
  induction t generalizing j r with
  | nil => simp only [mulRows, val_nil, Nat.mul_zero, Nat.zero_mul, Nat.add_zero]; exact Nat.ModEq.refl _
  | cons y ys ih =>
    have h1 := mulRow_val s y j r
    have h2 := ih (j + 1) (mulRow s y j r)
    rw [mulRow_length] at h2
    refine (h2.trans (h1.add_right _)).trans ?_
    have : val r + val s * y.toNat * base ^ j + val s * val ys * base ^ (j + 1)
        = val r + val s * val (y :: ys) * base ^ j := by
      rw [val_cons, pow_succ]; ring
    rw [this]

/-- MUL's result is the product in `len(s) + len(t)` limbs, or empty if an operand is empty (R134). -/
theorem mulSeq_eq (s t : List Limb) :
    mulSeq s t = limbs (if s.length = 0 ∨ t.length = 0 then 0 else s.length + t.length) (val s * val t) := by
  unfold mulSeq
  by_cases h : s = [] ∨ t = []
  · have h' : s.length = 0 ∨ t.length = 0 := by simpa [List.length_eq_zero_iff] using h
    rw [if_pos h, if_pos h']; rfl
  · have h' : ¬ (s.length = 0 ∨ t.length = 0) := by simpa [List.length_eq_zero_iff] using h
    rw [if_neg h, if_neg h']
    have h1 := mulRows_length s t 0 (zeros (s.length + t.length))
    have h2 := mulRows_val s t 0 (zeros (s.length + t.length))
    simp only [length_zeros, val_zeros, Nat.zero_add, pow_zero, Nat.mul_one] at h1 h2
    apply eq_of_val_eq
    · rw [h1, length_limbs]
    · rw [val_limbs]
      have h3 := val_lt (mulRows s t 0 (zeros (s.length + t.length)))
      rw [h1] at h3
      rw [← Nat.mod_eq_of_lt h3]
      exact h2

theorem val_mulSeq (s t : List Limb) : val (mulSeq s t) = val s * val t := by
  rw [mulSeq_eq, val_limbs]
  apply Nat.mod_eq_of_lt
  split_ifs with h
  · rcases h with h | h <;> rw [List.length_eq_zero_iff] at h <;> simp [h]
  · rw [pow_add]; exact Nat.mul_lt_mul'' (val_lt s) (val_lt t)

/-! ### Shifts, bits, comparison -/

theorem val_shlLimbs (s : List Limb) (n : Nat) : val (shlLimbs s n) = val s * base ^ n := by
  simp [shlLimbs, val_append, Nat.mul_comm]

theorem val_shrLimbs (s : List Limb) (n : Nat) : val (shrLimbs s n) = val s / base ^ n := by
  unfold shrLimbs
  by_cases h : n ≤ s.length
  · have hs : val s = val (s.take n) + base ^ n * val (s.drop n) := by
      conv_lhs => rw [← List.take_append_drop n s, val_append]
      simp [Nat.min_eq_left h]
    have hl : val (s.take n) < base ^ n := by
      have := val_lt (s.take n)
      simpa [Nat.min_eq_left h] using this
    rw [hs, Nat.add_mul_div_left _ _ (Nat.pow_pos (by decide)), Nat.div_eq_of_lt hl, Nat.zero_add]
  · have h1 : val s < base ^ n := lt_of_lt_of_le (val_lt s) (Nat.pow_le_pow_right (by decide) (by omega))
    rw [List.drop_eq_nil_of_le (by omega), Nat.div_eq_of_lt h1]; rfl

/-- `bit(s, i)` is bit `i` of the value (R136). -/
theorem bit_eq_testBit (s : List Limb) (i : Nat) : bit s i = (val s).testBit i := by
  induction s generalizing i with
  | nil => simp [bit]
  | cons x xs ih =>
    rw [val_cons, Nat.add_comm]
    have hb : (base : Nat) = 2 ^ 16 := rfl
    rw [hb, Nat.testBit_two_pow_mul_add _ x.isLt]
    by_cases h : i < 16
    · rw [if_pos h]
      have : i / 16 = 0 := by omega
      simp [bit, this, Nat.mod_eq_of_lt h, BitVec.getLsbD]
    · rw [if_neg h, ← ih]
      have h1 : i / 16 = (i - 16) / 16 + 1 := by omega
      have h2 : i % 16 = (i - 16) % 16 := by omega
      simp [bit, h1, h2]

theorem cmpLimbs_eq (s t : List Limb) (h : s.length = t.length) :
    cmpLimbs s t = if val s < val t then .less else if val t < val s then .greater else .equal := by
  induction s generalizing t with
  | nil =>
    have : t = [] := by simpa using h.symm
    simp [cmpLimbs, this]
  | cons x xs ih => cases t with
    | nil => simp at h
    | cons y ys =>
      have hx := x.isLt
      have hy := y.isLt
      have ex : val (x :: xs) = x.toNat + 65536 * val xs := rfl
      have ey : val (y :: ys) = y.toNat + 65536 * val ys := rfl
      simp only [cmpLimbs, List.tail_cons, List.headD_cons, ih ys (by simpa using h), BitVec.lt_def]
      generalize val (x :: xs) = a at *
      generalize val (y :: ys) = b at *
      rcases lt_trichotomy (val xs) (val ys) with h1 | h1 | h1
      · rw [if_pos h1, if_pos (show a < b by omega)]
      · rw [if_neg (show ¬ val xs < val ys by omega), if_neg (show ¬ val ys < val xs by omega)]
        have e1 : a < b ↔ x.toNat < y.toNat := by omega
        have e2 : b < a ↔ y.toNat < x.toNat := by omega
        simp only [e1, e2]
      · rw [if_neg (show ¬ val xs < val ys by omega), if_pos h1, if_neg (show ¬ a < b by omega), if_pos (show b < a by omega)]

/-- CMP is the ordering of the values (R137). -/
theorem cmp3_eq (s t : List Limb) :
    cmp3 s t = if val s < val t then .less else if val t < val s then .greater else .equal := by
  have key : ∀ a b : List Limb, siglen a < siglen b → val a < val b := by
    intro a b h
    have h1 := val_lt_siglen a
    have h2 := base_pow_le_val (s := b) (by omega)
    have h3 : base ^ siglen a ≤ base ^ (siglen b - 1) := Nat.pow_le_pow_right (by decide) (by omega)
    omega
  unfold cmp3
  rcases lt_trichotomy (siglen s) (siglen t) with h | h | h
  · rw [if_pos h, if_pos (key _ _ h)]
  · rw [if_neg (by omega), if_neg (by omega), cmpLimbs_eq _ _ (by rw [length_trim, length_trim, h]), val_trim, val_trim]
  · have := key _ _ h
    rw [if_neg (by omega), if_pos h, if_neg (by omega), if_pos this]

end Sys2Proof.Machine
end

