-- ==== Sys2Proof/Laws/Longdiv.lean ====
section
/-! SUPPORT. Long division (41_longdiv.md): the digits and the remainder are those of floor division, and the repeated subtraction of
R170 gives the same two sequences as one division per digit. -/

namespace Sys2Proof.Machine

open Sys2Proof

theorem limbs_mod (n v : Nat) : limbs n (v % base ^ n) = limbs n v := by
  apply eq_of_val_eq (by simp)
  rw [val_limbs, val_limbs, Nat.mod_mod]

theorem limbs_append_digit (p v : Nat) : limbs p v ++ [BitVec.ofNat 16 (v / base ^ p)] = limbs (p + 1) v := by
  apply eq_of_val_eq (by simp)
  rw [val_append, val_limbs, val_limbs, length_limbs, val_cons, val_nil, limb_toNat, Nat.mul_zero, Nat.add_zero, pow_succ,
    Nat.mod_mul]

/-- One division per digit gives the quotient in one limb per position, and the remainder (R170, R172). -/
theorem divDigits_eq {d : Nat} (hd : 0 < d) (p rem : Nat) (q : List Limb) (h : rem < d * base ^ p) :
    divDigits d p rem q = (limbs p (rem / d) ++ q, rem % d) := by
  induction p generalizing rem q with
  | zero =>
    have : rem < d := by simpa using h
    simp [divDigits, limbs, Nat.mod_eq_of_lt this]
  | succ p ih =>
    have hb : 0 < base ^ p := Nat.pow_pos (by decide)
    have hdig : rem / base ^ p / d = rem / d / base ^ p := by rw [Nat.div_div_eq_div_mul, Nat.div_div_eq_div_mul, Nat.mul_comm]
    have hrem : rem - rem / base ^ p / d * (d * base ^ p) = rem % (d * base ^ p) := by
      rw [Nat.div_div_eq_div_mul, Nat.mul_comm (base ^ p) d, Nat.mod_eq_sub_mul_div, Nat.mul_comm (d * base ^ p)]
    simp only [divDigits, hrem]
    rw [ih _ _ (Nat.mod_lt _ (Nat.mul_pos hd hb))]
    have h1 : rem % (d * base ^ p) / d = rem / d % base ^ p := Nat.mod_mul_right_div_self rem d (base ^ p)
    have h2 : rem % (d * base ^ p) % d = rem % d := Nat.mod_mul_right_mod rem d (base ^ p)
    rw [h1, h2, hdig, limbs_mod, ← limbs_append_digit]
    simp

/-- DIVMOD's two results by value (R170, R172): `DivideByZero` exactly for a zero divisor, else quotient and remainder in the
dividend's limb count. -/
theorem divmodDigits_eq (s t : List Limb) : divmodDigits s t =
    if val t = 0 then none else some (limbs s.length (val s / val t), limbs s.length (val s % val t)) := by
  unfold divmodDigits
  by_cases h : val t = 0
  · rw [if_pos ((trim_eq_nil t).2 h), if_pos h]
  · rw [if_neg (mt (trim_eq_nil t).1 h), if_neg h]
    have ht : 0 < val t := Nat.pos_of_ne_zero h
    have hs : val s < val t * base ^ s.length :=
      lt_of_lt_of_le (val_lt s) (Nat.le_mul_of_pos_left _ ht)
    simp only [divDigits_eq ht _ _ _ hs, List.append_nil]

/-- The subtractions at one position (R170): as many as the aligned value holds the divisor. -/
theorem subtractWhile_eq {d : List Limb} (hd : 0 < val d) (p fuel : Nat) (rem : List Limb) (digit : Nat)
    (hf : val rem / base ^ p / val d ≤ fuel) :
    subtractWhile d p fuel rem digit =
      (limbs rem.length (val rem - val rem / base ^ p / val d * (val d * base ^ p)), digit + val rem / base ^ p / val d) := by
  have hb : 0 < base ^ p := Nat.pow_pos (by decide)
  induction fuel generalizing rem digit with
  | zero =>
    have : val rem / base ^ p / val d = 0 := Nat.le_zero.1 hf
    simp [subtractWhile, this, limbs_val]
  | succ fuel ih =>
    unfold subtractWhile
    by_cases hlt : val rem / base ^ p < val d
    · have : val rem / base ^ p / val d = 0 := Nat.div_eq_of_lt hlt
      rw [if_pos hlt, this]
      simp [limbs_val]
    · rw [if_neg hlt]
      have hle : val d * base ^ p ≤ val rem := by
        have := Nat.div_mul_le_self (val rem) (base ^ p)
        exact le_trans (Nat.mul_le_mul_right _ (by omega)) this
      rw [subSeq_eq, val_shlLimbs, if_neg (by omega)]
      have hv : val (limbs rem.length (val rem - val d * base ^ p)) = val rem - val d * base ^ p :=
        val_limbs_of_lt (lt_of_le_of_lt (Nat.sub_le _ _) (val_lt rem))
      have hk : (val rem - val d * base ^ p) / base ^ p / val d = val rem / base ^ p / val d - 1 := by
        rw [Nat.div_div_eq_div_mul, Nat.div_div_eq_div_mul, Nat.mul_comm (base ^ p)]
        exact Nat.sub_mul_div (val rem) (val d * base ^ p) 1 ▸ by simp
      have hpos : 1 ≤ val rem / base ^ p / val d := (Nat.one_le_div_iff hd).2 (by omega)
      have := ih (limbs rem.length (val rem - val d * base ^ p)) (digit + 1) (by rw [hv, hk]; omega)
      simp only [this, hv, hk, length_limbs, Prod.mk.injEq]
      refine ⟨?_, by omega⟩
      congr 1
      obtain ⟨k, hk'⟩ : ∃ k, val rem / base ^ p / val d = k + 1 := ⟨_, (Nat.succ_pred_eq_of_pos hpos).symm⟩
      rw [hk', Nat.add_sub_cancel, Nat.sub_sub]
      congr 1
      ring

/-- The positions of R170 by repeated subtraction are those of one division per digit. -/
theorem divPositions_eq {d : List Limb} (hd : 0 < val d) (p : Nat) (rem q : List Limb) (h : val rem < val d * base ^ p) :
    divPositions d p rem q =
      ((divDigits (val d) p (val rem) q).1, limbs rem.length (divDigits (val d) p (val rem) q).2) := by
  induction p generalizing rem q with
  | zero => simp [divPositions, divDigits, limbs_val]
  | succ p ih =>
    have hb : 0 < base ^ p := Nat.pow_pos (by decide)
    have hk : val rem / base ^ p / val d < base := by
      rw [Nat.div_div_eq_div_mul]
      apply Nat.div_lt_of_lt_mul
      calc val rem < val d * base ^ (p + 1) := h
        _ = base ^ p * val d * base := by rw [pow_succ]; ring
    have hrem : val rem - val rem / base ^ p / val d * (val d * base ^ p) = val rem % (val d * base ^ p) := by
      rw [Nat.div_div_eq_div_mul, Nat.mul_comm (base ^ p) (val d), Nat.mod_eq_sub_mul_div, Nat.mul_comm (val d * base ^ p)]
    have hlt : val rem % (val d * base ^ p) < val d * base ^ p := Nat.mod_lt _ (Nat.mul_pos hd hb)
    have hv : val (limbs rem.length (val rem % (val d * base ^ p))) = val rem % (val d * base ^ p) :=
      val_limbs_of_lt (lt_of_le_of_lt (Nat.mod_le _ _) (val_lt rem))
    simp only [divPositions, divDigits, subtractWhile_eq hd p base rem 0 (le_of_lt hk), hrem, Nat.zero_add]
    rw [ih _ _ (by rw [hv]; exact hlt), hv, length_limbs]

/-- "Only timing can tell the two apart" (R170): repeated subtraction and one division per digit give the same result. -/
theorem divmodSeq_eq_divmodDigits (s t : List Limb) : divmodSeq s t = divmodDigits s t := by
  unfold divmodSeq divmodDigits
  by_cases h : trim t = []
  · rw [if_pos h, if_pos h]
  · rw [if_neg h, if_neg h]
    have ht : 0 < val (trim t) := by
      rw [val_trim]; exact Nat.pos_of_ne_zero (mt (trim_eq_nil t).2 h)
    rw [divPositions_eq ht _ _ _ (lt_of_lt_of_le (val_lt s) (Nat.le_mul_of_pos_left _ ht)), val_trim]

end Sys2Proof.Machine
end

