-- ==== Sys2Proof/Laws/Montgomery.lean ====
section
/-! SUPPORT. The single-limb inverse and the REDC loop (42_montgomery.md R190, R191, R193). -/

namespace Sys2Proof.Machine

open Sys2Proof

/-- The recurrence of R191 gives the gcd and Bezout coefficients, with enough fuel. -/
theorem egcd_spec (fuel a b : Nat) (h : b < fuel) :
    (egcd fuel a b).1 = Nat.gcd a b ∧
      (a : Int) * (egcd fuel a b).2.1 + (b : Int) * (egcd fuel a b).2.2 = (Nat.gcd a b : Int) := by
  induction fuel generalizing a b with
  | zero => omega
  | succ fuel ih =>
    unfold egcd
    by_cases hb : b = 0
    · rw [if_pos hb]; simp [hb]
    · rw [if_neg hb]
      have hlt : a % b < b := Nat.mod_lt _ (Nat.pos_of_ne_zero hb)
      obtain ⟨h1, h2⟩ := ih b (a % b) (by omega)
      have hg : Nat.gcd b (a % b) = Nat.gcd a b := by rw [Nat.gcd_comm b, ← Nat.gcd_rec, Nat.gcd_comm]
      rw [hg] at h1 h2
      refine ⟨h1, ?_⟩
      have hd : ((a % b : Nat) : Int) = a - b * ((a / b : Nat) : Int) := by
        have := Nat.div_add_mod a b
        have e : ((b * (a / b) + a % b : Nat) : Int) = (a : Int) := by rw [this]
        push_cast at e ⊢
        linarith
      rw [hd] at h2
      simp only
      linear_combination h2

theorem gcd_base (a : Nat) : Nat.gcd a base = 1 ↔ a % 2 = 1 := by
  constructor
  · intro h
    by_contra h2
    have : 2 ∣ Nat.gcd a base := Nat.dvd_gcd (by omega) (by decide)
    rw [h] at this
    exact absurd this (by decide)
  · intro h
    have h2 : Nat.Coprime a 2 := Nat.coprime_two_right.2 (Nat.odd_iff.2 h)
    exact h2.pow_right 16

/-- `inv_B(a)` (R191): it fails exactly for an even limb, and its answer is the inverse in `[1, B)`. -/
theorem invB_some {a y : Limb} (h : invB a = some y) : a.toNat % 2 = 1 ∧ a.toNat * y.toNat % base = 1 ∧ 1 ≤ y.toNat := by
  unfold invB at h
  obtain ⟨h1, h2⟩ := egcd_spec (base + 1) a.toNat base (by omega)
  by_cases hg : (egcd (base + 1) a.toNat base).1 = 1
  · rw [if_pos hg] at h
    rw [h1] at hg
    rw [hg] at h2
    have hy : y = BitVec.ofNat 16 ((egcd (base + 1) a.toNat base).2.1 % (base : Int)).toNat := (Option.some.inj h).symm
    generalize (egcd (base + 1) a.toNat base).2.1 = u at *
    generalize (egcd (base + 1) a.toNat base).2.2 = v at *
    have hu0 : 0 ≤ u % (base : Int) := Int.emod_nonneg _ (by decide)
    have hub : u % (base : Int) < base := Int.emod_lt_of_pos _ (by decide)
    have hyn : (y.toNat : Int) = u % (base : Int) := by
      rw [hy, limb_toNat, Nat.mod_eq_of_lt (by omega)]
      omega
    have hmul : ((a.toNat * y.toNat % base : Nat) : Int) = 1 := by
      rw [Int.natCast_mod, Int.natCast_mul, hyn, Int.mul_emod, Int.emod_emod_of_dvd _ (dvd_refl _), ← Int.mul_emod]
      have : (a.toNat : Int) * u = 1 - (base : Int) * v := by push_cast at h2 ⊢; linarith
      rw [this]
      have : (1 - (base : Int) * v) % base = 1 % base := by
        rw [Int.sub_emod, Int.mul_emod_right]; rfl
      rw [this]; rfl
    have hm : a.toNat * y.toNat % base = 1 := by exact_mod_cast hmul
    refine ⟨(gcd_base _).1 hg, hm, ?_⟩
    by_contra hy0
    have : y.toNat = 0 := by omega
    rw [this] at hm
    simp at hm
  · rw [if_neg hg] at h
    exact absurd h (by simp)

theorem invB_isSome (a : Limb) : (invB a).isSome = true ↔ a.toNat % 2 = 1 := by
  unfold invB
  have h1 := (egcd_spec (base + 1) a.toNat base (by omega)).1
  rw [← gcd_base, ← h1]
  simp only
  split_ifs with h <;> simp [h]

/-- `neg_inv_mod0` (R191): times `N₀` it is −1 modulo `B`, so a REDC iteration divides exactly. -/
theorem negInv_some {a m : Limb} (h : negInv a = some m) :
    a.toNat % 2 = 1 ∧ (a.toNat * m.toNat + 1) % base = 0 := by
  unfold negInv at h
  rw [Option.map_eq_some_iff] at h
  obtain ⟨y, hy, rfl⟩ := h
  obtain ⟨h1, h2, h3⟩ := invB_some hy
  refine ⟨h1, ?_⟩
  have hb : y.toNat < base := y.isLt
  rw [limb_toNat, Nat.mod_eq_of_lt (a := base - y.toNat) (by simp only [base] at *; omega)]
  have hd := Nat.div_add_mod (a.toNat * y.toNat) base
  rw [h2] at hd
  have hle : a.toNat * y.toNat ≤ a.toNat * base := Nat.mul_le_mul_left _ (le_of_lt hb)
  have : a.toNat * (base - y.toNat) + 1 = base * (a.toNat - a.toNat * y.toNat / base) := by
    rw [Nat.mul_sub, Nat.mul_sub]
    have : base * (a.toNat * y.toNat / base) + 1 = a.toNat * y.toNat := hd
    rw [Nat.mul_comm base a.toNat]
    omega
  rw [this]
  exact Nat.mul_mod_right _ _

theorem negInv_isSome (a : Limb) : (negInv a).isSome = true ↔ a.toNat % 2 = 1 := by
  rw [negInv, Option.isSome_map, invB_isSome]

theorem val_mod_base (n : List Limb) : val n % base = (n.headD 0).toNat := by
  rw [val_eq_head_tail, Nat.add_mul_mod_self_left]
  exact Nat.mod_eq_of_lt (n.headD 0).isLt

/-- `N0ODD` says whether the modulus is odd (R36). -/
theorem n0Odd_iff (n : List Limb) : n0Odd n = true ↔ val n % 2 = 1 := by
  have h := val_mod_base n
  have : val n % 2 = (n.headD 0).toNat % 2 := by rw [← h, Nat.mod_mod_of_dvd _ (by decide)]
  simp [n0Odd, this]

/-- One iteration of REDC's step 2 (R193): it adds a multiple `k·N`, `k < B`, and divides by `B` exactly. -/
theorem redcIter_exact {n m : Nat} (h : (n % base * m + 1) % base = 0) (acc : Nat) :
    base * redcIter n m acc = acc + n * ((acc % base) * m % base) := by
  unfold redcIter
  apply Nat.mul_div_cancel'
  apply Nat.dvd_of_mod_eq_zero
  have h1 : acc + n * ((acc % base) * m % base) ≡ acc * (n % base * m + 1) [MOD base] := by
    have e1 : n * ((acc % base) * m % base) ≡ n * (acc * m) [MOD base] :=
      Nat.ModEq.mul_left _ ((Nat.mod_modEq _ _).trans ((Nat.mod_modEq _ _).mul_right _))
    have e2 : n * (acc * m) ≡ n % base * (acc * m) [MOD base] := (Nat.mod_modEq _ _).symm.mul_right _
    have e3 : acc * (n % base * m + 1) = acc + n % base * (acc * m) := by ring
    rw [e3]
    exact (e1.trans e2).add_left acc
  have h2 : acc * (n % base * m + 1) ≡ acc * 0 [MOD base] := Nat.ModEq.mul_left _ (by simpa [Nat.ModEq] using h)
  simpa [Nat.ModEq] using h1.trans h2

/-- REDC's step 2 (R193, R194): the loop adds `K·N` with `K < B^L` and divides by `B^L` exactly. -/
theorem redcLoop_exact {n m : Nat} (h : (n % base * m + 1) % base = 0) (l acc : Nat) :
    ∃ k, k < base ^ l ∧ base ^ l * redcLoop n m l acc = acc + n * k := by
  induction l generalizing acc with
  | zero => exact ⟨0, by simp, by simp [redcLoop]⟩
  | succ l ih =>
    obtain ⟨k, hk, hl⟩ := ih (redcIter n m acc)
    have h1 := redcIter_exact h acc
    refine ⟨(acc % base) * m % base + base * k, ?_, ?_⟩
    · have h2 : (acc % base) * m % base < base := Nat.mod_lt _ (by decide)
      have h3 : base * (k + 1) ≤ base * base ^ l := Nat.mul_le_mul_left _ hk
      rw [pow_succ]
      simp only [base] at *
      omega
    · simp only [redcLoop]
      rw [pow_succ]
      linear_combination base * hl + h1

theorem redcFinal_eq (n acc : Nat) : redcFinal n acc = acc % n := by
  unfold redcFinal
  split_ifs with h
  · rfl
  · exact (Nat.mod_eq_of_lt (by omega)).symm

/-- REDC's result is a residue below the modulus (R194 step 3). -/
theorem redcVal_lt {c : Context} (h : 1 ≤ val c.n) (v : Nat) : redcVal c v < val c.n := by
  rw [redcVal, redcFinal_eq]; exact Nat.mod_lt _ h

/-- The constants of a context (R190): trimmed modulus, its limb count and `B^(2L) mod N`, or `DivideByZero` for a zero modulus. -/
theorem contextConstants_eq (s : List Limb) : contextConstants s =
    if val s = 0 then none else some (trim s, (trim s).length, base ^ (2 * (trim s).length) % val s) := by
  unfold contextConstants
  simp only
  rw [divmodDigits_eq, val_trim]
  by_cases h : val s = 0
  · rw [if_pos h, if_pos h]
  · rw [if_neg h, if_neg h]
    simp only [Option.some.injEq, Prod.mk.injEq, true_and]
    have hr : val (shlLimbs [1] (trim s).length) = base ^ (trim s).length := by simp [val_shlLimbs]
    rw [val_mulSeq, hr, ← pow_add, ← two_mul]
    apply val_limbs_of_lt
    have hv : base ^ (2 * (trim s).length) = val (mulSeq (shlLimbs [1] (trim s).length) (shlLimbs [1] (trim s).length)) := by
      rw [val_mulSeq, hr, ← pow_add, ← two_mul]
    exact lt_of_le_of_lt (Nat.mod_le _ _) (hv ▸ val_lt _)

end Sys2Proof.Machine
end

