-- ==== Sys2Proof/Laws/Exponent.lean ====
section
/-! SUPPORT. The windows of the exponent scan (43_exponent.md R235, R236): a window's value is the exponent's bits, it is odd and it fits
the table. -/

namespace Sys2Proof.Machine

open Sys2Proof

theorem bitsVal_eq (e : List Limb) (lo n : Nat) : bitsVal e lo n = val e / 2 ^ lo % 2 ^ n := by
  induction n generalizing lo with
  | zero => simp [bitsVal, Nat.mod_one]
  | succ n ih =>
    have hb : flag (bit e lo) = val e / 2 ^ lo % 2 := by
      rw [bit_eq_testBit, Nat.testBit_eq_decide_div_mod_eq, flag]
      by_cases h : val e / 2 ^ lo % 2 = 1 <;> simp [h]; omega
    rw [bitsVal, ih, hb, pow_succ 2 lo, ← Nat.div_div_eq_div_mul, pow_succ 2 n, Nat.mul_comm (2 ^ n) 2, Nat.mod_mul]

theorem trimLow_spec (e : List Limb) (fuel lo i : Nat) (h : bit e i = true) (hlo : lo ≤ i) (hf : i ≤ lo + fuel) :
    lo ≤ trimLow e fuel lo ∧ trimLow e fuel lo ≤ i ∧ bit e (trimLow e fuel lo) = true := by
  induction fuel generalizing lo with
  | zero =>
    have : lo = i := by omega
    subst this
    exact ⟨le_refl _, le_refl _, h⟩
  | succ fuel ih =>
    unfold trimLow
    by_cases hb : bit e lo = false
    · rw [if_pos hb]
      have hne : lo ≠ i := by rintro rfl; simp [h] at hb
      obtain ⟨h1, h2, h3⟩ := ih (lo + 1) (by omega) (by omega)
      exact ⟨by omega, h2, h3⟩
    · rw [if_neg hb]
      exact ⟨le_refl _, hlo, by simpa using hb⟩

/-- A window (R235): its bounds are in order, it has at most `k` bits, its value is the exponent's bits `i` to `lo`, and it is odd. -/
theorem window_spec (e : List Limb) (i k : Nat) (h : bit e i = true) (hk : 1 ≤ k) :
    (window e i k).1 ≤ i ∧ i - (window e i k).1 + 1 ≤ k ∧
      (window e i k).2 = val e / 2 ^ (window e i k).1 % 2 ^ (i - (window e i k).1 + 1) ∧ (window e i k).2 % 2 = 1 := by
  obtain ⟨h1, h2, h3⟩ := trimLow_spec e (k - 1) (i - (k - 1)) i h (by omega) (by omega)
  have hlo : (window e i k).1 = trimLow e (k - 1) (i - (k - 1)) := rfl
  have hw : (window e i k).2 = bitsVal e (window e i k).1 (i - (window e i k).1 + 1) := rfl
  rw [← hlo] at h1 h2 h3
  refine ⟨h2, by omega, by rw [hw, bitsVal_eq], ?_⟩
  rw [hw, bitsVal, h3]
  simp [flag]

theorem window_lt (e : List Limb) (i k : Nat) (h : bit e i = true) (hk : 1 ≤ k) : (window e i k).2 < 2 ^ k := by
  obtain ⟨-, h2, h3, -⟩ := window_spec e i k h hk
  rw [h3]
  exact lt_of_lt_of_le (Nat.mod_lt _ (Nat.pow_pos (by decide))) (Nat.pow_le_pow_right (by decide) h2)

theorem length_oddTable (c : Context) (x2 n t : Nat) : (oddTable c x2 n t).length = n := by
  induction n generalizing t with
  | zero => rfl
  | succ n ih => simp [oddTable, ih]

/-- The first entry of the table is the base (R236). -/
theorem oddTable_zero (c : Context) (x2 n t : Nat) : (oddTable c x2 (n + 1) t)[0]? = some t := rfl

/-- Each further entry is the one before times `x²` (R236). -/
theorem oddTable_succ (c : Context) (x2 n t j : Nat) (h : j + 1 < n) :
    (oddTable c x2 n t)[j + 1]? = (oddTable c x2 n t)[j]?.map (fun u => mmul c u x2) := by
  induction n generalizing t j with
  | zero => omega
  | succ n ih =>
    cases j with
    | zero =>
      obtain ⟨m, rfl⟩ : ∃ m, n = m + 1 := ⟨n - 1, by omega⟩
      simp [oddTable]
    | succ j =>
      simp only [oddTable, List.getElem?_cons_succ]
      exact ih _ _ (by omega)

end Sys2Proof.Machine
end

