-- ==== Sys2Proof/Laws/Exec.lean ====
section
/-! SUPPORT. What a command can do: its meaning is the completion of its result (R260, R266), what completion does, and when the
operand reads answer. -/

namespace Sys2Proof.Machine

open Sys2Proof

/-- Every meaning is the completion of the command's result on its sources. -/
theorem exec_eq_complete (i : Instr) (s : State) : exec i s = s.complete (result s.cfg i s.sources) := by
  cases i <;> rfl

/-- What completion does, in full (R260): success, failure with one kind, or a refusal. -/
theorem complete_next {s t : State} {r : CmdResult} (h : s.complete r = .next t) :
    (∃ w, r = .ok w ∧ t = s.succeed w) ∨ (∃ e, r = .error (.err e) ∧ t = s.fail e) := by
  match r with
  | .ok w => exact .inl ⟨w, rfl, by simpa [State.complete] using h.symm⟩
  | .error (.err e) => exact .inr ⟨e, rfl, by simpa [State.complete] using h.symm⟩
  | .error (.refuse _) => simp [State.complete] at h

theorem complete_ne_fault (s : State) (r : CmdResult) (f : Fault) : s.complete r ≠ .fault f := by
  match r with
  | .ok w => simp [State.complete]
  | .error (.err e) => simp [State.complete]
  | .error (.refuse _) => simp [State.complete]

/-! ### A command's checks, one after another -/

@[simp] theorem ok_bind {ε α β : Type} (a : α) (f : α → Except ε β) : (Except.ok a >>= f) = f a := rfl
@[simp] theorem error_bind {ε α β : Type} (e : ε) (f : α → Except ε β) : ((Except.error e : Except ε α) >>= f) = .error e := rfl
@[simp] theorem pure_ok {ε α : Type} (a : α) : (pure a : Except ε α) = .ok a := rfl

/-! ### Operand reads: when each answers, and what -/

theorem requireKind_ok {x : Snapshot} {r : RegId} {k : Kind} {u : Unit} :
    requireKind x r k = .ok u ↔ (x.reg r).kind = k := by
  unfold requireKind; split_ifs with h <;> simp [h]

theorem readLimbs_ok {x : Snapshot} {r : RegId} {s : List Limb} : readLimbs x r = .ok s ↔ (x.reg r).seq = some s := by
  unfold readLimbs; cases (x.reg r).seq <;> simp

theorem plain1_ok {x : Snapshot} {a : RegId} {s : List Limb} :
    plain1 x a = .ok s ↔ (x.reg a).kind = .plain ∧ (x.reg a).seq = some s := by
  unfold plain1 requireKind
  by_cases h : (x.reg a).kind = .plain <;> simp [h, readLimbs_ok]

theorem plain2_ok {x : Snapshot} {a b : RegId} {s t : List Limb} : plain2 x a b = .ok (s, t) ↔
    ((x.reg a).kind = .plain ∧ (x.reg b).kind = .plain) ∧ (x.reg a).seq = some s ∧ (x.reg b).seq = some t := by
  unfold plain2 requireKind readLimbs
  by_cases h1 : (x.reg a).kind = .plain <;> by_cases h2 : (x.reg b).kind = .plain <;>
    cases (x.reg a).seq <;> cases (x.reg b).seq <;> simp [h1, h2]

/-- One Plain source fails only with `OperandKind` (R263), or is refused (U2). -/
theorem plain1_error {x : Snapshot} {a : RegId} {e : Stop} (h : plain1 x a = .error e) :
    (e = .err .operandKind ∧ (x.reg a).kind ≠ .plain) ∨ (e = .refuse (.unspecifiedLimb a) ∧ (x.reg a).seq = none) := by
  unfold plain1 requireKind readLimbs at h
  by_cases h1 : (x.reg a).kind = .plain <;> cases ha : (x.reg a).seq <;> simp [h1, ha] at h <;> simp [← h, h1]

/-- Two Plain sources fail only with `OperandKind` (R263), or are refused (U2). -/
theorem plain2_error {x : Snapshot} {a b : RegId} {e : Stop} (h : plain2 x a b = .error e) :
    (e = .err .operandKind ∧ ((x.reg a).kind ≠ .plain ∨ (x.reg b).kind ≠ .plain)) ∨
      ∃ r, (r = a ∨ r = b) ∧ e = .refuse (.unspecifiedLimb r) ∧ (x.reg r).seq = none := by
  unfold plain2 requireKind readLimbs at h
  by_cases h1 : (x.reg a).kind = .plain
  · by_cases h2 : (x.reg b).kind = .plain
    · cases ha : (x.reg a).seq with
      | none => simp [h1, h2, ha] at h; exact .inr ⟨a, .inl rfl, h.symm, ha⟩
      | some s => cases hb : (x.reg b).seq with
        | none => simp [h1, h2, ha, hb] at h; exact .inr ⟨b, .inr rfl, h.symm, hb⟩
        | some t => simp [h1, h2, ha, hb] at h
    · simp [h1, h2] at h; exact .inl ⟨h.symm, .inr h2⟩
  · simp [h1] at h; exact .inl ⟨h.symm, .inl h1⟩

/-- `ctx_of(t)` (R192): the context it answers is in a live slot and has the id. -/
theorem ctxOf_some {x : Snapshot} {t : Word} {c : Context} (h : x.ctxOf t = some c) : some c ∈ x.slots ∧ c.id = t := by
  unfold Snapshot.ctxOf at h
  have h1 := List.mem_of_find?_eq_some h
  have h2 := List.find?_some h
  refine ⟨?_, by simpa using h2⟩
  simpa [List.mem_filterMap] using h1

/-- `ctx_of(t)` (R192): it answers nothing exactly when no live slot has the id. -/
theorem ctxOf_none {x : Snapshot} {t : Word} : x.ctxOf t = none ↔ ∀ c, some c ∈ x.slots → c.id ≠ t := by
  unfold Snapshot.ctxOf
  rw [List.find?_eq_none]
  simp only [List.mem_filterMap, id_eq, exists_eq_right, beq_iff_eq, ne_eq]

end Sys2Proof.Machine
end

