-- ==== Sys2Proof/Laws/Operands.lean ====
section
/-! SUPPORT. When the operand reads of the Montgomery commands answer, and with what they fail (60_exceptions.md R264). -/

namespace Sys2Proof.Machine

open Sys2Proof

theorem requireKind_error {x : Snapshot} {r : RegId} {k : Kind} {e : Stop} :
    requireKind x r k = .error e ↔ (x.reg r).kind ≠ k ∧ e = .err .operandKind := by
  unfold requireKind; split_ifs with h <;> simp [h, eq_comm]

theorem readLimbs_error {x : Snapshot} {r : RegId} {e : Stop} :
    readLimbs x r = .error e ↔ (x.reg r).seq = none ∧ e = .refuse (.unspecifiedLimb r) := by
  unfold readLimbs; cases (x.reg r).seq <;> simp [eq_comm]

theorem liveContext_ok {x : Snapshot} {t : Word} {c : Context} : liveContext x t = .ok c ↔ x.ctxOf t = some c := by
  unfold liveContext; cases x.ctxOf t <;> simp

theorem liveContext_error {x : Snapshot} {t : Word} {e : Stop} :
    liveContext x t = .error e ↔ x.ctxOf t = none ∧ e = .err .contextInvalid := by
  unfold liveContext; cases x.ctxOf t <;> simp [eq_comm]

/-- Where ids are distinct (R38), `ctx_of(t)` answers the one live slot whose id is `t` (R192). -/
theorem ctxOf_of_slotsOk {cfg : Config} {x : Snapshot} (h : SlotsOk cfg x.gen x.slots) {j : Nat} {c : Context}
    (hj : x.slots[j]? = some (some c)) : x.ctxOf c.id = some c := by
  cases hc : x.ctxOf c.id with
  | none => exact absurd rfl (ctxOf_none.1 hc c (List.mem_of_getElem? hj))
  | some d =>
    obtain ⟨hm, hid⟩ := ctxOf_some hc
    obtain ⟨k, hk⟩ := List.getElem?_of_mem hm
    obtain rfl := h.distinct k j d c hk hj hid
    simpa [hk] using hj

theorem mconvOperands_ok {x : Snapshot} {ra : RegId} {ctx : SlotId} {c : Context} {s : List Limb} :
    mconvOperands x ra ctx = .ok (c, s) ↔ (x.reg ra).kind = .plain ∧ x.slot ctx = some c ∧ (x.reg ra).seq = some s := by
  unfold mconvOperands requireKind readLimbs
  by_cases hk : (x.reg ra).kind = .plain <;> cases x.slot ctx <;> cases (x.reg ra).seq <;> simp [hk]

theorem mmulOperands_ok {x : Snapshot} {ra rb : RegId} {c : Context} {s t : List Limb} :
    mmulOperands x ra rb = .ok (c, s, t) ↔ ((x.reg ra).kind = .mont ∧ (x.reg rb).kind = .mont) ∧
      (x.reg ra).tag = (x.reg rb).tag ∧ x.ctxOf (x.reg ra).tag = some c ∧
      (x.reg ra).seq = some s ∧ (x.reg rb).seq = some t := by
  unfold mmulOperands requireKind readLimbs liveContext
  by_cases h1 : (x.reg ra).kind = .mont <;> by_cases h2 : (x.reg rb).kind = .mont <;>
    by_cases h3 : (x.reg ra).tag = (x.reg rb).tag <;> cases x.ctxOf (x.reg ra).tag <;>
    cases (x.reg ra).seq <;> cases (x.reg rb).seq <;> simp [h1, h2, h3]

theorem mpowOperands_ok {x : Snapshot} {ra rb : RegId} {c : Context} {s e : List Limb} :
    mpowOperands x ra rb = .ok (c, s, e) ↔ ((x.reg ra).kind = .mont ∧ (x.reg rb).kind = .plain) ∧
      x.ctxOf (x.reg ra).tag = some c ∧ (x.reg ra).seq = some s ∧ (x.reg rb).seq = some e := by
  unfold mpowOperands requireKind readLimbs liveContext
  by_cases h1 : (x.reg ra).kind = .mont <;> by_cases h2 : (x.reg rb).kind = .plain <;> cases x.ctxOf (x.reg ra).tag <;>
    cases (x.reg ra).seq <;> cases (x.reg rb).seq <;> simp [h1, h2]

theorem moutOperands_ok {x : Snapshot} {ra : RegId} {c : Context} {s : List Limb} :
    moutOperands x ra = .ok (c, s) ↔ (x.reg ra).kind = .mont ∧ x.ctxOf (x.reg ra).tag = some c ∧ (x.reg ra).seq = some s := by
  unfold moutOperands requireKind readLimbs liveContext
  by_cases h1 : (x.reg ra).kind = .mont <;> cases x.ctxOf (x.reg ra).tag <;> cases (x.reg ra).seq <;> simp [h1]

/-- The result of a REDC (R193): `NoModularInverse`, or the canonical sequence of `redcVal`. -/
theorem redc_eq (c : Context) (v : Nat) :
    redc c v = if c.n0odd then .ok (canon (redcVal c v)) else .error (.err .noModularInverse) := by
  unfold redc requireOdd; cases c.n0odd <;> rfl

theorem checkCapacity_eq (max : Nat) (s : List Limb) :
    checkCapacity max s = if s.length ≤ max then .ok () else .error (.err .capacityOverflow) := by
  unfold checkCapacity; split_ifs <;> first | rfl | omega

end Sys2Proof.Machine
end

