-- ==== Sys2Proof/Laws/Engine.lean ====
section
/-! SUPPORT. Engine steps one after another (10_state.md R46), and the forms of a BitCursor's steps (43_exponent.md R233). -/

namespace Sys2Proof.Machine

open Sys2Proof

@[simp] theorem advanceN_zero (cfg : Config) (i : Instr) (x : Snapshot) (sc : Scratch) : Scratch.advanceN cfg i x 0 sc = sc := rfl

theorem advanceN_succ (cfg : Config) (i : Instr) (x : Snapshot) (n : Nat) (sc : Scratch) :
    Scratch.advanceN cfg i x (n + 1) sc = Scratch.advanceN cfg i x n (Scratch.advance cfg i x sc) := rfl

theorem advanceN_add (cfg : Config) (i : Instr) (x : Snapshot) (m n : Nat) (sc : Scratch) :
    Scratch.advanceN cfg i x (m + n) sc = Scratch.advanceN cfg i x n (Scratch.advanceN cfg i x m sc) := by
  induction m generalizing sc with
  | zero => simp
  | succ m ih => rw [Nat.succ_add, advanceN_succ, ih, advanceN_succ]

/-- One step more, at the end. -/
theorem advanceN_succ_last (cfg : Config) (i : Instr) (x : Snapshot) (n : Nat) (sc : Scratch) :
    Scratch.advanceN cfg i x (n + 1) sc = Scratch.advance cfg i x (Scratch.advanceN cfg i x n sc) :=
  advanceN_add cfg i x n 1 sc

/-- An algorithm that has ended stays as it is. -/
@[simp] theorem advanceN_done (cfg : Config) (i : Instr) (x : Snapshot) (n : Nat) (r : CmdResult) :
    Scratch.advanceN cfg i x n (.done r) = .done r := by
  induction n with
  | zero => rfl
  | succ n ih => exact ih

/-- Two ends of one command's engine steps are the same end. -/
theorem advanceN_done_unique {cfg : Config} {i : Instr} {x : Snapshot} {m n : Nat} {sc : Scratch} {r r' : CmdResult}
    (h : Scratch.advanceN cfg i x m sc = .done r) (h' : Scratch.advanceN cfg i x n sc = .done r') : r = r' := by
  have h1 : Scratch.advanceN cfg i x (m + n) sc = .done r := by rw [advanceN_add, h, advanceN_done]
  have h2 : Scratch.advanceN cfg i x (m + n) sc = .done r' := by rw [Nat.add_comm, advanceN_add, h', advanceN_done]
  simpa using h1.symm.trans h2

@[simp] theorem forward_pos (s : List Limb) (c : BitCursor) : (c.forward s).pos = c.pos - 1 := rfl
@[simp] theorem forward_acc (s : List Limb) (c : BitCursor) : (c.forward s).acc = 2 * c.acc + flag (bit s c.pos.toNat) := rfl
@[simp] theorem backward_pos (c : BitCursor) : c.backward.pos = c.pos + 1 := rfl
@[simp] theorem backward_acc (c : BitCursor) : c.backward.acc = c.acc / 2 := rfl

end Sys2Proof.Machine
end

