-- ==== Sys2Proof/Laws/Invariant.lean ====
section
/-! SUPPORT. What the engine and the host write meets the register part of the invariant, and when the other parts carry over. -/

namespace Sys2Proof.Machine

open Sys2Proof

/-- What `plain(s)` writes. -/
theorem regOk_plain {cfg : Config} {gen : Word} {slots : List (Option Context)} {s : List Limb} (h : s.length ≤ cfg.maxLimbs) :
    RegOk cfg gen slots (BigReg.plain s) where
  lenFits := h
  memFits := by simpa [BigReg.plain, Memory.ofSeq] using h
  memWf := wf_ofSeq s
  plainTag := fun _ => rfl
  montValue := by simp [BigReg.plain]

/-- What reset leaves. -/
theorem regOk_reset (cfg : Config) (gen : Word) (slots : List (Option Context)) : RegOk cfg gen slots BigReg.reset where
  lenFits := Nat.zero_le _
  memFits := Nat.zero_le _
  memWf := wf_reset
  plainTag := fun _ => rfl
  montValue := by simp [BigReg.reset]

/-- What `mont(s, t)` writes. -/
theorem regOk_mont {cfg : Config} {gen : Word} {slots : List (Option Context)} {s : List Limb} {t : Word}
    (h : s.length ≤ cfg.maxLimbs) (hc : canonical s = true) (ht : t.toNat < gen.toNat)
    (hn : ∀ (j : Nat) (c : Context), slots[j]? = some (some c) → c.id = t → c.n0odd = true ∧ val s < val c.n) :
    RegOk cfg gen slots (BigReg.mont s t) where
  lenFits := h
  memFits := by simpa [BigReg.mont, Memory.ofSeq] using h
  memWf := wf_ofSeq s
  plainTag := by simp [BigReg.mont]
  montValue := fun _ => ⟨s, seq_mont s t, hc, ht, hn⟩

theorem contextOk_mono {cfg : Config} {gen gen' : Word} {c : Context} (h : ContextOk cfg gen c) (hg : gen.toNat ≤ gen'.toNat) :
    ContextOk cfg gen' c := { h with issued := lt_of_lt_of_le h.issued hg }

/-- `Sound` reads only these fields, when no command is in flight. -/
theorem sound_of_idle {s : State} (h1 : ConfigOk s.cfg) (h2 : SlotsOk s.cfg s.gen s.slots)
    (h3 : ∀ r : RegId, RegOk s.cfg s.gen s.slots (s.reg r)) (h4 : StatusOk s.status) (h5 : s.flight = none) : Sound s :=
  ⟨h1, h2, h3, h4, by simp [h5]⟩

/-- The same block with other inputs, reply and count of free values. -/
theorem sound_congr {s : State} (h : Sound s) (i : List Input) (r : Option Word) (d : Nat) (b : Bool) :
    Sound { s with inputs := i, reply := r, draws := d, lost := b } :=
  ⟨h.config, h.slots, h.regs, h.status, fun f hf =>
    let g := h.flight f hf
    ⟨g.wordIs, g.regsKept, g.slotsKept, g.genKept, g.errClear, g.scratchReached⟩⟩

end Sys2Proof.Machine
end

