-- ==== Sys2Proof/Laws/PerInstr.lean ====
section
/-! SUPPORT. The per-instruction family `OpcodeField`: the opcode field of a command's encoding is the command's row of 30_encoding.md
R104, whatever its operands. -/

namespace Sys2Proof.Laws.OpcodeField

open Sys2Proof

/-- Bits 31:24 of the encoding are the opcode, and bits 3:0 are 0 (R101, R104). -/
def Statement (i : Instr) : Prop := opOf (encode i) = i.opcode ∧ resOf (encode i) = 0

/-- The two fields of an assembled word that no operand reaches. -/
theorem pack_fields (op : Nat) (h : op < 256) (rd ra rb rc : RegId) (ctx : SlotId) :
    opOf (pack op rd ra rb rc ctx) = op ∧ resOf (pack op rd ra rb rc ctx) = 0 := by
  have h1 := rd.isLt; have h2 := ra.isLt; have h3 := rb.isLt; have h4 := rc.isLt; have h5 := ctx.isLt
  constructor
  · simp only [opOf, field, pack, BitVec.toNat_ofNat]; omega
  · apply Fin.ext; simp only [resOf, field4, pack, BitVec.toNat_ofNat, Fin.val_zero]; omega

theorem opcode_lt (i : Instr) : i.opcode < 256 := by cases i <;> simp [Instr.opcode]

theorem add (rd ra rb : RegId) : Statement (.add rd ra rb) := pack_fields _ (opcode_lt _) _ _ _ _ _
theorem sub (rd ra rb : RegId) : Statement (.sub rd ra rb) := pack_fields _ (opcode_lt _) _ _ _ _ _
theorem mul (rd ra rb : RegId) : Statement (.mul rd ra rb) := pack_fields _ (opcode_lt _) _ _ _ _ _
theorem divmod (rd rc ra rb : RegId) : Statement (.divmod rd rc ra rb) := pack_fields _ (opcode_lt _) _ _ _ _ _
theorem cmp (ra rb : RegId) : Statement (.cmp ra rb) := pack_fields _ (opcode_lt _) _ _ _ _ _
theorem trim (rd ra : RegId) : Statement (.trim rd ra) := pack_fields _ (opcode_lt _) _ _ _ _ _
theorem mov (rd ra : RegId) : Statement (.mov rd ra) := pack_fields _ (opcode_lt _) _ _ _ _ _
theorem mctx (ctx : SlotId) (ra : RegId) : Statement (.mctx ctx ra) := pack_fields _ (opcode_lt _) _ _ _ _ _
theorem mconv (rd ra : RegId) (ctx : SlotId) : Statement (.mconv rd ra ctx) := pack_fields _ (opcode_lt _) _ _ _ _ _
theorem mmul (rd ra rb : RegId) : Statement (.mmul rd ra rb) := pack_fields _ (opcode_lt _) _ _ _ _ _
theorem mpow (rd ra rb : RegId) : Statement (.mpow rd ra rb) := pack_fields _ (opcode_lt _) _ _ _ _ _
theorem mout (rd ra : RegId) : Statement (.mout rd ra) := pack_fields _ (opcode_lt _) _ _ _ _ _

end Sys2Proof.Laws.OpcodeField
end

