-- ==== Sys2Proof/Laws/Result.lean ====
section
/-! SUPPORT. Said once: what a successful command can write (10_state.md R34), and what one step of a powered block can do. -/

namespace Sys2Proof.Machine

open Sys2Proof

/-- Everything a command that succeeds can write (R34): one of its destination registers, Mont only where it may (R35); DIVMOD's two
destinations; `STATUS.CMP`; or a slot, where the id does not wrap (R38). -/
theorem result_writes {cfg : Config} {i : Instr} {x : Snapshot} {w : Writes} (h : result cfg i x = .ok w) :
    (∃ rd v, w = .reg rd v ∧ rd ∈ i.dests ∧ (v.kind = .mont → i.mayWriteMont = true)) ∨
    (∃ rd q rc r, w = .quotRem rd q rc r ∧ rd ∈ i.dests ∧ rc ∈ i.dests ∧ q.kind = .plain ∧ r.kind = .plain) ∨
    (∃ c, w = .cmp c ∧ i.writesCmp = true ∧ ∃ ra rb, i = .cmp ra rb) ∨
    (∃ ctx c ra, w = .slot ctx c ∧ i = .mctx ctx ra ∧ x.gen ≠ 0xFFFFFFFF#32) := by
  cases i with
  | add rd ra rb =>
    simp only [result, addResult] at h
    cases hp : plain2 x ra rb with
    | error e => simp [hp] at h
    | ok p =>
      obtain ⟨s, t⟩ := p
      simp [hp, checkCapacity_eq] at h
      split_ifs at h <;> simp at h
      exact .inl ⟨rd, _, h.symm, by simp [Instr.dests], by simp [BigReg.plain]⟩
  | sub rd ra rb =>
    simp only [result, subResult] at h
    cases hp : plain2 x ra rb with
    | error e => simp [hp] at h
    | ok p =>
      obtain ⟨s, t⟩ := p
      simp [hp] at h
      split at h <;> simp at h
      exact .inl ⟨rd, _, h.symm, by simp [Instr.dests], by simp [BigReg.plain]⟩
  | mul rd ra rb =>
    simp only [result, mulResult] at h
    cases hp : plain2 x ra rb with
    | error e => simp [hp] at h
    | ok p =>
      obtain ⟨s, t⟩ := p
      simp [hp, checkCapacity_eq] at h
      split_ifs at h <;> simp at h
      exact .inl ⟨rd, _, h.symm, by simp [Instr.dests], by simp [BigReg.plain]⟩
  | divmod rd rc ra rb =>
    simp only [result, divmodResult] at h
    cases hp : plain2 x ra rb with
    | error e => simp [hp] at h
    | ok p =>
      obtain ⟨s, t⟩ := p
      simp [hp] at h
      split at h <;> simp at h
      exact .inr (.inl ⟨rd, _, rc, _, h.symm, by simp [Instr.dests], by simp [Instr.dests], rfl, rfl⟩)
  | cmp ra rb =>
    simp only [result, cmpResult] at h
    cases hp : plain2 x ra rb with
    | error e => simp [hp] at h
    | ok p =>
      obtain ⟨s, t⟩ := p
      simp [hp] at h
      exact .inr (.inr (.inl ⟨_, h.symm, rfl, ra, rb, rfl⟩))
  | trim rd ra =>
    simp only [result, trimResult] at h
    cases hp : plain1 x ra with
    | error e => simp [hp] at h
    | ok s =>
      simp [hp] at h
      exact .inl ⟨rd, _, h.symm, by simp [Instr.dests], by simp [BigReg.plain]⟩
  | mov rd ra =>
    simp only [result, movResult] at h
    cases hp : readLimbs x ra with
    | error e => simp [hp] at h
    | ok s =>
      cases hk : (x.reg ra).kind <;> simp [hp, hk] at h
      · exact .inl ⟨rd, _, h.symm, by simp [Instr.dests], by simp [BigReg.plain]⟩
      · exact .inl ⟨rd, _, h.symm, by simp [Instr.dests], by simp [Instr.mayWriteMont]⟩
  | mctx ctx ra =>
    simp only [result, mctxResult] at h
    cases hp : plain1 x ra with
    | error e => simp [hp] at h
    | ok s =>
      simp [hp] at h
      split at h
      · simp at h
      unfold mctxCommit at h
      split_ifs at h with hg
      simp at h
      exact .inr (.inr (.inr ⟨ctx, _, ra, h.symm, rfl, hg⟩))
  | mconv rd ra ctx =>
    simp only [result, mconvResult] at h
    cases hp : mconvOperands x ra ctx with
    | error e => simp [hp] at h
    | ok p =>
      obtain ⟨c, s⟩ := p
      simp [hp, redc_eq] at h
      split_ifs at h <;> simp [Dest.write] at h
      exact .inl ⟨rd, _, h.symm, by simp [Instr.dests], by simp [Instr.mayWriteMont]⟩
  | mmul rd ra rb =>
    simp only [result, mmulResult] at h
    cases hp : mmulOperands x ra rb with
    | error e => simp [hp] at h
    | ok p =>
      obtain ⟨c, s, t⟩ := p
      simp [hp, redc_eq] at h
      split_ifs at h <;> simp [Dest.write] at h
      exact .inl ⟨rd, _, h.symm, by simp [Instr.dests], by simp [Instr.mayWriteMont]⟩
  | mpow rd ra rb =>
    simp only [result, mpowResult] at h
    cases hp : mpowOperands x ra rb with
    | error e => simp [hp] at h
    | ok p =>
      obtain ⟨c, s, t⟩ := p
      simp [hp] at h
      cases hv : mpowCore cfg c (val s) t with
      | error e => simp [hv] at h
      | ok v =>
        simp [hv, Dest.write] at h
        exact .inl ⟨rd, _, h.symm, by simp [Instr.dests], by simp [Instr.mayWriteMont]⟩
  | mout rd ra =>
    simp only [result, moutResult] at h
    cases hp : moutOperands x ra with
    | error e => simp [hp] at h
    | ok p =>
      obtain ⟨c, s⟩ := p
      simp [hp, redc_eq] at h
      split_ifs at h <;> simp [Dest.write] at h
      exact .inl ⟨rd, _, h.symm, by simp [Instr.dests], by simp [BigReg.plain]⟩

/-- The block with the next input taken. -/
def State.popped (s : State) : State := { s with inputs := s.inputs.tail }

/-- Everything one step of a powered block `s` can do: the state it leaves. -/
inductive Stepped (s : State) : State → Prop
  /-- An engine turn of an idle block, or a write of `STATUS` without bit 2. -/
  | idle : Stepped s s.popped
  /-- A served read. -/
  | read (off : Nat) : Stepped s (s.popped.hostRead off)
  /-- A rejected write. -/
  | reject : Stepped s s.popped.reject
  /-- `ACCERR` cleared. -/
  | clear : Stepped s { s.popped with status := { s.status with accErr := false } }
  /-- A command accepted. -/
  | accept (w : Word) (i : Instr) : s.flight = none → decode s.cfg.nctx w = some i → Stepped s (s.popped.accept w)
  /-- An illegal word accepted and completed. -/
  | illegal (w : Word) : s.flight = none → decode s.cfg.nctx w = none → Stepped s ((s.popped.accept w).fail .illegalCommand)
  /-- `LEN` written. -/
  | len (r : RegId) (v : Word) : s.flight = none → v.toNat ≤ s.cfg.maxLimbs →
      Stepped s (s.popped.setReg r { s.reg r with len := v.toNat, kind := .plain, tag := 0 })
  /-- A limb word written. -/
  | limbs (r : RegId) (j : Nat) (v : Word) : s.flight = none → j < s.cfg.maxLimbs / 2 → Stepped s (s.popped.hostLimbs r j v)
  /-- The command in flight completed, with its result or with the end its engine steps came to. -/
  | complete (f : Flight) (i : Instr) (r : CmdResult) (t : State) : s.flight = some f → decode s.cfg.nctx f.word = some i →
      r = result s.cfg i f.snap ∨ f.scratch = .done r → s.popped.complete r = .next t → Stepped s t
  /-- A command in flight whose word does not decode, which acceptance never leaves. -/
  | stray (f : Flight) : s.flight = some f → decode s.cfg.nctx f.word = none → Stepped s (s.popped.fail .illegalCommand)
  /-- One engine step. -/
  | engine (f : Flight) (i : Instr) : s.flight = some f → decode s.cfg.nctx f.word = some i →
      Stepped s { s.popped with flight := some { f with scratch := f.scratch.advance s.cfg i f.snap } }
  /-- Reset. -/
  | reset : s.inputs.head? = some .reset → Stepped s s.popped.hardReset
  /-- Loss of power. -/
  | power : Stepped s s.popped.powerOff

theorem stepped_finish {s u t : State} (hu : u = s.popped) (h : u.finish = .next t) : Stepped s t := by
  subst hu
  unfold State.finish at h
  split at h
  · obtain rfl : s.popped = t := by simpa using h
    exact .idle
  · rename_i f hf
    split at h
    · rename_i hd
      obtain rfl : s.popped.fail .illegalCommand = t := by simpa using h
      exact .stray f hf hd
    · rename_i i hd
      rw [exec_eq_complete, sources_of_flight hf] at h
      exact .complete f i _ t hf hd (.inl rfl) h

theorem stepped_engine {s t : State} (h : s.popped.engineStep = .next t) : Stepped s t := by
  unfold State.engineStep at h
  split at h
  · obtain rfl : s.popped = t := by simpa using h
    exact .idle
  · rename_i f hf
    split at h
    · rename_i hd
      obtain rfl : s.popped.fail .illegalCommand = t := by simpa using h
      exact .stray f hf hd
    · rename_i i hd
      split at h
      · rename_i r hr
        exact .complete f i r t hf hd (.inr hr) h
      · have h' : { s.popped with flight := some { f with scratch := f.scratch.advance s.cfg i f.snap } } = t :=
          Host.Outcome.next.inj h
        exact h' ▸ .engine f i hf hd

theorem place_limbWord_lt {cfg : Config} {off j : Nat} {r : RegId} (h : place cfg off = .limbWord r j) : j < cfg.maxLimbs / 2 := by
  unfold place controlPlace registerPlace at h
  split_ifs at h with h1 h2 h3 h4 h5 h6 h7 h8 h9 h10 h11
  all_goals simp at h
  obtain ⟨-, rfl⟩ := h
  omega

theorem stepped_write (s : State) (off : Nat) (v : Word) : Stepped s (s.popped.hostWrite off v) := by
  unfold State.hostWrite
  obtain h | ⟨-, hb, hd, h⟩ | ⟨-, hb, hd, h⟩ | ⟨-, h⟩ | ⟨r, -, hb, hv, h⟩ | ⟨r, j, hp, hb, h⟩ :=
    writePlace_cases s.popped (decode s.popped.cfg.nctx v).isSome (place s.popped.cfg off) v
  · exact h ▸ .reject
  · obtain ⟨i, hi⟩ := Option.isSome_iff_exists.1 hd
    exact h ▸ .accept v i (by simpa [State.busy, State.popped] using hb) hi
  · exact h ▸ .illegal v (by simpa [State.busy, State.popped] using hb) (by simpa [State.popped] using hd)
  · rw [h]
    unfold State.hostStatus
    split_ifs
    · exact .clear
    · exact .idle
  · exact h ▸ .len r v (by simpa [State.busy, State.popped] using hb) hv
  · exact h ▸ .limbs r j v (by simpa [State.busy, State.popped] using hb) (place_limbWord_lt hp)

/-- Every step of a powered block is one of these. -/
theorem step_cases {s t : State} (hl : s.lost = false) (h : step s = .next t) : Stepped s t := by
  cases hi : s.inputs with
  | nil =>
    rw [step_nil hl hi] at h
    exact stepped_finish (by simp [State.popped, hi]; rw [← hi]) h
  | cons inp rest =>
    have hp : { s with inputs := rest } = s.popped := by simp [State.popped, hi]
    rw [step_cons hl hi, hp] at h
    cases inp with
    | read addr width =>
      obtain ⟨off, -, rfl⟩ := serveRead_next h
      exact .read off
    | write addr width v =>
      obtain ⟨off, -, rfl⟩ := serveWrite_next h
      exact stepped_write s off v
    | engine => exact stepped_engine h
    | finish => exact stepped_finish rfl h
    | reset =>
      obtain rfl : s.popped.hardReset = t := by simpa [State.serve] using h
      exact .reset (by simp [hi])
    | powerLoss =>
      obtain rfl : s.popped.powerOff = t := by simpa [State.serve] using h
      exact .power

end Sys2Proof.Machine
end

