-- ==== Sys2Proof/Tests/Slice0.lean ====
section
/-! SUPPORT. The model's own tests: the words of 30_encoding.md written out bit by bit, one step per command with the results of
95_test_vectors.md, host accesses of its table H, and for each statement of Certificates/Slice0/Obligations.lean a concrete state
and operands that meet its hypotheses (theorems `witness_…`). -/

namespace Sys2Proof.Tests

open Sys2Proof Sys2Proof.Machine

/-! ### Small states -/

/-- The next state, or reset where there is none. -/
def after (o : Host.Outcome State Fault Refusal) : State :=
  match o with
  | .next t => t
  | .fault _ => State.reset
  | .refused _ => State.reset

/-- The reset block with these registers. -/
def put (rs : List (RegId × BigReg)) : State := rs.foldl (fun s p => s.setReg p.1 p.2) State.reset

/-- The reset block with Plain values in r0 and r1. -/
def two (a b : List Limb) : State := put [(0, BigReg.plain a), (1, BigReg.plain b)]

/-- The reset block of the smallest capacity, with Plain values in r0 and r1. -/
def twoSmall (a b : List Limb) : State := { two a b with cfg := { Config.reference with maxLimbs := 2 } }

/-- Slot 0 of vector X1: `N = 97`. -/
def ctx97 : Context := { id := 0, n := [0x0061], l := 1, cf := 35, n0odd := true, ninv := 0x5C5F }

/-- Vector X7: `N = 98`, even; `NINV` is any value. -/
def ctx98 : Context := { id := 0, n := [0x0062], l := 1, cf := 0x58, n0odd := false, ninv := 0 }

/-- The block of the vectors C and P: slot 0 is X1, r0 the modulus, r1 = 5, r2 the Montgomery form of 5, r3 = 3. -/
def good : State :=
  { put [(0, BigReg.plain [0x0061]), (1, BigReg.plain [0x0005]), (2, BigReg.mont [0x000E] 0), (3, BigReg.plain [0x0003])] with
    slots := [some ctx97, none, none, none], gen := 1 }

/-- `good` with an accepted command and these inputs next. -/
def busy (i : Instr) (inputs : List Input) : State := { good.accept (encode i) with inputs := inputs }

/-- A busy block whose engine has finished the algorithm of `mout r5, r2`, which is two steps after the one that reads the operands. -/
def busyDone : State :=
  { good with
    lastCmd := encode (.mout 5 2)
    flight := some ⟨encode (.mout 5 2), good.snapshot, .done (.ok (.reg 5 (BigReg.plain [0x0005])))⟩
    inputs := [.engine] }

/-! ### Well-formedness (R105, R106): each check refuses an ill-formed command -/

theorem test_wf_divmod_same_destinations : Instr.wf 4 (.divmod 2 2 0 1) = false := by decide
theorem test_wf_mctx_slot_out_of_range : Instr.wf 4 (.mctx 4 0) = false := by decide
theorem test_wf_mconv_slot_out_of_range : Instr.wf 4 (.mconv 2 0 4) = false := by decide
theorem test_wf_divmod : Instr.wf 4 (.divmod 2 3 0 1) = true := by decide
theorem test_wf_mctx_last_slot : Instr.wf 4 (.mctx 3 0) = true := by decide

/-! ### Decoding: op, rd, ra, rb, rc, ctx, res, written out from R101 and R104 -/

theorem test_decode_add : decode 4 0b00000001_0010_0000_0001_0000_0000_0000#32 = some (.add 2 0 1) := by decide
theorem test_decode_sub : decode 4 0b00000010_0101_0010_0011_0000_0000_0000#32 = some (.sub 5 2 3) := by decide
theorem test_decode_mul : decode 4 0b00000011_0111_0011_1111_0000_0000_0000#32 = some (.mul 7 3 15) := by decide
theorem test_decode_divmod : decode 4 0b00000100_0010_0000_0001_0011_0000_0000#32 = some (.divmod 2 3 0 1) := by decide
theorem test_decode_cmp : decode 4 0b00000101_0000_0100_1000_0000_0000_0000#32 = some (.cmp 4 8) := by decide
theorem test_decode_trim : decode 4 0b00000110_0110_0100_0000_0000_0000_0000#32 = some (.trim 6 4) := by decide
theorem test_decode_mov : decode 4 0b00000111_0101_0011_0000_0000_0000_0000#32 = some (.mov 5 3) := by decide
theorem test_decode_mctx : decode 4 0b00010000_0000_1001_0000_0000_0001_0000#32 = some (.mctx 1 9) := by decide
theorem test_decode_mconv : decode 4 0b00010001_0011_0001_0000_0000_0010_0000#32 = some (.mconv 3 1 2) := by decide
theorem test_decode_mmul : decode 4 0b00010010_0011_0010_0001_0000_0000_0000#32 = some (.mmul 3 2 1) := by decide
theorem test_decode_mpow : decode 4 0b00010011_0100_0010_0011_0000_0000_0000#32 = some (.mpow 4 2 3) := by decide
theorem test_decode_mout : decode 4 0b00010100_0100_0011_0000_0000_0000_0000#32 = some (.mout 4 3) := by decide

/-- The table of illegal words in 95_test_vectors.md. -/
theorem test_decode_illegal : [0x00000000#32, 0x08000000#32, 0xFF000000#32, 0x01000001#32, 0x01000100#32, 0x04200200#32].all
    (fun w => decode 4 w == none) = true := by decide
theorem test_decode_illegal_fields : [0x10000040#32, 0x11200040#32, 0x12000010#32, 0x05100000#32, 0x06101000#32, 0x10100000#32].all
    (fun w => decode 4 w == none) = true := by decide

/-- The words of program P1, as its table gives them. -/
theorem test_encode_program : encode (.add 3 0 1) = 0x01301000#32 ∧ encode (.sub 4 3 2) = 0x02432000#32 ∧
    encode (.cmp 4 0) = 0x05040000#32 ∧ encode (.trim 6 4) = 0x06640000#32 ∧ encode (.mul 7 3 3) = 0x03733000#32 :=
  ⟨by decide, by decide, by decide, by decide, by decide⟩

theorem test_encode_msqr : encode (.msqr 4 2) = 0x12422000#32 := by decide

/-! ### One step per command (95_test_vectors.md L2) -/

/-- A3. -/
theorem test_add_carry_ripples : (after (exec (.add 2 0 1) (two [0xFFFF, 0xFFFF] [0x0001]))).reg 2 = BigReg.plain [0, 0, 1] := by
  decide
/-- A6, on the smallest block: the carry out does not fit. -/
theorem test_add_capacity : (after (exec (.add 2 0 1) (twoSmall [0xFFFF, 0xFFFF] [0x0001]))).statusWord = 0x00000902#32 := by decide
/-- S3. -/
theorem test_sub_borrow : (after (exec (.sub 2 0 1) (two [0x0000, 0x0001] [0x0001]))).reg 2 = BigReg.plain [0xFFFF, 0] := by decide
/-- S2. -/
theorem test_sub_underflow : (after (exec (.sub 2 0 1) (two [0x0005] [0x0011]))).statusWord = 0x00000302#32 := by decide
/-- M4. -/
theorem test_mul : (after (exec (.mul 2 0 1) (two [0x5678, 0x1234] [0x9ABC]))).reg 2 = BigReg.plain [0xB020, 0xDA73, 0x0B00] := by
  decide
/-- M2. -/
theorem test_mul_empty : (after (exec (.mul 2 0 1) (two [] [0xFFFF]))).reg 2 = BigReg.plain [] := by decide
/-- D2: quotient and remainder. -/
theorem test_divmod : let t := after (exec (.divmod 2 3 0 1) (two [0x2345, 0x0001] [0x0003]))
    t.reg 2 = BigReg.plain [0x6117, 0] ∧ t.reg 3 = BigReg.plain [0, 0] := by decide
/-- D3. -/
theorem test_divmod_by_zero : (after (exec (.divmod 2 3 0 1) (two [0x0005] [0, 0]))).statusWord = 0x00000402#32 := by decide
/-- K1. -/
theorem test_cmp_greater : (after (exec (.cmp 0 1) (two [0x0000, 0x0001] [0xFFFF]))).statusWord = 0x00000010#32 := by decide
/-- K3. -/
theorem test_cmp_less_untrimmed : (after (exec (.cmp 0 1) (two [0x0003] [0x0004, 0, 0]))).statusWord = 0x00000008#32 := by decide
/-- T1. -/
theorem test_trim : (after (exec (.trim 1 0) (two [0x0005, 0, 0] []))).reg 1 = BigReg.plain [0x0005] := by decide
/-- T3. -/
theorem test_mov_plain : (after (exec (.mov 1 0) (two [0x0007] []))).reg 1 = BigReg.plain [0x0007] := by decide
/-- T4: the tag is kept. -/
theorem test_mov_mont : (after (exec (.mov 5 3) (put [(3, BigReg.mont [0x000E] 1)]))).reg 5 = BigReg.mont [0x000E] 1 := by decide
/-- X1. -/
theorem test_mctx : let t := after (exec (.mctx 0 0) (two [0x0061] []))
    t.slots[0]? = some (some ctx97) ∧ t.gen = 1 := by decide
/-- X3: two limbs. -/
theorem test_mctx_two_limbs : (after (exec (.mctx 0 0) (two [0xFFFB, 0xFFFF] []))).slots[0]? =
    some (some { id := 0, n := [0xFFFB, 0xFFFF], l := 2, cf := 0x19, n0odd := true, ninv := 0xCCCD }) := by decide
/-- C5. -/
theorem test_mconv_reduces : (after (exec (.mconv 2 1 0) (good.setReg 1 (BigReg.plain [0x0064])))).reg 2 = BigReg.mont [0x0056] 0 := by
  decide
/-- C14: an even modulus. -/
theorem test_mconv_even : (after (exec (.mconv 2 1 0) { good with slots := [some ctx98, none, none, none] })).statusWord =
    0x00000502#32 := by decide
/-- C8. -/
theorem test_mmul : (after (exec (.mmul 3 2 2) good)).reg 3 = BigReg.mont [0x0046] 0 := by decide
/-- Program P5, command 5: equal moduli, different instances. -/
theorem test_mmul_mismatch : (after (exec (.mmul 4 2 3)
    { good.setReg 3 (BigReg.mont [0x000E] 1) with slots := [some ctx97, some { ctx97 with id := 1 }, none, none], gen := 2 })).statusWord
    = 0x00000602#32 := by decide
/-- P1: 5 to the power 3. -/
theorem test_mpow : (after (exec (.mpow 4 2 3) good)).reg 4 = BigReg.mont [0x003B] 0 := by decide
/-- P7: three windows. -/
theorem test_mpow_three_windows : (after (exec (.mpow 4 2 3) (good.setReg 3 (BigReg.plain [0x0025])))).reg 4 = BigReg.mont [0x0015] 0 := by
  decide +kernel
/-- C10. -/
theorem test_mout : (after (exec (.mout 5 2) good)).reg 5 = BigReg.plain [0x0005] := by decide
/-- Program P5, command 8: the context was replaced. -/
theorem test_mout_stale : (after (exec (.mout 5 2) { good with slots := [some { ctx97 with id := 2 }, none, none, none], gen := 3
    })).statusWord = 0x00000802#32 := by decide

/-! ### The functions inside the commands -/

/-- Scenario 4 of L1 as the block has it. -/
theorem test_inverse_of_three : invB 3 = some 0xAAAB := by decide
/-- R191's corner: an even limb has none. -/
theorem test_inverse_of_even : invB 0x0062 = none := by decide
/-- The thresholds of `WINDOW_SIZE` (95_test_vectors.md). -/
theorem test_window_sizes_one_limb : [0, 1, 8, 9, 24, 25, 69].map windowRef = [1, 1, 1, 2, 2, 3, 3] := by decide +kernel
theorem test_window_sizes_more_limbs : windowRef 70 = 4 ∧ windowRef 196 = 4 ∧ windowRef 197 = 5 ∧ windowRef 538 = 5 ∧
    windowRef 539 = 6 :=
  ⟨by decide +kernel, by decide +kernel, by decide +kernel, by decide +kernel, by decide +kernel⟩
/-- P7's windows `(i, lo, w)`. -/
theorem test_windows : [5, 2, 0].map (fun i => window [0x0025] i 2) = [(5, 1), (2, 1), (0, 1)] := by decide
/-- A window that is trimmed, formed with a BitCursor (P6, bit 3). -/
theorem test_cursor_window : cursorWindow [0x000A] 3 2 = (3, 1) := by decide
/-- The division engine, one subtraction after another (D1: 100 by 7). -/
theorem test_divmod_by_subtraction : divmodSeq [0x0064] [0x0007] = some ([0x000E], [0x0002]) := by decide

/-! ### A step -/

/-- `withFetchWord` places a command that the very next step runs (A2). -/
theorem test_step_runs_placed_word : (after (step ((two [0xFFFF] [1]).withFetchWord 32 0x01201000))).reg 2 = BigReg.plain [0, 1] := by
  decide
/-- The placed command is also the first that runs after reset (D5, with both operands empty: the divisor is zero). -/
theorem test_step_runs_first_word : (after (step (State.reset.withFetchWord 32 0x04201300))).statusWord = 0x00000402#32 := by decide
theorem test_decode_table_word : decodeTableWord 32 0x13423000 = some (.mpow 4 2 3) := by decide
/-- An illegal word (95_test_vectors.md, Decoding). -/
theorem test_illegal_command : let t := after (step { State.reset with inputs := [.write 0 4 0x04200200#32] })
    t.statusWord = 0x00000102#32 ∧ t.errCmd = 0x04200200#32 := by decide
/-- The engine completes a command it has finished, as C10 gives it. -/
theorem test_engine_completes : (after (step busyDone)).reg 5 = BigReg.plain [0x0005] := by decide
/-- H1. -/
theorem test_write_len : ((after (step { State.reset with inputs := [.write 0x1000 4 3#32] })).reg 0).len = 3 := by decide
/-- H2. -/
theorem test_write_len_too_large : (after (step { State.reset with inputs := [.write 0x1000 4 257#32] })).statusWord = 4#32 := by decide
/-- H3. -/
theorem test_write_limbs : ((after (step { State.reset with inputs := [.write 0x1800 4 0x00010002#32] })).reg 0).mem =
    [some 0x0002, some 0x0001] := by decide
/-- H4. -/
theorem test_read_limbs : (after (step { two [0x5678, 0x1234] [] with inputs := [.read 0x1800 4] })).reply = some 0x12345678#32 := by decide
/-- H5. -/
theorem test_clear_accerr : (after (step { State.reset.reject with inputs := [.write 4 4 4#32] })).statusWord = 0 := by decide
/-- H6. -/
theorem test_write_kind : (after (step { State.reset with inputs := [.write 0x1004 4 1#32] })).statusWord = 4#32 := by decide
/-- H7. -/
theorem test_write_cmd_while_busy : let t := after (step (busy (.mout 5 2) [.write 0 4 0x01201000#32]))
    t.statusWord = 5#32 ∧ t.lastCmd = encode (.mout 5 2) := by decide
/-- H8. -/
theorem test_read_unmapped : (after (step { State.reset with inputs := [.read 0x0F0 4] })).reply = some 0 := by decide
/-- H9. -/
theorem test_read_config : (after (step { State.reset with inputs := [.read 0x00C 4] })).reply = some 0x04100100#32 := by decide
/-- `CTXINFO[0]` after X1. -/
theorem test_read_ctxinfo : [0x100, 0x104, 0x108, 0x10C].map (fun a => (after (step { good with inputs := [.read a 4] })).reply) =
    [some 3#32, some 0, some 1, some 0] := by decide
/-- H10. -/
theorem test_reset : let t := after (step { busy (.mout 5 2) [.reset] with errCmd := 1#32 })
    t.statusWord = 0 ∧ t.gen = 0 ∧ t.errCmd = 0 ∧ (t.reg 2).len = 0 ∧ t.slots = [none, none, none, none] := by decide
theorem test_asm : (Instr.divmod 2 3 0 1).asm = "divmod r2, r3, r0, r1" := by decide
/-- The host's `wlimbs` of an odd number of limbs. -/
theorem test_wlimbs : wlimbs Config.reference 0 [1, 2, 3] = [.write 0x1800 4 0x00020001#32, .write 0x1804 4 3#32] := by decide

/-! ### The invariant on `good` -/

theorem windowRef_pos (n : Nat) : 1 ≤ windowSize Config.reference n := by
  have h : ∀ fuel k : Nat, k ≤ windowSearch n fuel k := by
    intro fuel
    induction fuel with
    | zero => exact fun k => Nat.le_refl k
    | succ f ih =>
      intro k
      unfold windowSearch
      split_ifs
      · exact Nat.le_of_succ_le (ih (k + 1))
      · exact Nat.le_refl k
  exact h n 1

theorem reference_ok : ConfigOk Config.reference where
  maxEven := by decide
  maxRange := by decide
  nctxRange := by decide
  windowPos := windowRef_pos
  windowMax := by decide +kernel

theorem ctx97_ok : ContextOk Config.reference 1 ctx97 := by constructor <;> decide

theorem good_slots : SlotsOk Config.reference 1 good.slots where
  count := rfl
  each j c h := by
    match j, h with
    | 0, h => obtain rfl : ctx97 = c := by simpa [good] using h
              exact ctx97_ok
    | 1, h => simp [good] at h
    | 2, h => simp [good] at h
    | 3, h => simp [good] at h
    | j + 4, h => simp [good] at h
  distinct j k c d hj hk _ := by
    have only : ∀ (j : Nat) (c : Context), good.slots[j]? = some (some c) → j = 0 := by
      intro j c h
      match j, h with
      | 0, _ => rfl
      | 1, h => simp [good] at h
      | 2, h => simp [good] at h
      | 3, h => simp [good] at h
      | j + 4, h => simp [good] at h
    rw [only j c hj, only k d hk]

theorem good_regs (r : RegId) : RegOk Config.reference 1 good.slots (good.reg r) := by
  have h2 : RegOk Config.reference 1 good.slots (BigReg.mont [0x000E] 0) :=
    regOk_mont (by decide) (by decide) (by decide) (fun j c h _ => by
      have := (good_slots.each j c h)
      match j, h with
      | 0, h => obtain rfl : ctx97 = c := by simpa [good] using h
                decide
      | 1, h => simp [good] at h
      | 2, h => simp [good] at h
      | 3, h => simp [good] at h
      | j + 4, h => simp [good] at h)
  fin_cases r
  · exact regOk_plain (s := [0x0061]) (by decide)
  · exact regOk_plain (s := [0x0005]) (by decide)
  · exact h2
  · exact regOk_plain (s := [0x0003]) (by decide)
  all_goals exact regOk_reset _ _ _

theorem good_status : StatusOk good.status := by constructor <;> decide

theorem good_sound : Sound good := sound_of_idle reference_ok good_slots good_regs good_status rfl

/-- An accepted command in `good`. -/
theorem busy_sound {i : Instr} (h : decode 4 (encode i) = some i) (inputs : List Input) : Sound (busy i inputs) where
  config := reference_ok
  slots := good_slots
  regs := good_regs
  status := good_status
  flight f hf := by
    obtain rfl : (⟨encode i, good.snapshot, .start⟩ : Flight) = f := by simpa [busy, State.accept] using hf
    exact ⟨rfl, rfl, rfl, rfl, rfl, i, 0, h, rfl⟩

theorem busyDone_sound : Sound busyDone where
  config := reference_ok
  slots := good_slots
  regs := good_regs
  status := ⟨by decide, by decide, by decide⟩
  flight f hf := by
    obtain rfl : (⟨encode (.mout 5 2), good.snapshot, .done (.ok (.reg 5 (BigReg.plain [0x0005])))⟩ : Flight) = f := by
      simpa [busyDone] using hf
    exact ⟨rfl, rfl, rfl, rfl, rfl, .mout 5 2, 3, by decide, by decide⟩

/-! ### Witnesses: for each statement with hypotheses, a state and operands that meet all of them, clause by clause -/

/-- `s` with one input next. -/
def served (s : State) (i : Input) : State := { s with inputs := [i] }

theorem witness_DecodeOfEncode : Instr.wf 4 (.divmod 15 0 15 15) = true ∧ Instr.wf 4 (.mctx 3 15) = true := by decide

theorem witness_EncodeOfDecode : decode 4 0x11F0F030#32 = none ∧ decode 4 0x11FF0030#32 = some (.mconv 15 15 3) := by decide

theorem witness_DecodeIsMatchAndMask : ∃ row ∈ rows, 0x04FFF0F0#32 &&& row.maskWord ≠ row.matchWord ∧
    0x04FFFE00#32 &&& row.maskWord = row.matchWord ∧ row.mnemonic = "DIVMOD" :=
  ⟨rows[3], by simp [rows], by decide, by decide, by decide⟩

theorem witness_StepRunsDecodedCommand :
    (let s := busy (.mout 5 2) [.finish, .engine];
      s.lost = false ∧ s.flight = some ⟨encode (.mout 5 2), good.snapshot, .start⟩ ∧
      decode s.cfg.nctx (encode (.mout 5 2)) = some (.mout 5 2) ∧ s.inputs = .finish :: [.engine]) ∧
    (busy (.mout 5 2) []).inputs = [] ∧
    ((0x14520000 : Nat) < 2 ^ 32 ∧ decode good.cfg.nctx (BitVec.ofNat 32 0x14520000) = some (.mout 5 2)) := by decide

theorem witness_CmdRegister :
    (let s := served good (.write 0 4 0x12322000#32);
      s.lost = false ∧ s.inputs = .write s.cfg.blockBase 4 0x12322000#32 :: [] ∧ s.flight = none ∧
      (decode s.cfg.nctx 0x12322000#32).isSome = true) ∧
    (let s := served good (.write 0 4 0x10000040#32);
      s.inputs = .write s.cfg.blockBase 4 0x10000040#32 :: [] ∧ s.flight = none ∧ decode s.cfg.nctx 0x10000040#32 = none) ∧
    (let s := busy (.mout 5 2) [.write 0 4 0x12322000#32];
      s.lost = false ∧ s.inputs = .write s.cfg.blockBase 4 0x12322000#32 :: [] ∧ s.flight ≠ none) ∧
    (let s := served good (.read 0 4); s.inputs = .read s.cfg.blockBase 4 :: []) := by decide

theorem witness_CommandFrame : ∃ t, exec (.divmod 6 7 0 3) good = .next t := ⟨_, rfl⟩

theorem witness_ErrorsPerCommand : Sound good ∧ ∃ t, exec (.add 4 2 1) good = .next t ∧ t.status.err = true :=
  ⟨good_sound, _, rfl, rfl⟩

theorem witness_AddResult :
    (let s := twoSmall [0xFFFF] [0x0001];
      (s.sources.reg 0).kind = .plain ∧ (s.sources.reg 1).kind = .plain ∧ (s.sources.reg 0).seq = some [0xFFFF] ∧
      (s.sources.reg 1).seq = some [0x0001] ∧ 2 = max 1 1 + (if val [0xFFFF] + val [0x0001] < base ^ max 1 1 then 0 else 1) ∧
      2 ≤ s.cfg.maxLimbs) ∧
    (let s := twoSmall [0xFFFF, 0xFFFF] [0x0001];
      (s.sources.reg 0).seq = some [0xFFFF, 0xFFFF] ∧ (s.sources.reg 1).seq = some [0x0001] ∧
      3 = max 2 1 + (if val [0xFFFF, 0xFFFF] + val [0x0001] < base ^ max 2 1 then 0 else 1) ∧ s.cfg.maxLimbs < 3) ∧
    (good.sources.reg 2).kind = .mont := by decide

theorem witness_SubResult :
    (let s := two [0x0005] [0x0003, 0];
      (s.sources.reg 0).kind = .plain ∧ (s.sources.reg 1).kind = .plain ∧ (s.sources.reg 0).seq = some [0x0005] ∧
      (s.sources.reg 1).seq = some [0x0003, 0] ∧ val [0x0003, 0] ≤ val [0x0005]) ∧
    (let s := two [0x0005] [0x0006];
      (s.sources.reg 0).seq = some [0x0005] ∧ (s.sources.reg 1).seq = some [0x0006] ∧ val [0x0005] < val [0x0006]) := by decide

theorem witness_MulResult :
    (let s := twoSmall [0xFFFF] [0xFFFF];
      (s.sources.reg 0).kind = .plain ∧ (s.sources.reg 1).kind = .plain ∧ (s.sources.reg 0).seq = some [0xFFFF] ∧
      (s.sources.reg 1).seq = some [0xFFFF] ∧ 1 + 1 ≤ s.cfg.maxLimbs) ∧
    (let s := twoSmall [1, 0] [1];
      (s.sources.reg 0).seq = some [1, 0] ∧ (s.sources.reg 1).seq = some [1] ∧ s.cfg.maxLimbs < 2 + 1) ∧
    (let s := twoSmall [] [1, 1]; (s.sources.reg 0).seq = some [] ∧ (s.sources.reg 1).seq = some [1, 1] ∧ 0 ≤ s.cfg.maxLimbs) := by decide

theorem witness_DivmodResult :
    (let s := two [0x0005] [0x0007, 0];
      (2 : RegId) ≠ 3 ∧ (s.sources.reg 0).kind = .plain ∧ (s.sources.reg 1).kind = .plain ∧ (s.sources.reg 0).seq = some [0x0005] ∧
      (s.sources.reg 1).seq = some [0x0007, 0] ∧ val [0x0007, 0] ≠ 0) ∧
    (let s := two [0x0005] [0, 0];
      (s.sources.reg 0).kind = .plain ∧ (s.sources.reg 1).kind = .plain ∧ (s.sources.reg 0).seq = some [0x0005] ∧
      (s.sources.reg 1).seq = some [0, 0] ∧ val [0, 0] = 0) := by decide

theorem witness_CmpResult : let s := two [0x0003] [0x0004, 0, 0];
    (s.sources.reg 0).kind = .plain ∧ (s.sources.reg 1).kind = .plain ∧ (s.sources.reg 0).seq = some [0x0003] ∧
    (s.sources.reg 1).seq = some [0x0004, 0, 0] := by decide

theorem witness_TrimResult : (good.sources.reg 0).kind = .plain ∧ (good.sources.reg 0).seq = some [0x0061] ∧
    (good.sources.reg 2).kind = .mont := by decide

theorem witness_MovResult : (good.sources.reg 0).kind = .plain ∧ (good.sources.reg 0).seq = some [0x0061] ∧
    (good.sources.reg 2).kind = .mont ∧ (good.sources.reg 2).seq = some [0x000E] := by decide

/-- `good` with r4 Plain and r5 Mont, whose one limb is unspecified: r4 is what a host write of `LEN` alone leaves after reset (R307). -/
def goodHoles : State :=
  (good.setReg 4 { BigReg.reset with len := 1 }).setReg 5 { len := 1, mem := [], kind := .mont, tag := 0 }

theorem witness_UnspecifiedLimbIsRefused :
    ((goodHoles.sources.reg 4).kind = .plain ∧ (goodHoles.sources.reg 1).kind = .plain ∧ (goodHoles.sources.reg 4).seq = none) ∧
    (goodHoles.sources.slot 0 ≠ none ∧ some ctx97 ∈ goodHoles.sources.slots ∧ ctx97.id = (goodHoles.sources.reg 2).tag) ∧
    ((goodHoles.sources.reg 2).kind = .mont ∧ (goodHoles.sources.reg 5).kind = .mont ∧
      (goodHoles.sources.reg 2).tag = (goodHoles.sources.reg 5).tag ∧ (goodHoles.sources.reg 5).seq = none) := by decide

/-- MPOW with an unspecified exponent, a state that a host can reach. -/
theorem test_mpow_unspecified_exponent :
    exec (.mpow 6 2 4) goodHoles = .refused (.unspecifiedLimb 4) := rfl

theorem witness_MctxResult :
    ((good.sources.reg 0).kind = .plain ∧ (good.sources.reg 0).seq = some [0x0061] ∧ val [0x0061] ≠ 0 ∧
      good.sources.gen ≠ 0xFFFFFFFF#32 ∧ val [0x0061] % 2 = 1) ∧
    ({ good with gen := 0xFFFFFFFF#32 }).sources.gen = 0xFFFFFFFF#32 ∧
    (let s := two [0, 0] []; (s.sources.reg 0).kind = .plain ∧ (s.sources.reg 0).seq = some [0, 0] ∧ val [0, 0] = 0) ∧
    (good.sources.reg 2).kind = .mont := by decide

theorem ctx98_ok : ContextOk Config.reference 1 ctx98 := by constructor <;> decide

theorem witness_MconvResult :
    ((good.sources.reg 1).kind = .plain ∧ (good.sources.reg 1).seq = some [0x0005] ∧ good.sources.slot 0 = some ctx97 ∧
      ContextOk good.cfg good.sources.gen ctx97 ∧ val ctx97.n % 2 = 1) ∧
    (let s := { good with slots := [some ctx98, none, none, none] };
      s.sources.slot 0 = some ctx98 ∧ ContextOk s.cfg s.sources.gen ctx98 ∧ val ctx98.n % 2 = 0) ∧
    good.sources.slot 1 = none ∧ (good.sources.reg 2).kind = .mont :=
  ⟨⟨by decide, by decide, by decide, ctx97_ok, by decide⟩, ⟨by decide, ctx98_ok, by decide⟩, by decide, by decide⟩

/-- `good` with the Montgomery one in r4 and a value of a context that is gone in r5. -/
def goodMont : State := (good.setReg 4 (BigReg.mont [0x003D] 0)).setReg 5 (BigReg.mont [0x000E] 7)

theorem witness_MmulResult :
    ((goodMont.sources.reg 2).kind = .mont ∧ (goodMont.sources.reg 4).kind = .mont ∧
      (goodMont.sources.reg 2).tag = (goodMont.sources.reg 4).tag ∧ (goodMont.sources.reg 2).seq = some [0x000E] ∧
      (goodMont.sources.reg 4).seq = some [0x003D] ∧ SlotsOk goodMont.cfg goodMont.sources.gen goodMont.sources.slots ∧
      goodMont.sources.slots[0]? = some (some ctx97) ∧ ctx97.id = (goodMont.sources.reg 2).tag ∧ val ctx97.n % 2 = 1) ∧
    (goodMont.sources.reg 2).tag ≠ (goodMont.sources.reg 5).tag ∧
    ((goodMont.sources.reg 5).kind = .mont ∧ ∀ c, some c ∈ goodMont.sources.slots → c.id ≠ (goodMont.sources.reg 5).tag) ∧
    (goodMont.sources.reg 1).kind = .plain :=
  ⟨⟨by decide, by decide, by decide, by decide, by decide, good_slots, by decide, by decide, by decide⟩, by decide,
    ⟨by decide, fun c h => by
      obtain rfl : c = ctx97 := by simpa [show goodMont.sources.slots = [some ctx97, none, none, none] from rfl] using h
      decide⟩, by decide⟩

theorem witness_MoutResult :
    ((goodMont.sources.reg 2).kind = .mont ∧ (goodMont.sources.reg 2).seq = some [0x000E] ∧
      SlotsOk goodMont.cfg goodMont.sources.gen goodMont.sources.slots ∧ goodMont.sources.slots[0]? = some (some ctx97) ∧
      ctx97.id = (goodMont.sources.reg 2).tag ∧ val ctx97.n % 2 = 1) ∧
    ((goodMont.sources.reg 5).kind = .mont ∧ ∀ c, some c ∈ goodMont.sources.slots → c.id ≠ (goodMont.sources.reg 5).tag) ∧
    (goodMont.sources.reg 1).kind = .plain :=
  ⟨⟨by decide, by decide, good_slots, by decide, by decide, by decide⟩,
    ⟨by decide, witness_MmulResult.2.2.1.2⟩, by decide⟩

theorem witness_MpowResult :
    ((goodMont.sources.reg 2).kind = .mont ∧ (goodMont.sources.reg 3).kind = .plain ∧ (goodMont.sources.reg 2).seq = some [0x000E] ∧
      (goodMont.sources.reg 3).seq = some [0x0003] ∧ (∀ n, 1 ≤ windowSize goodMont.cfg n) ∧
      SlotsOk goodMont.cfg goodMont.sources.gen goodMont.sources.slots ∧ goodMont.sources.slots[0]? = some (some ctx97) ∧
      ctx97.id = (goodMont.sources.reg 2).tag ∧ val ctx97.n % 2 = 1 ∧ val [0x000E] = 5 * base ^ ctx97.l % val ctx97.n) ∧
    ((goodMont.sources.reg 5).kind = .mont ∧ ∀ c, some c ∈ goodMont.sources.slots → c.id ≠ (goodMont.sources.reg 5).tag) ∧
    (goodMont.sources.reg 1).kind = .plain :=
  ⟨⟨by decide, by decide, by decide, by decide, windowRef_pos, good_slots, by decide, by decide, by decide, by decide⟩,
    ⟨by decide, witness_MmulResult.2.2.1.2⟩, by decide⟩

theorem witness_MontgomeryRoundTrip :
    (good.sources.reg 1).kind = .plain ∧ (good.sources.reg 1).seq = some [0x0005] ∧ good.sources.slot 0 = some ctx97 ∧
    good.sources.slots = good.slots ∧ SlotsOk good.cfg good.sources.gen good.sources.slots ∧ val ctx97.n % 2 = 1 :=
  ⟨by decide, by decide, by decide, rfl, good_slots, by decide⟩

theorem witness_MpowIndependentOfWindowSize :
    (∀ n, 1 ≤ windowSize Config.reference n) ∧ (∀ n, 1 ≤ windowSize { Config.reference with windows := [1, 5] } n) ∧
    ContextOk Config.reference 1 ctx97 ∧ 14 < val ctx97.n := by
  refine ⟨windowRef_pos, fun n => ?_, ctx97_ok, by decide⟩
  have h := windowRef_pos n
  unfold windowSize at h ⊢
  split at h
  · rename_i k hk; simp [Config.reference] at hk
  · match n / 16 with
    | 0 => simp
    | 1 => simp
    | j + 2 => simpa using h

theorem witness_IndexOutOfRangeNeverFires : (∀ n, 1 ≤ windowSize good.cfg n) ∧ ∃ t, exec (.mpow 4 2 3) good = .next t :=
  ⟨windowRef_pos, _, rfl⟩

/-- Window (2, 2, 1) of P7, which is trimmed by one bit, and a window that runs out of bits. -/
theorem witness_CursorFormsTheWindow : (bit [0x0025] 2 = true ∧ 1 ≤ 2 ∧ window [0x0025] 2 2 = (2, 1)) ∧
    (bit [0x0003] 1 = true ∧ 1 ≤ 8 ∧ window [0x0003] 1 8 = (0, 3)) := by decide

theorem witness_CursorSteps : val [0, 0] = 0 ∧ val [0, 0x8000] ≠ 0 := by decide

theorem witness_StatusRegister : (let s := served good (.read 4 4); s.lost = false ∧ s.inputs = .read (s.cfg.blockBase + 4) 4 :: []) ∧
    (let s := busy (.mout 5 2) [.write 4 4 4#32]; s.lost = false ∧ s.inputs = .write (s.cfg.blockBase + 4) 4 4#32 :: []) := by decide

theorem witness_ControlPageReads : ConfigOk good.cfg ∧
    (∀ a ∈ [0x008, 0x010, 0x00C], let s := served good (.read a 4);
      s.lost = false ∧ s.cfg = good.cfg ∧ s.inputs = .read (s.cfg.blockBase + a) 4 :: []) :=
  ⟨reference_ok, by decide⟩

/-- Slots 0 (live) and 3 (empty, the last), words 0 and 3. -/
theorem witness_CtxInfoWords : ConfigOk good.cfg ∧ SlotsOk good.cfg good.gen good.slots ∧
    good.slots[0]? = some (some ctx97) ∧ good.slots[3]? = some none ∧ 0 < good.cfg.nctx ∧ 3 < good.cfg.nctx ∧
    (let s := served good (.read 0x13C 4); s.lost = false ∧ s.inputs = .read (s.cfg.blockBase + (0x100 + 0x10 * 3 + 4 * 3)) 4 :: []) ∧
    (let s := served good (.write 0x100 4 1#32); s.lost = false ∧
      s.inputs = .write (s.cfg.blockBase + (0x100 + 0x10 * 0 + 4 * 0)) 4 1#32 :: []) :=
  ⟨reference_ok, good_slots, by decide, by decide, by decide, by decide, by decide, by decide⟩

theorem witness_LenRegister :
    (let s := served good (.read 0x10000 4);
      s.lost = false ∧ s.flight = none ∧ s.inputs = .read (s.cfg.blockBase + 0x1000 * ((15 : RegId).val + 1)) 4 :: []) ∧
    (let s := served good (.write 0x1000 4 256#32);
      s.lost = false ∧ s.flight = none ∧ s.inputs = .write (s.cfg.blockBase + 0x1000 * ((0 : RegId).val + 1)) 4 256#32 :: [] ∧
      (256#32).toNat ≤ s.cfg.maxLimbs) ∧
    (let s := served good (.write 0x1000 4 257#32);
      s.lost = false ∧ s.inputs = .write (s.cfg.blockBase + 0x1000 * ((0 : RegId).val + 1)) 4 257#32 :: [] ∧
      s.cfg.maxLimbs < (257#32).toNat) ∧
    (let s := busy (.mout 5 2) [.write 0x1000 4 1#32];
      s.lost = false ∧ s.inputs = .write (s.cfg.blockBase + 0x1000 * ((0 : RegId).val + 1)) 4 1#32 :: [] ∧ s.flight ≠ none) := by decide

/-- The last limb word of r15, and a write of a word of r0. -/
theorem witness_LimbWords : ConfigOk good.cfg ∧ 127 < good.cfg.maxLimbs / 2 ∧
    (let s := served good (.read 0x109FC 4);
      s.lost = false ∧ s.flight = none ∧ s.inputs = .read (s.cfg.blockBase + (0x1000 * ((15 : RegId).val + 1) + 0x800 + 4 * 127)) 4 :: []) ∧
    Memory.read (good.reg 0).mem (2 * 0) = some 0x0061 ∧
    (let s := served good (.write 0x1800 4 0x00010002#32);
      s.lost = false ∧ s.flight = none ∧
      s.inputs = .write (s.cfg.blockBase + (0x1000 * ((0 : RegId).val + 1) + 0x800 + 4 * 0)) 4 0x00010002#32 :: []) :=
  ⟨reference_ok, by decide, by decide, by decide, by decide⟩

/-- The limb words before `LEN`. -/
theorem witness_HostLoadsAValue :
    let s := { good with inputs := [.write 0x1804 4 3#32, .write 0x1800 4 0x00020001#32, .write 0x1000 4 3#32] }
    s.lost = false ∧ ConfigOk s.cfg ∧ s.flight = none ∧ ([1, 2, 3] : List Limb).length ≤ s.cfg.maxLimbs ∧
    s.inputs.Perm (wlen s.cfg 0 ([1, 2, 3] : List Limb).length ++ wlimbs s.cfg 0 [1, 2, 3]) :=
  ⟨rfl, reference_ok, rfl, by decide, by decide⟩

theorem witness_KindAndTagRegisters :
    (let s := served good (.read 0x3004 4);
      s.lost = false ∧ s.flight = none ∧ s.inputs = .read (s.cfg.blockBase + (0x1000 * ((2 : RegId).val + 1) + 4)) 4 :: []) ∧
    (let s := served good (.read 0x3008 4);
      s.lost = false ∧ s.flight = none ∧ s.inputs = .read (s.cfg.blockBase + (0x1000 * ((2 : RegId).val + 1) + 8)) 4 :: []) ∧
    (let s := served good (.write 0x3004 4 1#32);
      s.lost = false ∧ s.inputs = .write (s.cfg.blockBase + (0x1000 * ((2 : RegId).val + 1) + 4)) 4 1#32 :: []) ∧
    (let s := served good (.write 0x3008 4 1#32);
      s.lost = false ∧ s.inputs = .write (s.cfg.blockBase + (0x1000 * ((2 : RegId).val + 1) + 8)) 4 1#32 :: []) := by decide

/-- The first and the last offset of each range of the three clauses. -/
theorem witness_ReadOnlyAndUnmapped : ConfigOk good.cfg ∧
    (∀ off ∈ [0x008, 0xFFC, 0x100C, 0x107FC, 0x1A00, 0x10FFC], off % 4 = 0 ∧ off < 0x11000 ∧
      ((8 ≤ off ∧ off < 0x1000) ∨ (0x1000 ≤ off ∧ 0xC ≤ off % 0x1000 ∧ off % 0x1000 < 0x800) ∨
        (0x1000 ≤ off ∧ 0x800 + 2 * good.cfg.maxLimbs ≤ off % 0x1000))) ∧
    (∀ off ∈ [0x014, 0x0FC, 0x140, 0xFFC], off % 4 = 0 ∧ off < 0x11000 ∧
      ((0x14 ≤ off ∧ off < 0x100) ∨ (0x100 + 0x10 * good.cfg.nctx ≤ off ∧ off < 0x1000))) ∧
    (∀ off ∈ [0x100C, 0x107FC, 0x1A00, 0x10FFC], off % 4 = 0 ∧ off < 0x11000 ∧ 0x1000 ≤ off ∧
      ((0xC ≤ off % 0x1000 ∧ off % 0x1000 < 0x800) ∨ 0x800 + 2 * good.cfg.maxLimbs ≤ off % 0x1000)) ∧
    (let s := served good (.write 0x10FFC 4 0); s.lost = false ∧ s.inputs = .write (s.cfg.blockBase + 0x10FFC) 4 0 :: []) ∧
    (let s := served good (.read 0xFFC 4); s.lost = false ∧ s.inputs = .read (s.cfg.blockBase + 0xFFC) 4 :: []) ∧
    (let s := served good (.read 0x10FFC 4);
      s.lost = false ∧ s.flight = none ∧ s.inputs = .read (s.cfg.blockBase + 0x10FFC) 4 :: []) :=
  ⟨reference_ok, by decide +kernel, by decide +kernel, by decide +kernel, by decide, by decide, by decide⟩

theorem witness_BusyBlockKeepsItsCommand :
    (let s := busy (.mout 5 2) [.read 0x2800 4];
      s.lost = false ∧ s.flight ≠ none ∧ s.inputs = .read 0x2800 4 :: [] ∧ ∃ t, step s = .next t) ∧
    (let s := busy (.mout 5 2) [.write 0x1000 4 1#32];
      s.lost = false ∧ s.flight ≠ none ∧ s.inputs = .write (s.cfg.blockBase + 0x1000) 4 1#32 :: [] ∧ ∃ t, step s = .next t) :=
  ⟨⟨rfl, by decide, rfl, _, rfl⟩, rfl, by decide, by decide, _, rfl⟩

/-- A halfword read, a misaligned write at the last address, and the two addresses beside the window of a block at 0x1000. -/
theorem witness_BadAccessesStop :
    (let s := served good (.read 0 2);
      s.lost = false ∧ s.inputs = .read 0 2 :: [] ∧ s.cfg.blockBase ≤ 0 ∧ 0 < s.cfg.blockBase + 0x11000) ∧
    (let s := served good (.write 0x10FFF 4 0);
      s.inputs = .write 0x10FFF 4 0 :: [] ∧ 0x10FFF < s.cfg.blockBase + 0x11000 ∧ (0x10FFF - s.cfg.blockBase) % 4 ≠ 0) ∧
    (let s := served { good with cfg := { Config.reference with blockBase := 0x1000 } } (.read 0xFFC 4);
      s.inputs = .read 0xFFC 4 :: [] ∧ 0xFFC < s.cfg.blockBase) ∧
    (let s := served { good with cfg := { Config.reference with blockBase := 0x1000 } } (.write 0x12000 4 0);
      s.inputs = .write 0x12000 4 0 :: [] ∧ s.cfg.blockBase + 0x11000 ≤ 0x12000) := by decide

theorem witness_ReadsHaveNoSideEffect : let s := served good (.read 0x2800 4);
    s.lost = false ∧ s.inputs = .read 0x2800 4 :: [] ∧ ∃ t, step s = .next t := ⟨rfl, rfl, _, rfl⟩

/-- A MOV of a Montgomery value. -/
theorem witness_MontOnlyByMontCommands : Sound (busy (.mov 9 2) [.finish]) ∧ (busy (.mov 9 2) [.finish]).lost = false ∧
    ∃ t, step (busy (.mov 9 2) [.finish]) = .next t ∧ t.lost = false ∧ (t.reg 9).kind = .mont :=
  ⟨busy_sound (by decide) _, rfl, _, rfl, rfl, rfl⟩

/-- An MCTX, a reset. -/
theorem witness_GenOnlyByMctx :
    (Sound (busy (.mctx 1 0) [.finish]) ∧ (busy (.mctx 1 0) [.finish]).lost = false ∧
      ∃ t, step (busy (.mctx 1 0) [.finish]) = .next t ∧ t.lost = false ∧ t.gen = 2) ∧
    (Sound (busy (.mctx 1 0) [.reset]) ∧ ∃ t, step (busy (.mctx 1 0) [.reset]) = .next t ∧ t.lost = false ∧ t.gen = 0) :=
  ⟨⟨busy_sound (by decide) _, rfl, _, rfl, rfl, rfl⟩, busy_sound (by decide) _, _, rfl, rfl, rfl⟩

theorem witness_CmpOnlyByCmp : Sound (busy (.cmp 1 0) [.finish]) ∧ (busy (.cmp 1 0) [.finish]).lost = false ∧
    ∃ t, step (busy (.cmp 1 0) [.finish]) = .next t ∧ t.lost = false ∧ t.status.cmp = 0b01 :=
  ⟨busy_sound (by decide) _, rfl, _, rfl, rfl, by decide⟩

theorem witness_ParametersNeverChange : ∃ t, step (served good .powerLoss) = .next t := ⟨_, rfl⟩

theorem witness_ResetAtAnyTime : (busy (.mout 5 2) [.reset]).inputs = .reset :: [] := rfl

theorem witness_LostUntilReset : (served { good with lost := true } (.write 0 4 0x05010000#32)).lost = true ∧
    (served { good with lost := true } (.write 0 4 0x05010000#32)).inputs.head? ≠ some .reset := by decide

theorem witness_StepKeepsInvariant : Inv (busy (.mov 9 2) [.finish]) ∧ ∃ t, step (busy (.mov 9 2) [.finish]) = .next t :=
  ⟨⟨reference_ok, fun _ => busy_sound (by decide) _⟩, _, rfl⟩

theorem witness_EngineStepsGiveTheResult : (∀ b, 1 ≤ windowSize Config.reference b) ∧
    Scratch.advanceN Config.reference (.mout 5 2) good.snapshot 3 .start = .done (.ok (.reg 5 (BigReg.plain [0x0005]))) :=
  ⟨windowRef_pos, by decide⟩

theorem witness_EngineStepsTerminate : ∀ b, 1 ≤ windowSize Config.reference b := windowRef_pos

theorem witness_EngineCompletionIsExec : Sound busyDone ∧ busyDone.lost = false ∧
    busyDone.flight = some ⟨encode (.mout 5 2), good.snapshot, .done (.ok (.reg 5 (BigReg.plain [0x0005])))⟩ ∧
    decode busyDone.cfg.nctx (encode (.mout 5 2)) = some (.mout 5 2) ∧ busyDone.inputs = .engine :: [] :=
  ⟨busyDone_sound, rfl, rfl, by decide, rfl⟩

theorem witness_RedcValueLaw : ContextOk Config.reference 1 ctx97 ∧ val ctx97.n % 2 = 1 ∧ 97 * 65536 - 1 < val ctx97.n * base ^ ctx97.l :=
  ⟨ctx97_ok, by decide, by decide⟩

theorem witness_DivisionIdentity : val [0, 0] = 0 ∧ val [0x0007, 0] ≠ 0 := by decide

end Sys2Proof.Tests
end

section
/-! # The engine's steps give the command's result (10_state.md R46; 41_longdiv.md R170; 42_montgomery.md R193; 43_exponent.md R234 to
R240). `Scratch.outcome` is what a scratch state has left to compute, in one go; every engine step keeps it. -/

namespace Sys2Proof.Machine

open Sys2Proof

/-! ### Windows formed with a BitCursor (43_exponent.md R235) -/

/-- The BitCursor that has taken in the bits of `e` from `i` down to `lo`. -/
def windowCursor (e : List Limb) (i lo : Nat) : BitCursor := { pos := (lo : Int) - 1, acc := bitsVal e lo (i + 1 - lo) }

theorem bitsVal_window {e : List Limb} {i lo : Nat} (h : lo ≤ i) :
    bitsVal e lo (i + 1 - lo) = flag (bit e lo) + 2 * bitsVal e (lo + 1) (i + 1 - (lo + 1)) := by
  rw [show i + 1 - lo = i + 1 - (lo + 1) + 1 by omega, bitsVal]

theorem forward_windowCursor {e : List Limb} {i lo : Nat} (h : lo ≤ i) :
    (windowCursor e i (lo + 1)).forward e = windowCursor e i lo := by
  simp only [windowCursor, BitCursor.forward, BitCursor.deref, bitsVal_window h, BitCursor.mk.injEq]
  exact ⟨by omega, by simp [Nat.add_comm]⟩

theorem backward_windowCursor {e : List Limb} {i lo : Nat} (h : lo ≤ i) :
    (windowCursor e i lo).backward = windowCursor e i (lo + 1) := by
  have hb : flag (bit e lo) < 2 := by unfold flag; split_ifs <;> omega
  simp only [windowCursor, BitCursor.backward, bitsVal_window h, BitCursor.mk.injEq]
  exact ⟨by omega, by omega⟩

/-- Extending takes in up to `n` more bits, and stops below bit 0. -/
theorem extend_windowCursor (e : List Limb) (n : Nat) {i lo : Nat} (h : lo ≤ i + 1) :
    BitCursor.extend e n (windowCursor e i lo) = windowCursor e i (lo - n) := by
  induction n generalizing lo with
  | zero => rfl
  | succ n ih =>
    cases lo with
    | zero => simp [BitCursor.extend, BitCursor.isFinished, windowCursor]
    | succ lo =>
      have hp : (windowCursor e i (lo + 1)).isFinished = false := by simp [BitCursor.isFinished, windowCursor]
      simp only [BitCursor.extend, hp, forward_windowCursor (show lo ≤ i by omega)]
      rw [if_neg (by decide), ih (by omega), Nat.add_sub_add_right]

/-- Retracting drops the zeros at the low end, as `trimLow` does. -/
theorem retract_windowCursor {e : List Limb} {i : Nat} (hi : bit e i = true) (n : Nat) {lo : Nat} (h : lo ≤ i) :
    BitCursor.retract n (windowCursor e i lo) = windowCursor e i (trimLow e n lo) := by
  induction n generalizing lo with
  | zero => rfl
  | succ n ih =>
    have hacc : (windowCursor e i lo).acc % 2 = flag (bit e lo) % 2 := by
      simp [windowCursor, bitsVal_window h]
    simp only [BitCursor.retract, trimLow, hacc]
    cases hb : bit e lo with
    | true => simp [flag]
    | false =>
      have hne : lo ≠ i := by rintro rfl; simp [hi] at hb
      simp [flag, backward_windowCursor h, ih (show lo + 1 ≤ i by omega)]

/-- The BitCursor forms the window of R235. -/
theorem cursorWindow_eq_window {e : List Limb} {i k : Nat} (hi : bit e i = true) (hk : 1 ≤ k) :
    cursorWindow e i k = window e i k := by
  have hstart : BitCursor.clear { pos := (i : Int), acc := 0 } = windowCursor e i (i + 1) := by
    simp [BitCursor.clear, windowCursor, bitsVal]
  have hlo : i + 1 - k = i - (k - 1) := by omega
  have hle : trimLow e (k - 1) (i - (k - 1)) ≤ i := (window_spec e i k hi hk).1
  simp only [cursorWindow, hstart, extend_windowCursor e k (Nat.le_refl _), hlo, retract_windowCursor hi (k - 1) (Nat.sub_le _ _)]
  simp [windowCursor, window, Nat.succ_sub hle]

/-- A scan of `n` bits needs no more than `n` iterations of fuel. -/
theorem scan_fuel (c : Context) (e : List Limb) {k : Nat} (hk : 1 ≤ k) (table : List Nat) {fuel n : Nat} (h : n ≤ fuel)
    (r : Nat) : scan c e k table fuel n r = scan c e k table n n r := by
  induction fuel using Nat.strong_induction_on generalizing n r with
  | _ fuel ih =>
    cases n with
    | zero => cases fuel <;> simp [scan]
    | succ n =>
      obtain ⟨f, rfl⟩ : ∃ f, fuel = f + 1 := ⟨fuel - 1, by omega⟩
      cases hb : bit e n with
      | false => simp only [scan, hb, if_true, ih f (by omega) (show n ≤ f by omega)]
      | true =>
        have hlo : (window e n k).1 ≤ n := (window_spec e n k hb hk).1
        simp only [scan, hb, Bool.true_eq_false, if_false]
        cases table[((window e n k).2 - 1) / 2]? with
        | none => rfl
        | some t =>
          simp only [ih f (by omega) (show (window e n k).1 ≤ f by omega)]
          rcases Nat.lt_or_ge n (f + 1) with hn | hn
          · exact (ih n hn hlo _).symm
          · omega

/-! ### What is left to do -/

/-- What MPOW completes with when its scan gives `r` (R238). -/
def powEnd (dest : Dest) (r : Except Stop Nat) : CmdResult := r >>= fun v => .ok (dest.write (canon v))

/-- What a division completes with (R170): at limb position `pos − 1` it has counted `digit` subtractions. -/
def divEnd (x : Snapshot) (job : DivUse) (d rem : List Limb) (pos digit : Nat) (q : List Limb) : CmdResult :=
  match pos with
  | 0 => job.result x q rem
  | p + 1 =>
    let k := val rem / base ^ p / val d
    let r := divDigits (val d) p (val rem - k * (val d * base ^ p)) (BitVec.ofNat 16 (digit + k) :: q)
    job.result x r.1 (limbs rem.length r.2)

/-- What the command in flight completes with, as a function of its scratch state: the rest of its algorithm in one go. -/
def Scratch.outcome (cfg : Config) (i : Instr) (x : Snapshot) : Scratch → CmdResult
  | .start => result cfg i x
  | .div job d rem pos digit q => divEnd x job d rem pos digit q
  | .redc dest c acc iter =>
    .ok (dest.write (canon (redcFinal (val c.n) (redcLoop (val c.n) c.ninv.toNat (c.l - iter) acc))))
  | .powTable dest c e k x2 table =>
    powEnd dest (scan c e k (table ++ oddTable c x2 (2 ^ k - table.length) (mmul c (table.getLastD 0) x2))
      (bitlen e) (bitlen e) (redcVal c (1 * c.cf)))
  | .powScan dest c e k table result i => powEnd dest (scan c e k table (i + 1).toNat (i + 1).toNat result)
  | .powWindow dest c e k table result i lo sq w =>
    powEnd dest (match table[(w - 1) / 2]? with
      | none => .error (.err .indexOutOfRange)
      | some t => scan c e k table lo lo (mmul c (squarings c (i - lo + 1 - sq).toNat result) t))
  | .done r => r

/-- What a scratch state keeps from its start on: the divisor is not 0, the window size is at least 1. -/
def Scratch.Ok : Scratch → Prop
  | .start => True
  | .div _ d _ _ _ _ => val d ≠ 0
  | .redc _ _ _ _ => True
  | .powTable _ _ _ k _ _ => 1 ≤ k
  | .powScan _ _ _ k _ _ _ => 1 ≤ k
  | .powWindow _ _ _ k _ _ _ _ _ _ => 1 ≤ k
  | .done _ => True

section
variable {cfg : Config} {i : Instr} {x : Snapshot}

/-! ### The first step -/

@[simp] theorem outcome_begin_bind {α : Type} (m : Except Stop α) (f : α → Except Stop Scratch) :
    (Scratch.begin (m >>= f)).outcome cfg i x = m >>= fun a => (Scratch.begin (f a)).outcome cfg i x := by
  cases m <;> rfl

@[simp] theorem ok_begin_bind {α : Type} (m : Except Stop α) (f : α → Except Stop Scratch) :
    (Scratch.begin (m >>= f)).Ok ↔ ∀ a, m = .ok a → (Scratch.begin (f a)).Ok := by
  cases m <;> simp [Scratch.begin, Scratch.Ok]

/-- At the start of a position the rest of a division is `divDigits`. -/
theorem divEnd_zero (job : DivUse) (d rem : List Limb) (pos : Nat) (q : List Limb) :
    divEnd x job d rem pos 0 q = job.result x (divDigits (val d) pos (val rem) q).1
      (limbs rem.length (divDigits (val d) pos (val rem) q).2) := by
  cases pos with
  | zero => simp [divEnd, divDigits, limbs_val]
  | succ p => simp [divEnd, divDigits]

theorem outcome_beginDiv (job : DivUse) (s t : List Limb) :
    (Scratch.begin (Scratch.beginDiv job s t)).outcome cfg i x = match divmodDigits s t with
      | none => .error (.err .divideByZero)
      | some (q, r) => job.result x q r := by
  unfold Scratch.beginDiv divmodDigits
  split_ifs with h
  · rfl
  · simp only [Scratch.begin, Scratch.outcome, divEnd_zero, val_trim]

theorem ok_beginDiv (job : DivUse) (s t : List Limb) : (Scratch.begin (Scratch.beginDiv job s t)).Ok := by
  unfold Scratch.beginDiv
  split_ifs with h
  · trivial
  · simpa [Scratch.begin, Scratch.Ok, val_trim] using mt (trim_eq_nil t).2 h

theorem outcome_beginRedc (dest : Dest) (c : Context) (v : Nat) :
    (Scratch.begin (Scratch.beginRedc dest c v)).outcome cfg i x = redc c v >>= fun r => .ok (dest.write r) := by
  unfold Scratch.beginRedc redc
  cases requireOdd c <;> rfl

theorem ok_beginRedc (dest : Dest) (c : Context) (v : Nat) : (Scratch.begin (Scratch.beginRedc dest c v)).Ok := by
  unfold Scratch.beginRedc
  cases requireOdd c <;> trivial

/-- The table is whole when its remaining entries are appended. -/
theorem oddTable_cons (c : Context) (x2 k t : Nat) :
    [t] ++ oddTable c x2 (2 ^ k - [t].length) (mmul c ([t].getLastD 0) x2) = oddTable c x2 (2 ^ k) t := by
  obtain ⟨m, hm⟩ : ∃ m, 2 ^ k = m + 1 := ⟨2 ^ k - 1, by have := Nat.two_pow_pos k; omega⟩
  simp [hm, oddTable]

theorem outcome_first : (Scratch.first cfg i x).outcome cfg i x = result cfg i x := by
  cases i with
  | divmod rd rc ra rb =>
    simp only [Scratch.first, outcome_begin_bind, outcome_beginDiv, result, divmodResult]
    rfl
  | mctx ctx ra =>
    simp only [Scratch.first, outcome_begin_bind, outcome_beginDiv, result, mctxResult, contextConstants]
    congr 1; funext s
    cases divmodDigits (mulSeq (shlLimbs [1] (trim s).length) (shlLimbs [1] (trim s).length)) (trim s) <;> rfl
  | mconv rd ra ctx => simp only [Scratch.first, outcome_begin_bind, outcome_beginRedc, result, mconvResult]; rfl
  | mmul rd ra rb => simp only [Scratch.first, outcome_begin_bind, outcome_beginRedc, result, mmulResult]; rfl
  | mpow rd ra rb =>
    simp only [Scratch.first, outcome_begin_bind, result, mpowResult, mpowCore]
    congr 1; funext p
    cases requireOdd p.1 with
    | error e => rfl
    | ok u =>
      simp only [ok_bind, pure_ok, Scratch.begin, Scratch.outcome, oddTable_cons]
      rfl
  | mout rd ra => simp only [Scratch.first, outcome_begin_bind, outcome_beginRedc, result, moutResult]; rfl
  | _ => rfl

theorem ok_first (hw : ∀ b, 1 ≤ windowSize cfg b) : (Scratch.first cfg i x).Ok := by
  cases i with
  | divmod rd rc ra rb => exact (ok_begin_bind _ _).2 fun p _ => ok_beginDiv _ _ _
  | mctx ctx ra => exact (ok_begin_bind _ _).2 fun s _ => ok_beginDiv _ _ _
  | mconv rd ra ctx => exact (ok_begin_bind _ _).2 fun p _ => ok_beginRedc _ _ _
  | mmul rd ra rb => exact (ok_begin_bind _ _).2 fun p _ => ok_beginRedc _ _ _
  | mpow rd ra rb => exact (ok_begin_bind _ _).2 fun p _ => (ok_begin_bind _ _).2 fun _ _ => hw _
  | mout rd ra => exact (ok_begin_bind _ _).2 fun p _ => ok_beginRedc _ _ _
  | _ => trivial

/-! ### The steps after it -/

/-- A position where the aligned value is below the divisor is finished. -/
theorem divEnd_next {job : DivUse} {d rem q : List Limb} {p digit : Nat} (h : val rem / base ^ p < val d) :
    divEnd x job d rem p 0 (BitVec.ofNat 16 digit :: q) = divEnd x job d rem (p + 1) digit q := by
  rw [divEnd_zero]
  simp [divEnd, Nat.div_eq_of_lt h]

/-- One subtraction (R170) is one of those that are left at its position. -/
theorem divEnd_subtract {job : DivUse} {d rem q : List Limb} {p digit : Nat} (hd : val d ≠ 0)
    (h : val d ≤ val rem / base ^ p) :
    ∃ rem', subSeq rem (shlLimbs d p) = some rem' ∧
      divEnd x job d rem' (p + 1) (digit + 1) q = divEnd x job d rem (p + 1) digit q := by
  have hd0 : 0 < val d := Nat.pos_of_ne_zero hd
  have hle : val d * base ^ p ≤ val rem := (Nat.le_div_iff_mul_le (Nat.pow_pos (by decide))).1 h
  have hv : val (limbs rem.length (val rem - val d * base ^ p)) = val rem - val d * base ^ p :=
    val_limbs_of_lt (lt_of_le_of_lt (Nat.sub_le _ _) (val_lt rem))
  have hk : val rem / base ^ p / val d = (val rem - val d * base ^ p) / base ^ p / val d + 1 := by
    simp only [Nat.div_div_eq_div_mul, Nat.mul_comm (base ^ p)]
    exact Nat.div_eq_sub_div (Nat.mul_pos hd0 (Nat.pow_pos (by decide))) hle
  refine ⟨limbs rem.length (val rem - val d * base ^ p), ?_, ?_⟩
  · rw [subSeq_eq, val_shlLimbs, if_neg (by omega)]
  · simp only [divEnd, hv, hk, length_limbs, Nat.add_mul, Nat.one_mul, Nat.sub_sub, Nat.add_assoc, Nat.add_comm]

/-- An entry more of the odd-power table (R236) is the next of those that are left. -/
theorem oddTable_append (c : Context) (x2 : Nat) {n : Nat} {table : List Nat} (h : table.length < n) :
    (table ++ [mmul c (table.getLastD 0) x2]) ++ oddTable c x2 (n - (table ++ [mmul c (table.getLastD 0) x2]).length)
      (mmul c ((table ++ [mmul c (table.getLastD 0) x2]).getLastD 0) x2) =
    table ++ oddTable c x2 (n - table.length) (mmul c (table.getLastD 0) x2) := by
  obtain ⟨m, hm⟩ : ∃ m, n - table.length = m + 1 := ⟨n - table.length - 1, by omega⟩
  have hm' : n - (table.length + 1) = m := by omega
  simp [hm, hm', oddTable]

/-- The scan at a 0 bit squares and goes on below it (R234). -/
theorem scan_zero_bit {c : Context} {e : List Limb} {k : Nat} {table : List Nat} {r n : Nat} (hb : bit e n = false) :
    scan c e k table (n + 1) (n + 1) r = scan c e k table n n (mmul c r r) := by
  simp [scan, hb]

/-- The scan at a 1 bit squares once per bit of the window, multiplies by the window's power and goes on below it (R234). -/
theorem scan_one_bit {c : Context} {e : List Limb} {k : Nat} (hk : 1 ≤ k) {table : List Nat} {r n : Nat} (hb : bit e n = true) :
    scan c e k table (n + 1) (n + 1) r = match table[((window e n k).2 - 1) / 2]? with
      | none => .error (.err .indexOutOfRange)
      | some t => scan c e k table (window e n k).1 (window e n k).1
          (mmul c (squarings c (n - (window e n k).1 + 1) r) t) := by
  have hlo : (window e n k).1 ≤ n := (window_spec e n k hb hk).1
  simp only [scan, hb, Bool.true_eq_false, if_false]
  cases table[((window e n k).2 - 1) / 2]? with
  | none => rfl
  | some t => exact scan_fuel c e hk table hlo _

/-- No engine step changes what is left to be computed, and each keeps what the next one needs. -/
theorem advance_keeps (hw : ∀ b, 1 ≤ windowSize cfg b) {sc : Scratch} (h : sc.Ok) :
    (sc.advance cfg i x).Ok ∧ (sc.advance cfg i x).outcome cfg i x = sc.outcome cfg i x := by
  cases sc with
  | start => exact ⟨ok_first hw, outcome_first⟩
  | div job d rem pos digit q =>
    cases pos with
    | zero => exact ⟨trivial, rfl⟩
    | succ p =>
      by_cases hlt : val rem / base ^ p < val d
      · simp only [Scratch.advance, if_pos hlt]
        exact ⟨h, divEnd_next hlt⟩
      · obtain ⟨rem', hs, he⟩ := divEnd_subtract (x := x) (job := job) (q := q) (digit := digit) h (Nat.le_of_not_lt hlt)
        simp only [Scratch.advance, if_neg hlt, hs]
        exact ⟨h, he⟩
  | redc dest c acc iter =>
    by_cases hlt : iter < c.l
    · simp only [Scratch.advance, if_pos hlt, Scratch.outcome]
      rw [show c.l - iter = c.l - (iter + 1) + 1 by omega]
      exact ⟨trivial, rfl⟩
    · simp only [Scratch.advance, if_neg hlt, Scratch.outcome, show c.l - iter = 0 by omega]
      exact ⟨trivial, rfl⟩
  | powTable dest c e k x2 table =>
    by_cases hlt : table.length < 2 ^ k
    · simp only [Scratch.advance, if_pos hlt, Scratch.outcome, oddTable_append c x2 hlt]
      exact ⟨h, trivial⟩
    · simp only [Scratch.advance, if_neg hlt, Scratch.outcome, show 2 ^ k - table.length = 0 by omega]
      refine ⟨h, ?_⟩
      simp [oddTable]
  | powScan dest c e k table r i =>
    by_cases hneg : i < 0
    · simp only [Scratch.advance, if_pos hneg, Scratch.outcome, show (i + 1).toNat = 0 by omega]
      exact ⟨trivial, by simp [scan, powEnd]⟩
    · obtain ⟨n, rfl⟩ := Int.eq_ofNat_of_zero_le (not_lt.1 hneg)
      have hn : ((n : Int) + 1).toNat = n + 1 := by omega
      cases hb : bit e n with
      | false =>
        simp only [Scratch.advance, if_neg hneg, Int.toNat_natCast, hb, if_true, Scratch.outcome, hn, scan_zero_bit hb]
        exact ⟨h, by simp⟩
      | true =>
        have hlo : (window e n k).1 ≤ n := (window_spec e n k hb h).1
        have hsq : ((n : Int) - (window e n k).1 + 1 - (0 : Nat)).toNat = n - (window e n k).1 + 1 := by omega
        simp only [Scratch.advance, if_neg hneg, Int.toNat_natCast, hb, Bool.true_eq_false, if_false,
          cursorWindow_eq_window hb h, Scratch.outcome, hn, scan_one_bit h hb, hsq]
        exact ⟨h, trivial⟩
  | powWindow dest c e k table r i lo sq w =>
    by_cases hlt : (sq : Int) < i - lo + 1
    · simp only [Scratch.advance, if_pos hlt, Scratch.outcome]
      rw [show (i - lo + 1 - (sq : Int)).toNat = (i - lo + 1 - ((sq + 1 : Nat) : Int)).toNat + 1 by omega]
      exact ⟨h, rfl⟩
    · have hsq : (i - lo + 1 - (sq : Int)).toNat = 0 := by omega
      simp only [Scratch.advance, if_neg hlt, Scratch.outcome, hsq]
      cases table[(w - 1) / 2]? with
      | none => exact ⟨trivial, rfl⟩
      | some t => exact ⟨h, by simp [squarings]⟩
  | done r => exact ⟨trivial, rfl⟩

theorem advanceN_keeps (hw : ∀ b, 1 ≤ windowSize cfg b) (n : Nat) {sc : Scratch} (h : sc.Ok) :
    (Scratch.advanceN cfg i x n sc).Ok ∧ (Scratch.advanceN cfg i x n sc).outcome cfg i x = sc.outcome cfg i x := by
  induction n generalizing sc with
  | zero => exact ⟨h, rfl⟩
  | succ n ih =>
    obtain ⟨hok, hout⟩ := advance_keeps hw h
    rw [advanceN_succ, ← hout]
    exact ih hok

end

/-- Settles O51: every engine step keeps what is left to be computed (`Scratch.outcome`), which is the command's result at the start and
the end's own result at the end. -/
theorem engineStepsGiveTheResult : Obligations.EngineStepsGiveTheResult := by
  intro cfg i x n r hw h
  have hout := (advanceN_keeps (i := i) (x := x) hw n (sc := .start) trivial).2
  rwa [h] at hout

end Sys2Proof.Machine
end

section
/-! # What a successful command writes keeps the invariant (10_state.md R31, R35, R37, R38), said of the command's result on sources that
meet the invariant. -/

namespace Sys2Proof.Machine

open Sys2Proof

/-! ### The fields that no command writes -/

@[simp] theorem State_succeed_status (s : State) (w : Writes) :
    (s.succeed w).status = { (s.apply w).status with err := false, errCode := 0 } := rfl
@[simp] theorem State_succeed_flight (s : State) (w : Writes) : (s.succeed w).flight = none := rfl
@[simp] theorem State_succeed_cfg (s : State) (w : Writes) : (s.succeed w).cfg = s.cfg := by cases w <;> rfl
@[simp] theorem State_succeed_lost (s : State) (w : Writes) : (s.succeed w).lost = s.lost := by cases w <;> rfl
@[simp] theorem State_succeed_lastCmd (s : State) (w : Writes) : (s.succeed w).lastCmd = s.lastCmd := by cases w <;> rfl
@[simp] theorem State_succeed_inputs (s : State) (w : Writes) : (s.succeed w).inputs = s.inputs := by cases w <;> rfl
@[simp] theorem State_succeed_reply (s : State) (w : Writes) : (s.succeed w).reply = s.reply := by cases w <;> rfl
@[simp] theorem State_succeed_draws (s : State) (w : Writes) : (s.succeed w).draws = s.draws := by cases w <;> rfl
@[simp] theorem accErr_apply (s : State) (w : Writes) : (s.apply w).status.accErr = s.status.accErr := by cases w <;> rfl

theorem reg_succeed_quotRem (s : State) (rd rc : RegId) (q v : BigReg) (r : RegId) :
    (s.succeed (.quotRem rd q rc v)).reg r = if r = rc then v else if r = rd then q else s.reg r :=
  (reg_setReg (s.setReg rd q) rc r v).trans (by rw [reg_setReg])

/-! ### What a command's result meets, from sources that meet the invariant -/

theorem bind_eq_ok {ε α β : Type} {m : Except ε α} {f : α → Except ε β} {b : β} :
    m >>= f = .ok b ↔ ∃ a, m = .ok a ∧ f a = .ok b := by
  cases m <;> simp

/-- The destination writes keep the invariant of a block with these slots and this `GEN`. -/
def Writes.Ok (cfg : Config) (gen : Word) (slots : List (Option Context)) : Writes → Prop
  | .reg _ v => RegOk cfg gen slots v
  | .quotRem _ q _ r => RegOk cfg gen slots q ∧ RegOk cfg gen slots r
  | .cmp _ => True
  | .slot _ c => gen ≠ 0xFFFFFFFF#32 ∧ c.id = gen ∧ ContextOk cfg (gen + 1) c

/-- The scan's result stays below the modulus (R234, R194). -/
theorem scan_lt {c : Context} (hn : 1 ≤ val c.n) (e : List Limb) (k : Nat) (table : List Nat) {fuel n r v : Nat}
    (hr : r < val c.n) (h : scan c e k table fuel n r = .ok v) : v < val c.n := by
  induction fuel generalizing n r with
  | zero =>
    obtain rfl : r = v := by simpa [scan] using h
    exact hr
  | succ f ih =>
    cases n with
    | zero =>
      obtain rfl : r = v := by simpa [scan] using h
      exact hr
    | succ n =>
      simp only [scan] at h
      split_ifs at h
      · exact ih (redcVal_lt hn _) h
      · split at h
        · simp at h
        · exact ih (redcVal_lt hn _) h

theorem mpowCore_ok {cfg : Config} {c : Context} (hn : 1 ≤ val c.n) {a v : Nat} {e : List Limb}
    (h : mpowCore cfg c a e = .ok v) : c.n0odd = true ∧ v < val c.n := by
  unfold mpowCore requireOdd at h
  cases ho : c.n0odd with
  | false => simp [ho] at h
  | true => exact ⟨rfl, scan_lt hn _ _ _ (redcVal_lt hn _) (by simpa [ho] using h)⟩

theorem redc_ok {c : Context} {v : Nat} {r : List Limb} (h : redc c v = .ok r) :
    c.n0odd = true ∧ r = canon (redcVal c v) := by
  rw [redc_eq] at h
  split_ifs at h with ho
  exact ⟨ho, (Except.ok.inj h).symm⟩

/-- A residue of a slot's modulus fits a register. -/
theorem length_canon_residue {cfg : Config} {gen : Word} {c : Context} (h : ContextOk cfg gen c) {v : Nat} (hv : v < val c.n) :
    (canon v).length ≤ cfg.maxLimbs := by
  have hlen := length_canon_le (lt_trans hv (val_lt c.n))
  have hfits := h.fits
  rw [h.lenN] at hfits
  omega

/-- A residue written as a Mont value of a live slot with odd `N` (R35, R197, R198, R238). -/
theorem regOk_residue {cfg : Config} {gen : Word} {slots : List (Option Context)} (hs : SlotsOk cfg gen slots) {c : Context}
    (hc : some c ∈ slots) (ho : c.n0odd = true) {v : Nat} (hv : v < val c.n) :
    RegOk cfg gen slots (BigReg.mont (canon v) c.id) := by
  obtain ⟨j, hj⟩ := List.getElem?_of_mem hc
  have hok := hs.each j c hj
  refine regOk_mont (length_canon_residue hok hv) (canonical_canon v) hok.issued fun k d hk hid => ?_
  obtain rfl := hs.distinct k j d c hk hj hid
  obtain rfl : c = d := by simpa [hj] using hk
  exact ⟨ho, by simpa using hv⟩

/-- The next id, where `GEN` does not wrap (R38). -/
theorem toNat_gen_succ {gen : Word} (h : gen ≠ 0xFFFFFFFF#32) : (gen + 1).toNat = gen.toNat + 1 := by
  have hne : gen.toNat ≠ 0xFFFFFFFF := fun e => h (BitVec.eq_of_toNat_eq e)
  have hlt := gen.isLt
  exact BitVec.toNat_add_of_lt (by simp; omega)

/-- What MCTX commits is a slot as R37 says, under the id `GEN`. -/
theorem contextOk_commit {cfg : Config} {gen : Word} {s : List Limb} (hv : val s ≠ 0) (hl : s.length ≤ cfg.maxLimbs)
    (hg : gen ≠ 0xFFFFFFFF#32) (free : Limb) :
    ContextOk cfg (gen + 1) ⟨gen, trim s, (trim s).length, base ^ (2 * (trim s).length) % val s, n0Odd (trim s),
      (negInv ((trim s).headD 0)).getD free⟩ where
  canonicalN := canonical_trim s
  positive := by rw [val_trim]; omega
  lenN := rfl
  fits := le_trans (by rw [length_trim]; exact siglen_le s) hl
  cfIs := by rw [val_trim]
  oddIs := rfl
  ninvIs := fun ho => by
    obtain ⟨m, hm⟩ := Option.isSome_iff_exists.1 ((negInv_isSome _).2 (eq_of_beq ho))
    rw [hm, Option.getD_some]
  issued := by
    have := toNat_gen_succ hg
    change gen.toNat < (gen + 1).toNat
    omega

theorem ctxOf_contextOk {cfg : Config} {x : Snapshot} (hs : SlotsOk cfg x.gen x.slots) {t : Word} {c : Context}
    (h : x.ctxOf t = some c) : ContextOk cfg x.gen c := by
  obtain ⟨j, hj⟩ := List.getElem?_of_mem (ctxOf_some h).1
  exact hs.each j c hj

section
variable {cfg : Config} {x : Snapshot} (hs : SlotsOk cfg x.gen x.slots) (hr : ∀ r : RegId, RegOk cfg x.gen x.slots (x.reg r))
include hr

theorem length_source_le {r : RegId} {a : List Limb} (h : (x.reg r).seq = some a) : a.length ≤ cfg.maxLimbs :=
  length_seq h ▸ (hr r).lenFits

include hs

/-- A command that succeeds writes only what keeps the invariant. -/
theorem result_writesOk {i : Instr} {w : Writes} (h : result cfg i x = .ok w) : w.Ok cfg x.gen x.slots := by
  cases i with
  | add rd ra rb =>
    simp only [result, addResult, bind_eq_ok, checkCapacity_eq] at h
    obtain ⟨⟨a, b⟩, -, u, hcap, hw⟩ := h
    cases hw
    split_ifs at hcap with hle
    exact regOk_plain hle
  | sub rd ra rb =>
    simp only [result, subResult, bind_eq_ok] at h
    obtain ⟨⟨a, b⟩, hp, hw⟩ := h
    obtain ⟨-, ha, -⟩ := plain2_ok.1 hp
    simp only [subSeq_eq] at hw
    split_ifs at hw
    cases hw
    exact regOk_plain (by simpa using length_source_le hr ha)
  | mul rd ra rb =>
    simp only [result, mulResult, bind_eq_ok, checkCapacity_eq] at h
    obtain ⟨⟨a, b⟩, -, u, hcap, hw⟩ := h
    cases hw
    split_ifs at hcap with hle
    exact regOk_plain hle
  | divmod rd rc ra rb =>
    simp only [result, divmodResult, bind_eq_ok] at h
    obtain ⟨⟨a, b⟩, hp, hw⟩ := h
    obtain ⟨-, ha, -⟩ := plain2_ok.1 hp
    simp only [divmodDigits_eq] at hw
    split_ifs at hw
    cases hw
    have hlen := length_source_le hr ha
    exact ⟨regOk_plain (by simpa using hlen), regOk_plain (by simpa using hlen)⟩
  | cmp ra rb =>
    simp only [result, cmpResult, bind_eq_ok] at h
    obtain ⟨p, -, hw⟩ := h
    cases hw
    trivial
  | trim rd ra =>
    simp only [result, trimResult, bind_eq_ok] at h
    obtain ⟨a, hp, hw⟩ := h
    cases hw
    have hlen := length_source_le hr (plain1_ok.1 hp).2
    exact regOk_plain (by rw [length_trim]; exact le_trans (siglen_le a) hlen)
  | mov rd ra =>
    simp only [result, movResult, bind_eq_ok] at h
    obtain ⟨a, hp, hw⟩ := h
    have ha := readLimbs_ok.1 hp
    have hlen := length_source_le hr ha
    cases hk : (x.reg ra).kind with
    | plain =>
      simp only [hk] at hw
      cases hw
      exact regOk_plain hlen
    | mont =>
      simp only [hk] at hw
      cases hw
      obtain ⟨a', ha', hcan, htag, hlt⟩ := (hr ra).montValue hk
      obtain rfl : a = a' := Option.some.inj (ha.symm.trans ha')
      exact regOk_mont hlen hcan htag hlt
  | mctx ctx ra =>
    simp only [result, mctxResult, bind_eq_ok, contextConstants_eq] at h
    obtain ⟨a, hp, hw⟩ := h
    split_ifs at hw with hz
    simp only [mctxCommit] at hw
    split_ifs at hw with hg
    cases hw
    exact ⟨hg, rfl, contextOk_commit hz (length_source_le hr (plain1_ok.1 hp).2) hg _⟩
  | mconv rd ra ctx =>
    simp only [result, mconvResult, bind_eq_ok] at h
    obtain ⟨⟨c, a⟩, hp, b, hb, hw⟩ := h
    cases hw
    obtain ⟨-, hslot, -⟩ := mconvOperands_ok.1 hp
    obtain ⟨ho, rfl⟩ := redc_ok hb
    have hj : x.slots[ctx.val]? = some (some c) := by
      simpa [Snapshot.slot, List.getD_eq_getElem?_getD, Option.getD_eq_iff] using hslot
    exact regOk_residue hs (List.mem_of_getElem? hj) ho (redcVal_lt (hs.each _ c hj).positive _)
  | mmul rd ra rb =>
    simp only [result, mmulResult, bind_eq_ok] at h
    obtain ⟨⟨c, a, a'⟩, hp, b, hb, hw⟩ := h
    cases hw
    obtain ⟨-, -, hctx, -⟩ := mmulOperands_ok.1 hp
    obtain ⟨ho, rfl⟩ := redc_ok hb
    obtain ⟨hmem, hid⟩ := ctxOf_some hctx
    exact hid ▸ regOk_residue hs hmem ho (redcVal_lt (ctxOf_contextOk hs hctx).positive _)
  | mpow rd ra rb =>
    simp only [result, mpowResult, bind_eq_ok] at h
    obtain ⟨⟨c, a, e⟩, hp, v, hv, hw⟩ := h
    cases hw
    obtain ⟨-, hctx, -⟩ := mpowOperands_ok.1 hp
    obtain ⟨ho, hlt⟩ := mpowCore_ok (ctxOf_contextOk hs hctx).positive hv
    obtain ⟨hmem, hid⟩ := ctxOf_some hctx
    exact hid ▸ regOk_residue hs hmem ho hlt
  | mout rd ra =>
    simp only [result, moutResult, bind_eq_ok] at h
    obtain ⟨⟨c, a⟩, hp, b, hb, hw⟩ := h
    cases hw
    obtain ⟨-, hctx, -⟩ := moutOperands_ok.1 hp
    obtain ⟨-, rfl⟩ := redc_ok hb
    have hok := ctxOf_contextOk hs hctx
    exact regOk_plain (length_canon_residue hok (redcVal_lt hok.positive _))

end

end Sys2Proof.Machine
end

section
/-! # Every step keeps the invariant: one lemma for each thing a step can do (`Stepped`), then the step. -/

namespace Sys2Proof.Machine

open Sys2Proof

/-! ### Each part of a step keeps the invariant -/

theorem statusOk_accErr {st : Status} (h : StatusOk st) (b : Bool) : StatusOk { st with accErr := b } :=
  ⟨h.codeZero, h.codeKnown, h.cmpKnown⟩

theorem statusOk_clear {st : Status} (h : StatusOk st) : StatusOk { st with err := false, errCode := 0 } :=
  ⟨by simp, Nat.zero_le _, h.cmpKnown⟩

theorem code_ne_zero (e : ErrKind) : e.code ≠ 0 := by cases e <;> decide

theorem code_known (e : ErrKind) : e.code.toNat ≤ 0x0B := by cases e <;> decide

theorem statusOk_error {st : Status} (h : StatusOk st) (e : ErrKind) : StatusOk { st with err := true, errCode := e.code } :=
  ⟨iff_of_false (code_ne_zero e) (by simp), code_known e, h.cmpKnown⟩

theorem code_ne_reserved (c : Cmp3) : c.code ≠ 0b11 := by cases c <;> decide

theorem sound_popped {s : State} (h : Sound s) : Sound s.popped := sound_congr h s.inputs.tail s.reply s.draws s.lost

theorem sound_hostRead {s : State} (h : Sound s) (off : Nat) : Sound (s.hostRead off) := sound_congr h s.inputs _ _ s.lost

theorem sound_accErr {s : State} (h : Sound s) (b : Bool) : Sound { s with status := { s.status with accErr := b } } :=
  ⟨h.config, h.slots, h.regs, statusOk_accErr h.status b, fun f hf =>
    let g := h.flight f hf
    ⟨g.wordIs, g.regsKept, g.slotsKept, g.genKept, g.errClear, g.scratchReached⟩⟩

theorem sound_accept {s : State} (h : Sound s) {w : Word} {i : Instr} (hd : decode s.cfg.nctx w = some i) :
    Sound (s.accept w) where
  config := h.config
  slots := h.slots
  regs := h.regs
  status := statusOk_clear h.status
  flight f hf := by
    obtain rfl : (⟨w, s.snapshot, .start⟩ : Flight) = f := by simpa using hf
    exact ⟨rfl, rfl, rfl, rfl, rfl, i, 0, hd, rfl⟩

theorem sound_fail {s : State} (h : Sound s) (e : ErrKind) : Sound (s.fail e) :=
  sound_of_idle h.config h.slots h.regs (statusOk_error h.status e) rfl

/-- An illegal word is accepted and completed in one step (log 17), so no command is in flight in between. -/
theorem sound_illegal {s : State} (h : Sound s) (w : Word) : Sound ((s.accept w).fail .illegalCommand) :=
  sound_of_idle h.config h.slots h.regs (statusOk_error (statusOk_clear h.status) _) rfl

theorem sound_setReg {s : State} (h : Sound s) (hi : s.flight = none) (r : RegId) {v : BigReg}
    (hv : RegOk s.cfg s.gen s.slots v) : Sound (s.setReg r v) := by
  refine sound_of_idle h.config h.slots (fun q => ?_) h.status hi
  rw [reg_setReg]
  split_ifs
  · exact hv
  · exact h.regs q

/-- What a host write of `LEN` or of a limb word leaves is Plain and fits (R76, R77). -/
theorem regOk_hostWritten {cfg : Config} {gen : Word} {slots : List (Option Context)} {n : Nat} {m : Memory}
    (hn : n ≤ cfg.maxLimbs) (hm : m.length ≤ cfg.maxLimbs) (hw : Memory.wf m = true) :
    RegOk cfg gen slots { len := n, mem := m, kind := .plain, tag := 0 } :=
  ⟨hn, hm, hw, fun _ => rfl, by simp⟩

theorem sound_hostLimbs {s : State} (h : Sound s) (hi : s.flight = none) (r : RegId) {j : Nat} (hj : j < s.cfg.maxLimbs / 2)
    (v : Word) : Sound (s.hostLimbs r j v) := by
  obtain ⟨hlen, hmem, hwf, -, -⟩ := h.regs r
  refine sound_setReg h hi r (regOk_hostWritten hlen ?_ (wf_write _ _ _ (wf_write _ _ _ hwf)))
  simp only [length_write]
  omega

theorem sound_engine {s : State} (h : Sound s) {f : Flight} {i : Instr} (hf : s.flight = some f)
    (hd : decode s.cfg.nctx f.word = some i) :
    Sound { s with flight := some { f with scratch := f.scratch.advance s.cfg i f.snap } } := by
  refine ⟨h.config, h.slots, h.regs, h.status, fun g hg => ?_⟩
  obtain rfl : { f with scratch := f.scratch.advance s.cfg i f.snap } = g := by simpa using hg
  obtain ⟨hword, hregs, hslots, hgen, herr, i', n, hd', hsc⟩ := h.flight f hf
  obtain rfl : i = i' := Option.some.inj (hd.symm.trans hd')
  exact ⟨hword, hregs, hslots, hgen, herr, i, n + 1, hd, by rw [advanceN_succ_last, ← hsc]⟩

theorem sound_hardReset {s : State} (h : ConfigOk s.cfg) : Sound s.hardReset := by
  have hempty : ∀ (j : Nat) (c : Context), (List.replicate s.cfg.nctx (none : Option Context))[j]? ≠ some (some c) := by
    intro j c
    rw [List.getElem?_replicate]
    split_ifs <;> simp
  refine sound_of_idle h ⟨by simp, fun j c hj => absurd hj (hempty j c), fun j k c d hj => absurd hj (hempty j c)⟩
    (fun r => ?_) ⟨by simp, Nat.zero_le _, show (0 : BitVec 2) ≠ 0b11 by decide⟩ rfl
  rw [reg_hardReset]
  exact regOk_reset _ _ _

/-! ### A successful completion keeps the invariant -/

theorem getElem?_set_slot {slots : List (Option Context)} {k j : Nat} {c d : Context}
    (h : (slots.set k (some c))[j]? = some (some d)) : j = k ∧ d = c ∨ slots[j]? = some (some d) := by
  rw [List.getElem?_set] at h
  split_ifs at h with hjk
  · exact .inl ⟨hjk.symm, by simpa using h.symm⟩
  · exact .inr h

/-- MCTX's new slot has an id that no other slot and no tag has (R38). -/
theorem slotsOk_set {cfg : Config} {gen : Word} {slots : List (Option Context)} (h : SlotsOk cfg gen slots)
    (hg : gen ≠ 0xFFFFFFFF#32) (k : Nat) {c : Context} (hid : c.id = gen) (hc : ContextOk cfg (gen + 1) c) :
    SlotsOk cfg (gen + 1) (slots.set k (some c)) where
  count := by simpa using h.count
  each j d hj := by
    obtain ⟨-, rfl⟩ | hold := getElem?_set_slot hj
    · exact hc
    · exact contextOk_mono (h.each j d hold) (by rw [toNat_gen_succ hg]; omega)
  distinct j l d e hj hl hde := by
    have hfresh : ∀ (m : Nat) (d : Context), slots[m]? = some (some d) → d.id ≠ gen := fun m d hm e =>
      absurd (h.each m d hm).issued (by rw [e]; omega)
    obtain ⟨rfl, rfl⟩ | hj' := getElem?_set_slot hj <;> obtain ⟨rfl, rfl⟩ | hl' := getElem?_set_slot hl
    · rfl
    · exact absurd (hde.symm.trans hid) (hfresh l e hl')
    · exact absurd (hde.trans hid) (hfresh j d hj')
    · exact h.distinct j l d e hj' hl' hde

theorem regOk_set_slot {cfg : Config} {gen : Word} {slots : List (Option Context)} {v : BigReg} (h : RegOk cfg gen slots v)
    (hg : gen ≠ 0xFFFFFFFF#32) (k : Nat) {c : Context} (hid : c.id = gen) :
    RegOk cfg (gen + 1) (slots.set k (some c)) v where
  lenFits := h.lenFits
  memFits := h.memFits
  memWf := h.memWf
  plainTag := h.plainTag
  montValue hk := by
    obtain ⟨s, hs, hcan, htag, hlt⟩ := h.montValue hk
    refine ⟨s, hs, hcan, by rw [toNat_gen_succ hg]; omega, fun j d hj hd => ?_⟩
    obtain ⟨-, rfl⟩ | hold := getElem?_set_slot hj
    · rw [← hd, hid] at htag
      omega
    · exact hlt j d hold hd

theorem sound_succeed {s : State} (h : Sound s) {w : Writes} (hw : w.Ok s.cfg s.gen s.slots) : Sound (s.succeed w) := by
  cases w with
  | reg rd v =>
    refine sound_of_idle h.config h.slots (fun r => ?_) (statusOk_clear h.status) rfl
    rw [succeed_reg, reg_wrote]
    split_ifs
    · exact hw
    · exact h.regs r
  | quotRem rd q rc v =>
    refine sound_of_idle h.config h.slots (fun r => ?_) (statusOk_clear h.status) rfl
    rw [reg_succeed_quotRem]
    split_ifs
    · exact hw.2
    · exact hw.1
    · exact h.regs r
  | cmp c => exact sound_of_idle h.config h.slots h.regs ⟨by simp, Nat.zero_le _, code_ne_reserved c⟩ rfl
  | slot ctx c =>
    obtain ⟨hg, hid, hc⟩ := hw
    exact sound_of_idle h.config (slotsOk_set h.slots hg _ hid hc) (fun r => regOk_set_slot (h.regs r) hg _ hid)
      (statusOk_clear h.status) rfl

/-! ### What completes in a block that keeps the invariant -/

/-- Whether the engine's steps or the meaning gave it, the end of the command in flight is the command's result. -/
theorem end_eq_result {s : State} (h : Sound s) {f : Flight} {i : Instr} {r : CmdResult} (hf : s.flight = some f)
    (hd : decode s.cfg.nctx f.word = some i) (hr : r = result s.cfg i f.snap ∨ f.scratch = .done r) :
    r = result s.cfg i f.snap := by
  obtain rfl | hdone := hr
  · rfl
  · obtain ⟨i', n, hd', hsc⟩ := (h.flight f hf).scratchReached
    obtain rfl : i = i' := Option.some.inj (hd.symm.trans hd')
    exact engineStepsGiveTheResult s.cfg i f.snap n r h.config.windowPos (hsc.symm.trans hdone)

/-- What a command in flight writes keeps the invariant: its snapshot is still what the block holds. -/
theorem flight_writesOk {s : State} (h : Sound s) {f : Flight} {i : Instr} {w : Writes} (hf : s.flight = some f)
    (hw : result s.cfg i f.snap = .ok w) : w.Ok s.cfg s.gen s.slots := by
  obtain ⟨-, hregs, hslots, hgen, -, -⟩ := h.flight f hf
  rw [← hgen, ← hslots]
  refine result_writesOk (hgen ▸ hslots ▸ h.slots) (fun r => ?_) hw
  have hreg : f.snap.reg r = s.reg r := congrArg (·.get r) hregs
  rw [hreg, hgen, hslots]
  exact h.regs r

theorem sound_stepped {s t : State} (h : Sound s) (hst : Stepped s t) (hl : t.lost = false) : Sound t := by
  have hp : Sound s.popped := sound_popped h
  cases hst with
  | idle => exact hp
  | read off => exact sound_hostRead hp off
  | reject => exact sound_accErr hp true
  | clear => exact sound_accErr hp false
  | accept w i _ hd => exact sound_accept hp hd
  | illegal w => exact sound_illegal hp w
  | len r v hi hv => exact sound_setReg hp hi r (regOk_hostWritten hv (h.regs r).memFits (h.regs r).memWf)
  | limbs r j v hi hj => exact sound_hostLimbs hp hi r hj v
  | complete f i r _ hf hd hr hc =>
    obtain rfl := end_eq_result h hf hd hr
    obtain ⟨w, hw, rfl⟩ | ⟨e, -, rfl⟩ := complete_next hc
    · exact sound_succeed hp (flight_writesOk h hf hw)
    · exact sound_fail hp e
  | stray f => exact sound_fail hp _
  | engine f i hf hd => exact sound_engine hp hf hd
  | reset => exact sound_hardReset h.config
  | power => exact absurd hl (by simp [State.powerOff])

/-! ### The parameters and the invariant -/

theorem stepped_cfg {s t : State} (h : Stepped s t) : t.cfg = s.cfg := by
  cases h with
  | complete f i r _ _ _ _ hc =>
    obtain ⟨w, -, rfl⟩ | ⟨e, -, rfl⟩ := complete_next hc
    · exact State_succeed_cfg _ w
    · rfl
  | _ => rfl

/-- A block without power is reset, or stays lost and keeps its parameters (R277, log 20). -/
theorem step_lost_cases {s t : State} (hl : s.lost = true) (h : step s = .next t) :
    t.cfg = s.cfg ∧ (t.lost = true ∨ t = s.popped.hardReset) := by
  cases hi : s.inputs with
  | nil =>
    obtain rfl : s.powerOff = t := by simpa [step_lost_nil hl hi] using h
    exact ⟨rfl, .inl rfl⟩
  | cons i rest =>
    obtain rfl : State.serveLost { s with inputs := rest } i = t := by simpa [step_lost_cons hl hi] using h
    cases i with
    | reset => exact ⟨rfl, .inr (by simp [State.serveLost, State.popped, hi])⟩
    | _ => exact ⟨rfl, .inl rfl⟩

/-- Settles O45: a powered step by `Stepped`, one without power by `step_lost_cases`. -/
theorem parametersNeverChange : Obligations.ParametersNeverChange := by
  intro s t h
  cases hl : s.lost with
  | true => exact (step_lost_cases hl h).1
  | false => exact stepped_cfg (step_cases hl h)

/-- Settles O50: the parameters stay; a powered step keeps `Sound`, and a block without power that comes back does so by reset. -/
theorem stepKeepsInvariant : Obligations.StepKeepsInvariant := by
  intro s t ⟨hcfg, hsound⟩ h
  refine ⟨(parametersNeverChange s t h).symm ▸ hcfg, fun htl => ?_⟩
  cases hl : s.lost with
  | false => exact sound_stepped (hsound hl) (step_cases hl h) htl
  | true =>
    obtain ⟨-, hlost | rfl⟩ := step_lost_cases hl h
    · exact absurd (hlost.symm.trans htl) (by decide)
    · exact sound_hardReset hcfg

end Sys2Proof.Machine
end

section
/-! # The frame of the commands and of the step (10_state.md R34, R35, R38, R40; 60_exceptions.md R266). -/

namespace Sys2Proof.Machine

open Sys2Proof

/-! ### What each command leaves unchanged (10_state.md R34, 60_exceptions.md R266) -/

section
variable {cfg : Config} {i : Instr} {x : Snapshot} {w : Writes} (hw : result cfg i x = .ok w) (s : State)
include hw

/-- A register after a command that succeeds: unchanged, or a destination, and Mont only where the command may write it (R34, R35). -/
theorem reg_succeed_cases (r : RegId) : (s.succeed w).reg r = s.reg r ∨
    r ∈ i.dests ∧ (((s.succeed w).reg r).kind = .mont → i.mayWriteMont = true) := by
  obtain ⟨rd, v, rfl, hd, hk⟩ | ⟨rd, q, rc, v, rfl, hd, hc, hq, hv⟩ | ⟨c, rfl, -⟩ | ⟨ctx, c, ra, rfl, -⟩ := result_writes hw
  · rw [succeed_reg, reg_wrote]
    split_ifs with h
    · exact .inr ⟨h ▸ hd, hk⟩
    · exact .inl rfl
  · rw [reg_succeed_quotRem]
    split_ifs with h h'
    · exact .inr ⟨h ▸ hc, by simp [hv]⟩
    · exact .inr ⟨h' ▸ hd, by simp [hq]⟩
    · exact .inl rfl
  · exact .inl rfl
  · exact .inl rfl

/-- The slots and `GEN` after a command that succeeds: MCTX's slot is set and `GEN` moves on without wrapping, or nothing changes (R34, R38). -/
theorem slots_succeed_cases : ((s.succeed w).slots = s.slots ∧ (s.succeed w).gen = s.gen) ∨
    ∃ ctx ra c, i = .mctx ctx ra ∧ x.gen ≠ 0xFFFFFFFF#32 ∧
      (s.succeed w).slots = s.slots.set ctx.val (some c) ∧ (s.succeed w).gen = s.gen + 1 := by
  obtain ⟨rd, v, rfl, -⟩ | ⟨rd, q, rc, v, rfl, -⟩ | ⟨c, rfl, -⟩ | ⟨ctx, c, ra, rfl, hi, hg⟩ := result_writes hw
  · exact .inl ⟨rfl, rfl⟩
  · exact .inl ⟨rfl, rfl⟩
  · exact .inl ⟨rfl, rfl⟩
  · exact .inr ⟨ctx, ra, c, hi, hg, rfl, rfl⟩

/-- `STATUS.CMP` after a command that succeeds is unchanged, or the command is a CMP (R40). -/
theorem cmp_succeed_cases : (s.succeed w).status.cmp = s.status.cmp ∨ ∃ ra rb, i = .cmp ra rb := by
  obtain ⟨rd, v, rfl, -⟩ | ⟨rd, q, rc, v, rfl, -⟩ | ⟨c, rfl, -, hi⟩ | ⟨ctx, c, ra, rfl, -⟩ := result_writes hw
  · exact .inl rfl
  · exact .inl rfl
  · exact .inr hi
  · exact .inl rfl

end

/-- Settles O9: a failure writes only `ERR`, `ERRCODE`, `ERRCMD` and the phase; a success writes what `result_writes` lists. -/
theorem commandFrame : Obligations.CommandFrame := by
  intro i s t h
  rw [exec_eq_complete] at h
  obtain ⟨w, hw, rfl⟩ | ⟨e, -, rfl⟩ := complete_next h
  · have hslots := slots_succeed_cases hw s
    refine ⟨fun r hr => ?_, fun j hj => ?_, fun hi => ?_, fun hi => ?_, by simp, by simp, rfl, by simp, by simp, by simp,
      by simp, by simp⟩
    · exact (reg_succeed_cases hw s r).resolve_right fun hd => hr hd.1
    · obtain ⟨hsame, -⟩ | ⟨ctx, ra, c, rfl, -, hset, -⟩ := hslots
      · rw [hsame]
      · rw [hset, List.getElem?_set_ne (hj ctx rfl)]
    · obtain ⟨-, hsame⟩ | ⟨ctx, ra, c, rfl, -⟩ := hslots
      · exact hsame
      · simp [Instr.slotDest] at hi
    · obtain hsame | ⟨ra, rb, rfl⟩ := cmp_succeed_cases hw s
      · exact hsame
      · simp [Instr.writesCmp] at hi
  · simp

/-! ### What a step changes (10_state.md R35, R38, R40) -/

theorem reg_setReg_plain (s : State) (r q : RegId) {v : BigReg} (hv : v.kind = .plain) :
    (s.setReg r v).reg q = s.reg q ∨ ((s.setReg r v).reg q).kind = .plain := by
  rw [reg_setReg]
  split_ifs
  · exact .inr hv
  · exact .inl rfl

/-- A step of a block that keeps its invariant and stays powered completes the command in flight with success, or is the reset, or changes
neither `GEN` nor `CMP` nor any register, but for those it makes Plain. -/
theorem step_effect {s t : State} (hs : Sound s) (hl : s.lost = false) (h : step s = .next t) (htl : t.lost = false) :
    (∃ i x w, s.current = some i ∧ x.gen = s.gen ∧ result s.cfg i x = .ok w ∧ t = s.popped.succeed w) ∨
    (s.inputs.head? = some .reset ∧ t = s.popped.hardReset) ∨
    (t.gen = s.gen ∧ t.status.cmp = s.status.cmp ∧ ∀ r, t.reg r = s.reg r ∨ (t.reg r).kind = .plain) := by
  cases step_cases hl h with
  | complete f i r _ hf hd hr hc =>
    obtain rfl := end_eq_result hs hf hd hr
    obtain ⟨w, hw, rfl⟩ | ⟨e, -, rfl⟩ := complete_next hc
    · exact .inl ⟨i, f.snap, w, by simp [State.current, hf, hd], (hs.flight f hf).genKept, hw, rfl⟩
    · exact .inr (.inr ⟨rfl, rfl, fun r => .inl rfl⟩)
  | reset hi => exact .inr (.inl ⟨hi, rfl⟩)
  | power => exact absurd htl (by simp [State.powerOff])
  | len r v _ _ => exact .inr (.inr ⟨rfl, rfl, fun q => reg_setReg_plain s.popped r q rfl⟩)
  | limbs r j v _ _ => exact .inr (.inr ⟨rfl, rfl, fun q => reg_setReg_plain s.popped r q rfl⟩)
  | _ => exact .inr (.inr ⟨rfl, rfl, fun r => .inl rfl⟩)

/-- Settles O42: only a completion writes a Mont register, and what it may write is in `reg_succeed_cases`. -/
theorem montOnlyByMontCommands : Obligations.MontOnlyByMontCommands := by
  intro s t r hs hl h htl hk
  obtain ⟨i, x, w, hi, -, hw, rfl⟩ | ⟨-, rfl⟩ | ⟨-, -, hreg⟩ := step_effect hs hl h htl
  · obtain hsame | ⟨hd, hmay⟩ := reg_succeed_cases hw s.popped r
    · exact .inl hsame
    · exact .inr ⟨i, hi, hmay hk, hd⟩
  · simp [BigReg.reset] at hk
  · obtain hsame | hplain := hreg r
    · exact .inl hsame
    · exact absurd (hplain.symm.trans hk) (by decide)

/-- Settles O43: only the completion of an MCTX, which is refused where `GEN` would wrap, and reset write `GEN`. -/
theorem genOnlyByMctx : Obligations.GenOnlyByMctx := by
  intro s t hs hl h htl
  obtain ⟨i, x, w, hi, hx, hw, rfl⟩ | ⟨hi, rfl⟩ | ⟨hgen, -⟩ := step_effect hs hl h htl
  · obtain ⟨-, hsame⟩ | ⟨ctx, ra, c, rfl, hg, -, hgen⟩ := slots_succeed_cases hw s.popped
    · exact .inl hsame
    · have hnext := toNat_gen_succ (hx ▸ hg)
      exact .inr (.inl ⟨ctx, ra, hi, hgen, hnext ▸ (s.gen + 1).isLt⟩)
  · exact .inr (.inr ⟨hi, rfl⟩)
  · exact .inl hgen

/-- Settles O44: only a completion with success of a CMP and reset write `STATUS.CMP`. -/
theorem cmpOnlyByCmp : Obligations.CmpOnlyByCmp := by
  intro s t hs hl h htl
  obtain ⟨i, x, w, hi, -, hw, rfl⟩ | ⟨hi, rfl⟩ | ⟨-, hcmp, -⟩ := step_effect hs hl h htl
  · obtain hsame | ⟨ra, rb, rfl⟩ := cmp_succeed_cases hw s.popped
    · exact .inl hsame
    · exact .inr (.inl ⟨ra, rb, hi, rfl⟩)
  · exact .inr (.inr hi)
  · exact .inl hcmp

end Sys2Proof.Machine
end

section
/-! # The reset state, the words of the control page, and the refusal of an unspecified limb (10_state.md R33, R39, R43, R44, R48). -/

namespace Sys2Proof.Machine

open Sys2Proof

/-! ### Reset (10_state.md R48) -/

theorem reg_reset (r : RegId) : State.reset.reg r = BigReg.reset := reg_hardReset State.reset r

theorem le_windowSearch (n fuel k : Nat) : k ≤ windowSearch n fuel k := by
  induction fuel generalizing k with
  | zero => exact Nat.le_refl k
  | succ fuel ih =>
    unfold windowSearch
    split_ifs
    · exact Nat.le_of_succ_le (ih (k + 1))
    · exact Nat.le_refl k

/-- The reference parameters meet the requirements of R5 and R231. -/
theorem configOk_reference : ConfigOk Config.reference :=
  ⟨by decide, by decide, by decide, fun n => le_windowSearch n n 1, by decide +kernel⟩

/-- Settles O46: every register is `BigReg.reset`, every slot is empty, and the other fields are as written in `State.resetWith`. -/
theorem resetValues : Obligations.ResetValues := by
  have hempty : ∀ c, some c ∉ State.reset.slots := by
    intro c hc
    exact absurd (List.eq_of_mem_replicate hc) (by simp)
  have hslot : ∀ c, State.reset.slots.getD c none = none := by
    intro c
    rw [List.getD_eq_getElem?_getD]
    exact List.getElem?_getD_replicate_default_eq _ _ c
  refine ⟨fun r => ?_, rfl, hempty, fun c k => ?_, rfl, by decide, rfl, rfl, rfl, by decide⟩
  · rw [reg_reset]
    exact ⟨rfl, rfl, rfl, fun _ => rfl⟩
  · rw [hslot]
    rfl

/-- Settles O49: the reset state is what a reset of any block with these parameters leaves. -/
theorem resetMeetsInvariant : Obligations.ResetMeetsInvariant :=
  ⟨configOk_reference, fun _ => sound_hardReset (s := State.reset) configOk_reference⟩

/-! ### The words the host reads of the control page (10_state.md R39, R43, R44) -/

theorem flag_lt (b : Bool) : flag b < 2 := by cases b <;> decide

theorem toNat_statusWord (s : State) : s.statusWord.toNat =
    flag s.busy + 2 * flag s.status.err + 4 * flag s.status.accErr + 8 * s.status.cmp.toNat + 256 * s.status.errCode.toNat := by
  have h0 := flag_lt s.busy
  have h1 := flag_lt s.status.err
  have h2 := flag_lt s.status.accErr
  have h3 := s.status.cmp.isLt
  have h4 := s.status.errCode.isLt
  rw [State.statusWord, BitVec.toNat_ofNat, Nat.mod_eq_of_lt (by omega)]

theorem getLsbD_eq_of_flag {w : Word} {i : Nat} {b : Bool} (h : w.toNat / 2 ^ i % 2 = flag b) : w.getLsbD i = b := by
  rw [BitVec.getLsbD, Nat.testBit_eq_decide_div_mod_eq, h]
  cases b <;> rfl

/-- The field of `n` bits from bit `lo` of a word, as a number. -/
theorem toNat_field (w : Word) (lo n : Nat) : (w.extractLsb' lo n).toNat = w.toNat / 2 ^ lo % 2 ^ n := by
  rw [BitVec.extractLsb'_toNat, Nat.shiftRight_eq_div_pow]

theorem field_eq {w : Word} {lo n : Nat} {v : BitVec n} (h : w.toNat / 2 ^ lo % 2 ^ n = v.toNat) : w.extractLsb' lo n = v :=
  BitVec.eq_of_toNat_eq ((toNat_field w lo n).trans h)

theorem field_eq_zero {w : Word} {lo n : Nat} (h : w.toNat / 2 ^ lo % 2 ^ n = 0) : w.extractLsb' lo n = 0#n :=
  field_eq (by simpa using h)

/-- Settles O30: each field is the number at its place in the sum that `STATUS` is. -/
theorem statusLayout : Obligations.StatusLayout := by
  intro s
  have h0 := flag_lt s.busy
  have h1 := flag_lt s.status.err
  have h2 := flag_lt s.status.accErr
  have h3 := s.status.cmp.isLt
  have h4 := s.status.errCode.isLt
  have hw := toNat_statusWord s
  refine ⟨getLsbD_eq_of_flag (b := s.busy) ?_, getLsbD_eq_of_flag ?_, getLsbD_eq_of_flag ?_, field_eq ?_, field_eq_zero ?_,
    field_eq ?_, field_eq_zero ?_⟩
  all_goals omega

/-- A read of a control-page offset returns the word that stands there and changes nothing else (R79, R85). -/
theorem step_read_control {s : State} {rest : List Input} {off : Nat} (hl : s.lost = false) (h : off < 0x1000) (h4 : off % 4 = 0)
    (hi : s.inputs = .read (s.cfg.blockBase + off) 4 :: rest) :
    step s = .next { s with inputs := rest, reply := some (s.readPlace (controlPlace s.cfg off)) } := by
  have hoff : offsetOf s.cfg (s.cfg.blockBase + off) 4 = .ok off := offsetOf_aligned _ _ (by omega) h4
  rw [step_cons hl hi]
  simp only [State.serve, State.serveRead, hoff, State.hostRead, State.readWord, place, if_pos h, Nat.not_le.2 h, false_and, if_false]
  cases controlPlace s.cfg off <;> rfl

/-- A write to a control-page offset is the write to the place that stands there. -/
theorem step_write_control {s : State} {rest : List Input} {off : Nat} {v : Word} (hl : s.lost = false) (h : off < 0x1000)
    (h4 : off % 4 = 0) (hi : s.inputs = .write (s.cfg.blockBase + off) 4 v :: rest) :
    step s = .next (State.writePlace { s with inputs := rest } (decode s.cfg.nctx v).isSome (controlPlace s.cfg off) v) := by
  have hoff : offsetOf s.cfg (s.cfg.blockBase + off) 4 = .ok off := offsetOf_aligned _ _ (by omega) h4
  rw [step_cons hl hi]
  simp only [State.serve, State.serveWrite, hoff, State.hostWrite, place, if_pos h]

theorem toNat_configWord {cfg : Config} (h : ConfigOk cfg) :
    (configWord cfg).toNat = cfg.maxLimbs + 16 * 2 ^ 16 + cfg.nctx * 2 ^ 24 := by
  obtain ⟨-, hmax⟩ := h.maxRange
  obtain ⟨-, hctx⟩ := h.nctxRange
  rw [configWord, BitVec.toNat_ofNat]
  omega

/-- Settles O32: reads of the control page (`step_read_control`), and `CONFIG` field by field. -/
theorem controlPageReads : Obligations.ControlPageReads := by
  intro s rest hl hc
  obtain ⟨-, hmax⟩ := hc.maxRange
  obtain ⟨-, hctx⟩ := hc.nctxRange
  have hw := toNat_configWord hc
  have hread {off : Nat} (h : off < 0x1000) (h4 : off % 4 = 0) := step_read_control (rest := rest) hl h h4
  refine ⟨hread (by decide) (by decide), hread (by decide) (by decide), fun hi =>
    ⟨configWord s.cfg, hread (by decide) (by decide) hi, ?_, field_eq_zero ?_, ?_, field_eq_zero ?_, ?_, field_eq_zero ?_⟩⟩
  · rw [toNat_field]; omega
  · omega
  · rw [toNat_field]; omega
  · omega
  · rw [toNat_field]; omega
  · omega

theorem controlPlace_ctxInfo {cfg : Config} {c k : Nat} (hc : c < cfg.nctx) (hk : k < 4) :
    controlPlace cfg (0x100 + 0x10 * c + 4 * k) = .ctxInfo c k := by
  unfold controlPlace
  rw [if_neg (by omega), if_neg (by omega), if_neg (by omega), if_neg (by omega), if_neg (by omega), if_pos (by omega),
    show (0x100 + 0x10 * c + 4 * k - 0x100) / 0x10 = c by omega, show (0x100 + 0x10 * c + 4 * k) % 0x10 / 4 = k by omega]

/-- Settles O33: the read and the write of the place `controlPlace_ctxInfo` gives; `L` fits its field by the slot invariant. -/
theorem ctxInfoWords : Obligations.CtxInfoWords := by
  intro s v rest c k hl hcfg hc hk hs
  obtain ⟨-, hmax⟩ := hcfg.maxRange
  obtain ⟨-, hctx⟩ := hcfg.nctxRange
  have hp := controlPlace_ctxInfo hc hk
  have hoff : 0x100 + 0x10 * c + 4 * k < 0x1000 := by omega
  have h4 : (0x100 + 0x10 * c + 4 * k) % 4 = 0 := by omega
  refine ⟨fun hi => ⟨ctxInfo (s.slots.getD c none) k, ?_, fun he => ?_, fun x hx => ?_⟩, fun hi => ?_⟩
  · rw [step_read_control hl hoff h4 hi, hp]
    rfl
  · simp [List.getD_eq_getElem?_getD, he, ctxInfo]
  · have hfits := (hs.each c x hx).fits
    rw [List.getD_eq_getElem?_getD, hx, Option.getD_some]
    refine ⟨?_, ?_, ?_, ?_⟩ <;> rintro rfl
    · cases hx0 : x.n0odd <;> simp [ctxInfo, hx0, flag]
    · rfl
    · simp only [ctxInfo, BitVec.toNat_ofNat]; omega
    · rfl
  · rw [step_write_control hl hoff h4 hi, hp]
    rfl

/-! ### A source with an unspecified limb (10_state.md R33, 93_implementation_defined.md U2) -/

theorem exec_refused {i : Instr} {s : State} {r : Refusal} (h : result s.cfg i s.sources = .error (.refuse r)) :
    exec i s = .refused r := by
  rw [exec_eq_complete, h]
  rfl

section
variable {x : Snapshot} {ra rb : RegId}

/-- Reading two sources, of which one has an unspecified limb, is refused for the first that has one. -/
theorem readLimbs_two_refused (h : (x.reg ra).seq = none ∨ (x.reg rb).seq = none) :
    ∃ r, (r = ra ∨ r = rb) ∧ (x.reg r).seq = none ∧ ∀ {γ : Type} (f : List Limb → List Limb → Except Stop γ),
      (do let s ← readLimbs x ra; let t ← readLimbs x rb; f s t) = .error (.refuse (.unspecifiedLimb r)) := by
  cases ha : (x.reg ra).seq with
  | none => exact ⟨ra, .inl rfl, ha, fun f => by simp [readLimbs_error.2 ⟨ha, rfl⟩]⟩
  | some s =>
    have hb : (x.reg rb).seq = none := h.resolve_left (by simp [ha])
    exact ⟨rb, .inr rfl, hb, fun f => by simp [readLimbs_ok.2 ha, readLimbs_error.2 ⟨hb, rfl⟩]⟩

theorem requireKind_of_kind {r : RegId} {k : Kind} (h : (x.reg r).kind = k) : requireKind x r k = .ok () := requireKind_ok.2 h

theorem plain2_refused (hk : (x.reg ra).kind = .plain ∧ (x.reg rb).kind = .plain)
    (h : (x.reg ra).seq = none ∨ (x.reg rb).seq = none) :
    ∃ r, (r = ra ∨ r = rb) ∧ (x.reg r).seq = none ∧ plain2 x ra rb = .error (.refuse (.unspecifiedLimb r)) := by
  obtain ⟨r, hr, hn, hread⟩ := readLimbs_two_refused h
  exact ⟨r, hr, hn, by simp only [plain2, requireKind_of_kind hk.1, requireKind_of_kind hk.2, ok_bind, hread]⟩

theorem plain1_refused (hk : (x.reg ra).kind = .plain) (h : (x.reg ra).seq = none) :
    plain1 x ra = .error (.refuse (.unspecifiedLimb ra)) := by
  simp only [plain1, requireKind_of_kind hk, ok_bind, readLimbs_error.2 ⟨h, rfl⟩]

theorem liveContext_of_mem {t : Word} (h : ∃ c, some c ∈ x.slots ∧ c.id = t) : ∃ c, liveContext x t = .ok c := by
  obtain ⟨c, hc, hid⟩ := h
  cases hx : x.ctxOf t with
  | none => exact absurd hid (ctxOf_none.1 hx c hc)
  | some d => exact ⟨d, liveContext_ok.2 hx⟩

theorem mmulOperands_refused (hk : (x.reg ra).kind = .mont ∧ (x.reg rb).kind = .mont) (ht : (x.reg ra).tag = (x.reg rb).tag)
    (hc : ∃ c, some c ∈ x.slots ∧ c.id = (x.reg ra).tag) (h : (x.reg ra).seq = none ∨ (x.reg rb).seq = none) :
    ∃ r, (r = ra ∨ r = rb) ∧ (x.reg r).seq = none ∧ mmulOperands x ra rb = .error (.refuse (.unspecifiedLimb r)) := by
  obtain ⟨r, hr, hn, hread⟩ := readLimbs_two_refused h
  obtain ⟨c, hc⟩ := liveContext_of_mem hc
  exact ⟨r, hr, hn, by simp only [mmulOperands, requireKind_of_kind hk.1, requireKind_of_kind hk.2, ne_eq, ht, not_true_eq_false, if_false,
    ht ▸ hc, ok_bind, hread]⟩

theorem mpowOperands_refused (hk : (x.reg ra).kind = .mont ∧ (x.reg rb).kind = .plain)
    (hc : ∃ c, some c ∈ x.slots ∧ c.id = (x.reg ra).tag) (h : (x.reg ra).seq = none ∨ (x.reg rb).seq = none) :
    ∃ r, (r = ra ∨ r = rb) ∧ (x.reg r).seq = none ∧ mpowOperands x ra rb = .error (.refuse (.unspecifiedLimb r)) := by
  obtain ⟨r, hr, hn, hread⟩ := readLimbs_two_refused h
  obtain ⟨c, hc⟩ := liveContext_of_mem hc
  exact ⟨r, hr, hn, by simp only [mpowOperands, requireKind_of_kind hk.1, requireKind_of_kind hk.2, hc, ok_bind, hread]⟩

end

/-- Settles O18: a command's outcome is its operand reads' refusal, whatever it would compute. -/
theorem unspecifiedLimbIsRefused : Obligations.UnspecifiedLimbIsRefused := by
  intro s ra rb
  refine ⟨fun hk h i hi => ?_, fun hk h i hi => ?_, fun h rd => ?_, fun hk h rd ctx hslot => ?_, fun hk ht hc h rd => ?_,
    fun hk hc h rd => ?_, fun hk hc h rd => ?_⟩
  · obtain ⟨r, hr, hn, hp⟩ := plain2_refused hk h
    refine ⟨r, hr, hn, exec_refused ?_⟩
    obtain ⟨rd, rc, rfl | rfl | rfl | rfl | rfl⟩ := hi
    · simp [result, addResult, hp]
    · simp [result, subResult, hp]
    · simp [result, mulResult, hp]
    · simp [result, divmodResult, hp]
    · simp [result, cmpResult, hp]
  · have hp := plain1_refused hk h
    refine exec_refused ?_
    obtain ⟨rd, ctx, rfl | rfl⟩ := hi
    · simp [result, trimResult, hp]
    · simp [result, mctxResult, hp]
  · exact exec_refused (by simp [result, movResult, readLimbs_error.2 ⟨h, rfl⟩])
  · obtain ⟨c, hc⟩ := Option.ne_none_iff_exists'.1 hslot
    exact exec_refused (by simp [result, mconvResult, mconvOperands, requireKind_of_kind hk, hc, readLimbs_error.2 ⟨h, rfl⟩])
  · obtain ⟨r, hr, hn, hp⟩ := mmulOperands_refused hk ht hc h
    exact ⟨r, hr, hn, exec_refused (by simp [result, mmulResult, hp])⟩
  · obtain ⟨r, hr, hn, hp⟩ := mpowOperands_refused hk hc h
    exact ⟨r, hr, hn, exec_refused (by simp [result, mpowResult, hp])⟩
  · obtain ⟨c, hlive⟩ := liveContext_of_mem hc
    exact exec_refused (by simp [result, moutResult, moutOperands, requireKind_of_kind hk, hlive, readLimbs_error.2 ⟨h, rfl⟩])

end Sys2Proof.Machine
end

section
/-! # The host's accesses (20_memory.md): the control page, the register windows, the accesses that are rejected or stop, and loading a
value. -/

namespace Sys2Proof.Machine

open Sys2Proof

/-! ### Accesses that stop, and reads (20_memory.md R70, R71, R85) -/

/-- Settles O40: `offsetOf` finds no offset, so neither access is served. -/
theorem badAccessesStop : Obligations.BadAccessesStop := by
  intro s addr width v rest hl hi
  refine ⟨fun hin hform => ?_, fun hout => ?_⟩
  · have hoff := offsetOf_badForm s.cfg addr width hin hform
    obtain hi | hi := hi <;> simp [step_cons hl hi, State.serve, State.serveRead, State.serveWrite, hoff]
  · have hoff := offsetOf_outside s.cfg addr width hout
    obtain hi | hi := hi <;> simp [step_cons hl hi, State.serve, State.serveRead, State.serveWrite, hoff]

/-- Settles O41: a served read is `hostRead`. -/
theorem readsHaveNoSideEffect : Obligations.ReadsHaveNoSideEffect := by
  intro s t addr width rest hl hi h
  rw [step_cons hl hi] at h
  obtain ⟨off, -, rfl⟩ := serveRead_next h
  rfl

/-! ### `CMD` and `STATUS` (20_memory.md R73, R74) -/

theorem hostCommand_busy {s : State} (hf : s.flight ≠ none) (d : Bool) (w : Word) : s.hostCommand d w = s.reject :=
  if_pos (Option.isSome_iff_ne_none.2 hf)

theorem hostCommand_idle {s : State} (hf : s.flight = none) (d : Bool) (w : Word) :
    s.hostCommand d w = if d then s.accept w else (s.accept w).fail .illegalCommand :=
  if_neg (by simp [State.busy, hf])

/-- Settles O7: the accesses to offset 0 of the control page; acceptance, failure and rejection written out. -/
theorem cmdRegister : Obligations.CmdRegister := by
  intro s w rest hl
  have hwrite : s.inputs = .write s.cfg.blockBase 4 w :: rest →
      step s = .next (State.hostCommand { s with inputs := rest } (decode s.cfg.nctx w).isSome w) :=
    step_write_control (off := 0) hl (by decide) rfl
  refine ⟨fun hi hf hd => ?_, fun hi hf hd => ?_, fun hi hf => ?_, step_read_control (off := 0) hl (by decide) rfl⟩
  · rw [hwrite hi, hostCommand_idle (s := { s with inputs := rest }) hf, hd]
    rfl
  · rw [hwrite hi, hostCommand_idle (s := { s with inputs := rest }) hf, hd]
    simp [State.accept, State.fail, ErrKind.code, hf]
  · rw [hwrite hi, hostCommand_busy (s := { s with inputs := rest }) hf]
    rfl

/-- Settles O31: the accesses to offset 4 of the control page, which do not look at the engine phase. -/
theorem statusRegister : Obligations.StatusRegister := by
  intro s v rest hl
  refine ⟨step_read_control hl (by decide) rfl, fun hi => ?_⟩
  rw [step_write_control hl (by decide) rfl hi]
  change Host.Outcome.next (State.hostStatus { s with inputs := rest } v) = _
  unfold State.hostStatus
  split_ifs <;> rfl

/-! ### The register windows (20_memory.md R75, R80, R81) -/

/-- An offset from 0x1000 on is an offset of one register's window (R72). -/
theorem exists_window {off : Nat} (h : 0x1000 ≤ off) (hlt : off < 0x11000) :
    ∃ (r : RegId) (o : Nat), o < 0x1000 ∧ off = 0x1000 * (r.val + 1) + o :=
  ⟨⟨off / 0x1000 - 1, by omega⟩, off % 0x1000, Nat.mod_lt _ (by decide), by simp only; omega⟩

section
variable {s : State} {r : RegId} {o addr : Nat} {v : Word} {rest : List Input} (ho : o < 0x1000) (h4 : o % 4 = 0)
  (ha : addr = s.cfg.blockBase + (0x1000 * (r.val + 1) + o))
include ho h4 ha

theorem offsetOf_window : offsetOf s.cfg addr 4 = .ok (0x1000 * (r.val + 1) + o) := by
  have := r.isLt
  exact ha ▸ offsetOf_aligned s.cfg _ (by omega) (by omega)

/-- A read of a register window while idle returns the word that stands there and moves the count of free values on (R76 to R78). -/
theorem step_read_window (hl : s.lost = false) (hf : s.flight = none) (hi : s.inputs = .read addr 4 :: rest) :
    step s = .next { s with inputs := rest, reply := some (s.readPlace (registerPlace s.cfg r o)), draws := s.draws + 2 } := by
  have hb : State.busy { s with inputs := rest } = false := by simp [State.busy, hf]
  rw [step_cons hl hi]
  simp only [State.serve, State.serveRead, offsetOf_window ho h4 ha, State.hostRead, State.readWord, hb, Bool.false_eq_true, and_false,
    if_false, place_window s.cfg r o ho, if_neg (show ¬0x1000 * (r.val + 1) + o < 0x1000 by omega)]
  cases registerPlace s.cfg r o <;> rfl

/-- A write to a register window is the write to the place that stands there. -/
theorem step_write_window (hl : s.lost = false) (hi : s.inputs = .write addr 4 v :: rest) :
    step s = .next (State.writePlace { s with inputs := rest } (decode s.cfg.nctx v).isSome (registerPlace s.cfg r o) v) := by
  rw [step_cons hl hi]
  simp only [State.serve, State.serveWrite, offsetOf_window ho h4 ha, State.hostWrite, place_window s.cfg r o ho]

end

/-! ### `LEN` (20_memory.md R76) -/

theorem writePlace_len_rejected {s : State} {d : Bool} {r : RegId} {v : Word} (h : s.cfg.maxLimbs < v.toNat ∨ s.flight ≠ none) :
    s.writePlace d (.len r) v = s.reject := by
  cases hf : s.flight with
  | some f => simp [State.writePlace, State.busy, hf]
  | none => simp [State.writePlace, State.busy, hf, State.hostLen, h.resolve_right (not_not_intro hf)]

theorem step_write_len {s : State} {r : RegId} {v : Word} {rest : List Input} (hl : s.lost = false) (hf : s.flight = none)
    (hv : v.toNat ≤ s.cfg.maxLimbs) (hi : s.inputs = .write (s.cfg.blockBase + 0x1000 * (r.val + 1)) 4 v :: rest) :
    step s = .next (State.setReg { s with inputs := rest } r { len := v.toNat, mem := (s.reg r).mem, kind := .plain, tag := 0 }) := by
  rw [step_write_window (o := 0) (by decide) rfl rfl hl hi]
  simp [registerPlace, State.writePlace, State.busy, hf, State.hostLen, Nat.not_lt.2 hv, State.reg]

/-- Settles O34: the accesses to offset 0 of a register window. -/
theorem lenRegister : Obligations.LenRegister := by
  intro s r v rest hl
  refine ⟨fun hf hi => ⟨_, step_read_window (o := 0) (by decide) rfl rfl hl hf hi⟩, fun hf hi hv => step_write_len hl hf hv hi,
    fun hi hrej => ?_⟩
  rw [step_write_window (o := 0) (by decide) rfl rfl hl hi]
  exact congrArg _ (writePlace_len_rejected hrej)

/-! ### Limb words (20_memory.md R77, R83) -/

/-- The word with limb `lo` in bits 15:0 and limb `hi` in bits 31:16 (R77). -/
def pairWord (lo hi : Limb) : Word := BitVec.ofNat 32 (hi.toNat * 2 ^ 16 + lo.toNat)

theorem toNat_pairWord (lo hi : Limb) : (pairWord lo hi).toNat = hi.toNat * 2 ^ 16 + lo.toNat := by
  have := lo.isLt
  have := hi.isLt
  rw [pairWord, BitVec.toNat_ofNat, Nat.mod_eq_of_lt (by omega)]

@[simp] theorem pairWord_low (lo hi : Limb) : (pairWord lo hi).extractLsb' 0 16 = lo := by
  have := lo.isLt
  exact field_eq (by rw [toNat_pairWord]; omega)

@[simp] theorem pairWord_high (lo hi : Limb) : (pairWord lo hi).extractLsb' 16 16 = hi := by
  have := lo.isLt
  have := hi.isLt
  exact field_eq (by rw [toNat_pairWord]; omega)

theorem limbWord_eq (v : BigReg) (draws j : Nat) : v.limbWord draws j = pairWord
    ((Memory.read v.mem (2 * j)).getD (Config.freeLimb draws)) ((Memory.read v.mem (2 * j + 1)).getD (Config.freeLimb (draws + 1))) := rfl

/-- The storage after a host write of limb word `j` (R77). -/
def writeWord (m : Memory) (j : Nat) (v : Word) : Memory :=
  Memory.write (Memory.write m (2 * j) (v.extractLsb' 0 16)) (2 * j + 1) (v.extractLsb' 16 16)

theorem read_writeWord_low (m : Memory) (j : Nat) (v : Word) : Memory.read (writeWord m j v) (2 * j) = some (v.extractLsb' 0 16) := by
  rw [writeWord, read_write_ne _ _ (by omega), read_write_self]

theorem read_writeWord_high (m : Memory) (j : Nat) (v : Word) :
    Memory.read (writeWord m j v) (2 * j + 1) = some (v.extractLsb' 16 16) := read_write_self _ _ _

theorem read_writeWord_ne (m : Memory) {i j : Nat} (v : Word) (h : i ≠ 2 * j) (h' : i ≠ 2 * j + 1) :
    Memory.read (writeWord m j v) i = Memory.read m i := by
  rw [writeWord, read_write_ne _ _ h', read_write_ne _ _ h]

theorem registerPlace_limbWord {cfg : Config} (r : RegId) {j : Nat} (h : j < cfg.maxLimbs / 2) (hm : cfg.maxLimbs ≤ 1024) :
    registerPlace cfg r (0x800 + 4 * j) = .limbWord r j :=
  (place_window cfg r _ (by omega)).symm.trans (place_limbWord cfg r j h hm)

theorem step_write_limbs {s : State} {r : RegId} {j : Nat} {v : Word} {rest : List Input} (hl : s.lost = false) (hc : ConfigOk s.cfg)
    (hj : j < s.cfg.maxLimbs / 2) (hf : s.flight = none)
    (hi : s.inputs = .write (s.cfg.blockBase + (0x1000 * (r.val + 1) + 0x800 + 4 * j)) 4 v :: rest) :
    step s = .next (State.setReg { s with inputs := rest } r
      { len := (s.reg r).len, mem := writeWord (s.reg r).mem j v, kind := .plain, tag := 0 }) := by
  obtain ⟨-, hmax⟩ := hc.maxRange
  rw [step_write_window (r := r) (o := 0x800 + 4 * j) (by omega) (by omega) (by omega) hl hi, registerPlace_limbWord r hj hmax]
  simp [State.writePlace, State.busy, hf, State.hostLimbs, writeWord, State.reg]

/-- Settles O35: the accesses to limb word `j` of a register window, cell by cell. -/
theorem limbWords : Obligations.LimbWords := by
  intro s r j v rest hl hc hj hf
  obtain ⟨-, hmax⟩ := hc.maxRange
  refine ⟨fun hi => ⟨s.draws + 2, (s.reg r).limbWord s.draws j, ?_, fun x hx => ?_, fun x hx => ?_⟩,
    fun hi => ⟨writeWord (s.reg r).mem j v, step_write_limbs hl hc hj hf hi, read_writeWord_low _ j v, read_writeWord_high _ j v,
      fun i hlo hhi => read_writeWord_ne _ v hlo hhi⟩⟩
  · rw [step_read_window (r := r) (o := 0x800 + 4 * j) (by omega) (by omega) (by omega) hl hf hi, registerPlace_limbWord r hj hmax]
    rfl
  · rw [limbWord_eq, pairWord_low, hx, Option.getD_some]
  · rw [limbWord_eq, pairWord_high, hx, Option.getD_some]

/-! ### Places that no write changes (20_memory.md R78, R79, R81, R82) -/

/-- The places that a host write never changes. -/
def Place.readOnly : Place → Bool
  | .cmd => false
  | .status => false
  | .len _ => false
  | .limbWord _ _ => false
  | .errCmd => true
  | .config => true
  | .gen => true
  | .ctxInfo _ _ => true
  | .kind _ => true
  | .tag _ => true
  | .unmapped => true

theorem writePlace_readOnly {p : Place} (h : p.readOnly = true) (s : State) (d : Bool) (v : Word) : s.writePlace d p v = s.reject := by
  cases p with
  | cmd | status | len | limbWord => exact absurd h Bool.false_ne_true
  | _ => rfl

theorem controlPlace_readOnly (cfg : Config) {off : Nat} (h : 8 ≤ off) : (controlPlace cfg off).readOnly = true := by
  unfold controlPlace
  rw [if_neg (by omega), if_neg (by omega)]
  split_ifs <;> rfl

theorem controlPlace_unmapped {cfg : Config} {off : Nat} (h : (0x14 ≤ off ∧ off < 0x100) ∨ (0x100 + 0x10 * cfg.nctx ≤ off)) :
    controlPlace cfg off = .unmapped := by
  unfold controlPlace
  rw [if_neg (by omega), if_neg (by omega), if_neg (by omega), if_neg (by omega), if_neg (by omega), if_neg (by omega)]

theorem registerPlace_unmapped {cfg : Config} (r : RegId) {o : Nat} (h : (0xC ≤ o ∧ o < 0x800) ∨ 0x800 + 2 * cfg.maxLimbs ≤ o) :
    registerPlace cfg r o = .unmapped := by
  unfold registerPlace
  rw [if_neg (by omega), if_neg (by omega), if_neg (by omega), if_neg (by omega)]

/-- Settles O37: the accesses to offsets 4 and 8 of a register window. -/
theorem kindAndTagRegisters : Obligations.KindAndTagRegisters := by
  intro s r v rest hl
  refine ⟨fun hf hi => ⟨s.draws + 2, ?_⟩, fun hf hi => ⟨_, step_read_window (by decide) rfl rfl hl hf hi⟩,
    fun h => h.elim (step_write_window (by decide) rfl rfl hl) (step_write_window (by decide) rfl rfl hl)⟩
  rw [step_read_window (by decide) rfl rfl hl hf hi]
  cases hk : (s.reg r).kind <;> simp [registerPlace, State.readPlace, hk, Kind.word]

/-- Settles O38: what stands at these offsets is read-only, and unmapped where the read is of an unmapped offset. -/
theorem readOnlyAndUnmapped : Obligations.ReadOnlyAndUnmapped := by
  intro s off v rest hl _ h4 hlt
  refine ⟨fun hi hoff => ?_, fun hi hoff => ?_, fun hi hf hge hoff => ?_⟩
  · by_cases hctl : off < 0x1000
    · rw [step_write_control hl hctl h4 hi, writePlace_readOnly (controlPlace_readOnly s.cfg (by omega))]
      rfl
    · obtain ⟨r, o, ho, rfl⟩ := exists_window (Nat.not_lt.1 hctl) hlt
      rw [step_write_window ho (by omega) rfl hl hi, registerPlace_unmapped r (by omega)]
      rfl
  · rw [step_read_control hl (by omega) h4 hi, controlPlace_unmapped (by omega)]
    rfl
  · obtain ⟨r, o, ho, rfl⟩ := exists_window hge hlt
    rw [step_read_window ho (by omega) rfl hl hf hi, registerPlace_unmapped r (by omega)]
    exact ⟨_, rfl⟩

/-! ### Accesses while busy (20_memory.md R80, R81, R84, R86) -/

theorem offsetOf_ok {cfg : Config} {addr width off : Nat} (h : offsetOf cfg addr width = .ok off) : off = addr - cfg.blockBase := by
  unfold offsetOf at h
  split_ifs at h
  exact (Except.ok.inj h).symm

theorem hostStatus_cases (s : State) (v : Word) :
    s.hostStatus v = s ∨ s.hostStatus v = { s with status := { s.status with accErr := false } } := by
  unfold State.hostStatus
  split_ifs
  · exact .inr rfl
  · exact .inl rfl

/-- While busy, a served write is a write of `STATUS` or is rejected (R74, R81). -/
theorem hostWrite_busy {s : State} (hb : s.flight ≠ none) (off : Nat) (v : Word) :
    s.hostWrite off v = s.reject ∨ (place s.cfg off = .status ∧ s.hostWrite off v = s.hostStatus v) := by
  have hbusy : s.busy ≠ false := by simpa [State.busy] using hb
  obtain h | ⟨-, hidle, -⟩ | ⟨-, hidle, -⟩ | h | ⟨r, -, hidle, -⟩ | ⟨r, j, -, hidle, -⟩ :=
    writePlace_cases s (decode s.cfg.nctx v).isSome (place s.cfg off) v
  · exact .inl h
  · exact absurd hidle hbusy
  · exact absurd hidle hbusy
  · exact .inr h
  · exact absurd hidle hbusy
  · exact absurd hidle hbusy

theorem place_eq_status {cfg : Config} {off : Nat} (h : place cfg off = .status) : off = 4 := by
  unfold place controlPlace registerPlace at h
  split_ifs at h
  assumption

/-- Settles O39: a served read is `hostRead`; a served write is rejected or moves `ACCERR` only (`hostWrite_busy`). -/
theorem busyBlockKeepsItsCommand : Obligations.BusyBlockKeepsItsCommand := by
  intro s t i rest hl hb hi h
  rw [step_cons hl hi] at h
  refine ⟨?_, ?_⟩
  · rintro (⟨addr, width, rfl⟩ | ⟨addr, width, v, rfl⟩)
    · obtain ⟨off, -, rfl⟩ := serveRead_next h
      simp
    · obtain ⟨off, -, rfl⟩ := serveWrite_next h
      obtain hrej | ⟨-, hst⟩ := hostWrite_busy (s := { s with inputs := rest }) hb off v
      · simp [hrej]
      · rw [hst]
        obtain h' | h' := hostStatus_cases { s with inputs := rest } v <;> simp [h']
  · rintro off v rfl hoff
    obtain ⟨off', ho, rfl⟩ := serveWrite_next h
    obtain rfl : off' = off := (offsetOf_ok ho).trans (Nat.add_sub_cancel_left _ _)
    obtain hrej | ⟨hp, -⟩ := hostWrite_busy (s := { s with inputs := rest }) hb off' v
    · exact hrej
    · have := place_eq_status hp
      omega

/-! ### The host loads a value (20_memory.md R76, R77; 30_encoding.md R109) -/

/-- The host's write of the `LEN` of a value. -/
def lenInput (cfg : Config) (r : RegId) (a : List Limb) : Input :=
  .write (cfg.blockBase + 0x1000 * (r.val + 1)) 4 (BitVec.ofNat 32 a.length)

/-- The host's write of limb word `j` of the register with limbs `2k` and `2k + 1` of a value, 0 past its end (R77). -/
def limbInput (cfg : Config) (r : RegId) (a : List Limb) (j k : Nat) : Input :=
  .write (cfg.blockBase + (0x1000 * (r.val + 1) + 0x800 + 4 * j)) 4 (pairWord (a.getD (2 * k) 0) (a.getD (2 * k + 1) 0))

theorem wlen_eq (cfg : Config) (r : RegId) (a : List Limb) : wlen cfg r a.length = [lenInput cfg r a] := rfl

theorem mem_wlimbWords {cfg : Config} {r : RegId} {j : Nat} {a : List Limb} {i : Input} :
    i ∈ wlimbWords cfg r j a ↔ ∃ k, 2 * k < a.length ∧ i = limbInput cfg r a (j + k) k := by
  induction j, a using wlimbWords.induct with
  | case1 j => simp [wlimbWords]
  | case2 j x =>
    have hk : ∀ k, 2 * k < 1 ↔ k = 0 := by omega
    simp [wlimbWords, limbInput, pairWord, hk, Nat.add_assoc]
  | case3 j x y s ih =>
    rw [wlimbWords, List.mem_cons, ih]
    constructor
    · rintro (rfl | ⟨k, hk, rfl⟩)
      · exact ⟨0, by simp, by simp [limbInput, pairWord, Nat.add_assoc]⟩
      · exact ⟨k + 1, by simp; omega, by simp [limbInput, Nat.mul_add, Nat.add_assoc, Nat.add_comm 1]⟩
    · rintro ⟨_ | k, hk, rfl⟩
      · exact .inl (by simp [limbInput, pairWord, Nat.add_assoc])
      · exact .inr ⟨k, by simp at hk; omega, by simp [limbInput, Nat.mul_add, Nat.add_assoc, Nat.add_comm 1]⟩

theorem mem_wlimbs {cfg : Config} {r : RegId} {a : List Limb} {i : Input} :
    i ∈ wlimbs cfg r a ↔ ∃ k, 2 * k < a.length ∧ i = limbInput cfg r a k k := by
  simp only [wlimbs, mem_wlimbWords, Nat.zero_add]

theorem lenInput_ne_limbInput (cfg : Config) (r : RegId) (a : List Limb) (k : Nat) : lenInput cfg r a ≠ limbInput cfg r a k k := by
  simp only [lenInput, limbInput, ne_eq, Input.write.injEq]
  omega

theorem limbInput_inj {cfg : Config} {r : RegId} {a : List Limb} {k l : Nat} (h : limbInput cfg r a k k = limbInput cfg r a l l) :
    k = l := by
  simp only [limbInput, Input.write.injEq] at h
  omega

/-- A register on the way to holding the value `a`: what it does not hold yet, one of the writes `left` still brings. -/
structure Loading (cfg : Config) (r : RegId) (a : List Limb) (left : List Input) (v : BigReg) : Prop where
  len : lenInput cfg r a ∈ left ∨ v.len = a.length ∧ v.kind = .plain ∧ v.tag = 0
  cell : ∀ i, i < a.length → limbInput cfg r a (i / 2) (i / 2) ∈ left ∨ Memory.read v.mem i = a[i]?

section
variable {cfg : Config} {r : RegId} {a : List Limb} {left : List Input} {v : BigReg}

theorem Loading.lenWritten (h : Loading cfg r a (lenInput cfg r a :: left) v) :
    Loading cfg r a left { len := a.length, mem := v.mem, kind := .plain, tag := 0 } where
  len := .inr ⟨rfl, rfl, rfl⟩
  cell i hi := (h.cell i hi).imp_left fun hm => List.mem_of_ne_of_mem (lenInput_ne_limbInput cfg r a _).symm hm

theorem Loading.limbsWritten {k : Nat} (h : Loading cfg r a (limbInput cfg r a k k :: left) v) :
    Loading cfg r a left { len := v.len, mem := writeWord v.mem k (pairWord (a.getD (2 * k) 0) (a.getD (2 * k + 1) 0)),
                           kind := .plain, tag := 0 } where
  len := h.len.imp (List.mem_of_ne_of_mem (lenInput_ne_limbInput cfg r a k)) fun hv => ⟨hv.1, rfl, rfl⟩
  cell i hi := by
    by_cases hik : i / 2 = k
    · right
      obtain rfl | rfl : i = 2 * k ∨ i = 2 * k + 1 := by omega
      · simp [read_writeWord_low, hi]
      · simp [read_writeWord_high, hi]
    · rw [read_writeWord_ne _ _ (by omega) (by omega)]
      exact (h.cell i hi).imp_left (List.mem_of_ne_of_mem fun e => hik (limbInput_inj e))

/-- When no write is left, the register holds the value. -/
theorem Loading.seq_eq (h : Loading cfg r a [] v) : v.seq = some a ∧ v.kind = .plain ∧ v.tag = 0 := by
  obtain ⟨hlen, hkind⟩ := h.len.resolve_left List.not_mem_nil
  exact ⟨readSeq_eq_some.2 ⟨hlen.symm, fun i hi => (h.cell i (hlen ▸ hi)).resolve_left List.not_mem_nil⟩, hkind⟩

end

/-- One of the host's writes of a value, as a step: it writes the register, which stays on the way to the value. -/
theorem step_loading {s : State} {r : RegId} {a : List Limb} {i : Input} {rest : List Input} (hl : s.lost = false)
    (hc : ConfigOk s.cfg) (hf : s.flight = none) (ha : a.length ≤ s.cfg.maxLimbs) (hi : s.inputs = i :: rest)
    (hmem : i ∈ wlen s.cfg r a.length ++ wlimbs s.cfg r a) (hv : Loading s.cfg r a (i :: rest) (s.reg r)) :
    ∃ v, step s = .next (State.setReg { s with inputs := rest } r v) ∧ Loading s.cfg r a rest v := by
  obtain ⟨heven, -, hmax⟩ := hc.maxEven, hc.maxRange
  rw [List.mem_append, wlen_eq, List.mem_singleton, mem_wlimbs] at hmem
  obtain rfl | ⟨k, hk, rfl⟩ := hmem
  · have hlen : (BitVec.ofNat 32 a.length).toNat = a.length := by
      rw [BitVec.toNat_ofNat]
      omega
    exact ⟨_, step_write_len hl hf (by omega) hi, hlen.symm ▸ hv.lenWritten⟩
  · exact ⟨_, step_write_limbs hl hc (by omega) hf hi, hv.limbsWritten⟩

theorem setReg_setReg (s : State) (r : RegId) (v w : BigReg) : (s.setReg r v).setReg r w = s.setReg r w := by
  simp [State.setReg]

theorem setReg_reg (s : State) (r : RegId) : s.setReg r (s.reg r) = s := by
  simp [State.setReg, State.reg, Vector.get_eq_getElem]

/-- Host writes that are all of a value's, and bring all that the register lacks of it, leave the register with the value. -/
theorem run_loading {r : RegId} {a : List Limb} (l : List Input) (s : State) (hl : s.lost = false) (hc : ConfigOk s.cfg)
    (hf : s.flight = none) (ha : a.length ≤ s.cfg.maxLimbs) (hi : s.inputs = l)
    (hmem : ∀ i ∈ l, i ∈ wlen s.cfg r a.length ++ wlimbs s.cfg r a) (hv : Loading s.cfg r a l (s.reg r)) :
    ∃ v, Host.Core.run Sys2Proof.core l.length s = .next (State.setReg { s with inputs := [] } r v) ∧ Loading s.cfg r a [] v := by
  induction l generalizing s with
  | nil =>
    refine ⟨s.reg r, ?_, hv⟩
    have hs : { s with inputs := [] } = s := by rw [← hi]
    rw [hs, setReg_reg]
    rfl
  | cons i rest ih =>
    obtain ⟨hhead, htail⟩ := List.forall_mem_cons.1 hmem
    obtain ⟨v, hstep, hv'⟩ := step_loading hl hc hf ha hi hhead hv
    obtain ⟨w, hrun, hw⟩ := ih (State.setReg { s with inputs := rest } r v) hl hc hf ha rfl htail (by simpa using hv')
    refine ⟨w, ?_, hw⟩
    have hcore : Sys2Proof.core.step s = .next (State.setReg { s with inputs := rest } r v) := hstep
    simp only [List.length_cons, Host.Core.run, hcore]
    rw [hrun]
    exact congrArg _ (setReg_setReg { s with inputs := [] } r v w)

/-- Settles O36: at the start every part of the value is still to come (`Loading`), and each write brings its part, whatever came before. -/
theorem hostLoadsAValue : Obligations.HostLoadsAValue := by
  intro s r a hl hc hf ha hperm
  have hmem : ∀ i, i ∈ s.inputs ↔ i ∈ wlen s.cfg r a.length ++ wlimbs s.cfg r a := fun i => hperm.mem_iff
  have hstart : Loading s.cfg r a s.inputs (s.reg r) :=
    ⟨.inl ((hmem _).2 (List.mem_append_left _ (List.mem_singleton_self _))),
      fun i hi => .inl ((hmem _).2 (List.mem_append_right _ (mem_wlimbs.2 ⟨i / 2, by omega, rfl⟩)))⟩
  obtain ⟨v, hrun, hv⟩ := run_loading s.inputs s hl hc hf ha rfl (fun i => (hmem i).1) hstart
  obtain ⟨hseq, hkind, htag⟩ := hv.seq_eq
  exact ⟨v, _, hrun, hseq, hkind, htag, rfl⟩

end Sys2Proof.Machine
end

section
/-! # The command encoding (30_encoding.md R101 to R109). A word is its seven fields, so the decoder, the encoder and the match and mask
table are compared field by field: a word decodes to `i` exactly when it is the encoding of the well-formed `i` (`decode_eq_some_iff`),
and a table row matches exactly the encodings of its own operands (`row_matches_iff`). -/

namespace Sys2Proof

open Laws.OpcodeField (pack_fields opcode_lt)

/-! ### The fields of a word -/

theorem opOf_pack {op : Nat} (h : op < 256) (rd ra rb rc : RegId) (ctx : SlotId) : opOf (pack op rd ra rb rc ctx) = op :=
  (pack_fields op h rd ra rb rc ctx).1

/-- The operand fields of an assembled word are what it was assembled from, and its `res` is 0. -/
@[simp] theorem operandFields_pack (op : Nat) (rd ra rb rc : RegId) (ctx : SlotId) :
    rdOf (pack op rd ra rb rc ctx) = rd ∧ raOf (pack op rd ra rb rc ctx) = ra ∧ rbOf (pack op rd ra rb rc ctx) = rb ∧
    rcOf (pack op rd ra rb rc ctx) = rc ∧ ctxOf (pack op rd ra rb rc ctx) = ctx ∧ resOf (pack op rd ra rb rc ctx) = 0 := by
  have h1 := rd.isLt; have h2 := ra.isLt; have h3 := rb.isLt; have h4 := rc.isLt; have h5 := ctx.isLt
  refine ⟨?_, ?_, ?_, ?_, ?_, ?_⟩ <;> apply Fin.ext <;>
    simp only [rdOf, raOf, rbOf, rcOf, ctxOf, resOf, field4, pack, BitVec.toNat_ofNat, Fin.val_zero] <;> omega

/-- A word whose `res` is 0 is assembled from its own fields. -/
theorem pack_fieldsOf {w : Word} (h : resOf w = 0) : pack (opOf w) (rdOf w) (raOf w) (rbOf w) (rcOf w) (ctxOf w) = w := by
  have hw := w.isLt
  have hres : w.toNat / 2 ^ 0 % 16 = 0 := congrArg Fin.val h
  apply BitVec.eq_of_toNat_eq
  simp only [opOf, rdOf, raOf, rbOf, rcOf, ctxOf, field, field4, pack, BitVec.toNat_ofNat]
  omega

theorem pack_eq_iff {op : Nat} (h : op < 256) {rd ra rb rc : RegId} {ctx : SlotId} {w : Word} :
    pack op rd ra rb rc ctx = w ↔
      opOf w = op ∧ rdOf w = rd ∧ raOf w = ra ∧ rbOf w = rb ∧ rcOf w = rc ∧ ctxOf w = ctx ∧ resOf w = 0 := by
  constructor
  · rintro rfl
    simp [opOf_pack h]
  · rintro ⟨rfl, rfl, rfl, rfl, rfl, rfl, hres⟩
    exact pack_fieldsOf hres

@[simp] theorem opOf_encode (i : Instr) : opOf (encode i) = i.opcode := by
  cases i <;> exact opOf_pack (opcode_lt _) _ _ _ _ _

/-! ### The decoder and the encoder -/

theorem legal_eq_some {nctx : Nat} {b : Bool} {i j : Instr} : legal nctx b j = some i ↔ b = true ∧ j.wf nctx = true ∧ j = i := by
  simp [legal, and_assoc]

theorem legal_eq_none {nctx : Nat} {b : Bool} {i : Instr} : legal nctx b i = none ↔ b = false ∨ i.wf nctx = false := by
  cases b <;> simp [legal]

/-- R101, R109: the encoding of a well-formed command decodes to it. -/
theorem decode_encode {nctx : Nat} {i : Instr} (h : i.wf nctx = true) : decode nctx (encode i) = some i := by
  unfold decode
  simp only [opOf_encode]
  cases i <;> simp [encode, Instr.opcode, legal, h]

/-- R105, R106: a word that decodes has 0 in `res` and in each field its command does not use, so it is that command's encoding. -/
theorem encode_of_decode {nctx : Nat} {w : Word} {i : Instr} (h : decode nctx w = some i) : encode i = w ∧ i.wf nctx = true := by
  by_cases hres : resOf w = 0
  case neg => simp [decode, hres] at h
  simp only [decode, hres, ne_eq, not_true_eq_false, if_false] at h
  split at h
  case h_13 => cases h
  all_goals
    rename_i hop
    simp only [legal_eq_some, Bool.and_eq_true, beq_iff_eq] at h
    obtain ⟨hunused, hwf, rfl⟩ := h
    exact ⟨by simp [encode, Instr.opcode, pack_eq_iff, hop, hres, hunused], hwf⟩

theorem decode_eq_some_iff {nctx : Nat} {w : Word} {i : Instr} : decode nctx w = some i ↔ encode i = w ∧ i.wf nctx = true :=
  ⟨encode_of_decode, fun ⟨hw, hwf⟩ => hw ▸ decode_encode hwf⟩

/-- Settles O2: the fields of an assembled word are the ones it was assembled from. -/
theorem decodeOfEncode : Obligations.DecodeOfEncode :=
  fun _ _ => decode_encode

/-- Settles O3: each arm of the decoder reads the fields its command uses and checks the others to be 0. -/
theorem encodeOfDecode : Obligations.EncodeOfDecode :=
  fun _ _ _ => encode_of_decode

/-! ### The match and mask table (R105) -/

theorem field_and (w m : Word) (lo width : Nat) : field (w &&& m) lo width = field w lo width &&& field m lo width := by
  simp only [field, BitVec.toNat_and, Nat.and_div_two_pow, Nat.and_mod_two_pow]

theorem val_field4 (w : Word) (lo : Nat) : (field4 w lo).val = field w lo 4 := rfl

/-- A mask keeps a field all of whose bits it has. -/
theorem opOf_and_of_covered {m : Word} (h : opOf m = 255) (w : Word) : opOf (w &&& m) = opOf w := by
  have hm : field m 24 8 = 2 ^ 8 - 1 := h
  rw [opOf, field_and, hm, Nat.and_two_pow_sub_one_eq_mod]
  exact Nat.mod_mod _ _

theorem field4_and_of_covered {m : Word} {lo : Nat} (h : field4 m lo = 15) (w : Word) : field4 (w &&& m) lo = field4 w lo := by
  have hm : field m lo 4 = 2 ^ 4 - 1 := congrArg Fin.val h
  apply Fin.ext
  rw [val_field4, val_field4, field_and, hm, Nat.and_two_pow_sub_one_eq_mod]
  exact Nat.mod_mod _ _

/-- A mask clears a field none of whose bits it has. -/
theorem field4_and_of_clear {m : Word} {lo : Nat} (h : field4 m lo = 0) (w : Word) : field4 (w &&& m) lo = 0 := by
  have hm : field m lo 4 = 0 := congrArg Fin.val h
  apply Fin.ext
  rw [val_field4, field_and, hm, Nat.and_zero]
  rfl

/-- Every row fixes the opcode field, and each other field it covers to 0. -/
theorem matchWord_eq_pack : ∀ row ∈ rows, row.matchWord = pack (opOf row.matchWord) 0 0 0 0 0 := by decide

theorem opOf_matchWord {row : Row} (h : row ∈ rows) (w : Word) : opOf row.matchWord = (row.operands w).opcode := by
  fin_cases h <;> rfl

theorem opOf_maskWord : ∀ row ∈ rows, opOf row.maskWord = 255 := by decide

/-- A row matches the encodings of its own operands and no other word. -/
theorem row_matches_iff {row : Row} (h : row ∈ rows) (w : Word) :
    w &&& row.maskWord = row.matchWord ↔ encode (row.operands w) = w := by
  rw [matchWord_eq_pack row h, opOf_matchWord h w, eq_comm, pack_eq_iff (opcode_lt _), opOf_and_of_covered (opOf_maskWord row h)]
  fin_cases h <;>
    simp (disch := decide) [encode, Instr.opcode, pack_eq_iff, rdOf, raOf, rbOf, rcOf, ctxOf, resOf, field4_and_of_covered,
      field4_and_of_clear]

/-- Every command has a row, which reads its operands back from its encoding. -/
theorem exists_row_operands_encode (i : Instr) : ∃ row ∈ rows, row.operands (encode i) = i := by
  cases i <;> simp [rows, encode]

/-- Each opcode has one row. -/
theorem mnemonic_eq_of_opOf_matchWord : ∀ row ∈ rows, ∀ other ∈ rows, opOf row.matchWord = opOf other.matchWord →
    row.mnemonic = other.mnemonic := by decide

theorem opOf_of_row_matches {row : Row} (h : row ∈ rows) {w : Word} (hw : w &&& row.maskWord = row.matchWord) :
    opOf w = opOf row.matchWord := by
  rw [← hw, opOf_and_of_covered (opOf_maskWord row h)]

/-- Settles O4: a row matches the encodings of its operands, and every encoding has its command's row. -/
theorem decodeIsMatchAndMask : Obligations.DecodeIsMatchAndMask := by
  refine ⟨fun nctx w i => decode_eq_some_iff.trans ⟨?_, ?_⟩, ?_⟩
  · rintro ⟨rfl, hwf⟩
    obtain ⟨row, hrow, hi⟩ := exists_row_operands_encode i
    exact ⟨row, hrow, (row_matches_iff hrow _).2 (by rw [hi]), hi.symm, hwf⟩
  · rintro ⟨row, hrow, hmatch, rfl, hwf⟩
    exact ⟨(row_matches_iff hrow w).1 hmatch, hwf⟩
  · intro w row other hrow hother hw hw'
    have hop := (opOf_of_row_matches hrow hw).symm.trans (opOf_of_row_matches hother hw')
    exact mnemonic_eq_of_opOf_matchWord row hrow other hother hop

/-! ### The illegal words (R104, R106, R107) -/

/-- Settles O5, by the opcode: of R106's cases only those of that opcode are left, and they are the checks of its arm of the decoder. -/
theorem illegalWordsAreTheListed : Obligations.IllegalWordsAreTheListed := by
  intro nctx w
  by_cases hres : resOf w = 0
  case neg => simp [decode, hres]
  simp only [decode, hres, ne_eq, not_true_eq_false, if_false]
  split
  case h_13 => simp_all
  all_goals
    rename_i hop
    -- an arm checks that no unused field is other than 0, where R106 lists the fields one by one
    simp [hop, legal_eq_none, Instr.wf, imp_iff_not_or, or_assoc]

/-- Settles O1, by evaluation of the decoder at the listed words. -/
theorem decodesListedWords : Obligations.DecodesListedWords := by
  unfold Obligations.DecodesListedWords
  decide

end Sys2Proof

namespace Sys2Proof.Machine

/-! ### The step that runs a command (R45, R100) -/

theorem finish_of_decode {s : State} {f : Flight} {i : Instr} (hf : s.flight = some f) (hd : decode s.cfg.nctx f.word = some i) :
    s.finish = exec i s := by
  simp only [State.finish, hf, hd]

/-- Settles O6: in each of the three cases the step is `finish`, and `finish` of a word that decodes is `exec`. -/
theorem stepRunsDecodedCommand : Obligations.StepRunsDecodedCommand := by
  refine ⟨fun s f i rest hl hf hd hi => ?_, fun s f i hl hf hd hi => ?_, fun s w i hw hd => ?_⟩
  · rw [step_cons hl hi]
    exact finish_of_decode hf hd
  · rw [step_nil hl hi]
    exact finish_of_decode hf hd
  · have hword : s.withFetchWord 32 w = s.withCommand (BitVec.ofNat 32 w) := by rw [State.withFetchWord, Nat.mod_eq_of_lt hw]
    rw [hword, step_cons (s := s.withCommand (BitVec.ofNat 32 w)) rfl rfl]
    exact finish_of_decode (s := { s.accept (BitVec.ofNat 32 w) with lost := false }) rfl hd

end Sys2Proof.Machine
end

section
/-! # The results of ADD, SUB, MUL, CMP, TRIM and MOV (40_bigint.md section 2). What `Laws/Limbs.lean` proves of a sequence function is
what its command writes; the rest is how a command's result and its operand reads decide the two ends of the command. -/

namespace Sys2Proof.Machine

open Sys2Proof

/-! ### The two ends of a command (60_exceptions.md R260, R266) -/

theorem exec_succeeded {i : Instr} {s : State} {w : Writes} (h : result s.cfg i s.sources = .ok w) : exec i s = .next (s.succeed w) := by
  rw [exec_eq_complete, h]
  rfl

theorem exec_wrote {i : Instr} {s : State} {rd : RegId} {v : BigReg} (h : result s.cfg i s.sources = .ok (.reg rd v)) :
    exec i s = .next (s.wrote rd v) := by
  rw [exec_succeeded h, succeed_reg]

theorem exec_failed {i : Instr} {s : State} {e : ErrKind} (h : result s.cfg i s.sources = .error (.err e)) :
    exec i s = .next (s.failed e.code) := by
  rw [exec_eq_complete, h, ← fail_eq_failed]
  rfl

/-- A command that checks the capacity (R130) and then writes `n` limbs succeeds exactly when `n` fits. -/
theorem exec_capacity {i : Instr} {s : State} {rd : RegId} {n v : Nat}
    (h : result s.cfg i s.sources = (do checkCapacity s.cfg.maxLimbs (limbs n v); return .reg rd (BigReg.plain (limbs n v)))) :
    (n ≤ s.cfg.maxLimbs → exec i s = .next (s.wrote rd (BigReg.plain (limbs n v)))) ∧
      (s.cfg.maxLimbs < n → exec i s = .next (s.failed 0x09)) := by
  rw [checkCapacity_eq, length_limbs] at h
  refine ⟨fun hn => ?_, fun hn => ?_⟩
  · rw [if_pos hn] at h
    exact exec_wrote h
  · rw [if_neg (Nat.not_le.2 hn)] at h
    exact exec_failed (e := .capacityOverflow) h

/-! ### A Mont source of a command that wants Plain ones (R130, 60_exceptions.md R264) -/

section
variable {x : Snapshot} {ra rb : RegId}

theorem requireKind_plain_of_mont (h : (x.reg ra).kind = .mont) : requireKind x ra .plain = .error (.err .operandKind) :=
  requireKind_error.2 ⟨by simp [h], rfl⟩

theorem plain1_of_mont (h : (x.reg ra).kind = .mont) : plain1 x ra = .error (.err .operandKind) := by
  rw [plain1, requireKind_plain_of_mont h, error_bind]

theorem plain2_of_mont (h : (x.reg ra).kind = .mont ∨ (x.reg rb).kind = .mont) : plain2 x ra rb = .error (.err .operandKind) := by
  rw [plain2]
  cases ha : (x.reg ra).kind with
  | mont => rw [requireKind_plain_of_mont ha, error_bind]
  | plain =>
    have hb : (x.reg rb).kind = .mont := h.resolve_left (by simp [ha])
    rw [requireKind_of_kind ha, ok_bind, requireKind_plain_of_mont hb, error_bind]

end

/-- A command of two Plain sources does not get past its operand read when one of them is Mont. -/
theorem exec_two_plain_of_mont {s : State} {i : Instr} {ra rb : RegId} (hi : ∃ rd rc, i = .add rd ra rb ∨ i = .sub rd ra rb ∨
    i = .mul rd ra rb ∨ i = .divmod rd rc ra rb ∨ i = .cmp ra rb)
    (h : (s.sources.reg ra).kind = .mont ∨ (s.sources.reg rb).kind = .mont) : exec i s = .next (s.failed 0x02) := by
  refine exec_failed (e := .operandKind) ?_
  have hp := plain2_of_mont h
  obtain ⟨rd, rc, rfl | rfl | rfl | rfl | rfl⟩ := hi
  · simp only [result, addResult, hp, error_bind]
  · simp only [result, subResult, hp, error_bind]
  · simp only [result, mulResult, hp, error_bind]
  · simp only [result, divmodResult, hp, error_bind]
  · simp only [result, cmpResult, hp, error_bind]

/-- A command of one Plain source does not get past its operand read when that source is Mont. -/
theorem exec_one_plain_of_mont {s : State} {i : Instr} {ra : RegId} (hi : ∃ rd ctx, i = .trim rd ra ∨ i = .mctx ctx ra)
    (h : (s.sources.reg ra).kind = .mont) : exec i s = .next (s.failed 0x02) := by
  refine exec_failed (e := .operandKind) ?_
  obtain ⟨rd, ctx, rfl | rfl⟩ := hi
  · simp only [result, trimResult, plain1_of_mont h, error_bind]
  · simp only [result, mctxResult, plain1_of_mont h, error_bind]

/-! ### What each command computes from its sources' values -/

section
variable {cfg : Config} {x : Snapshot} {rd ra rb : RegId} {a b : List Limb}

section
variable (h : plain2 x ra rb = .ok (a, b))
include h

theorem result_add : result cfg (.add rd ra rb) x =
    (do checkCapacity cfg.maxLimbs (addSeq a b); return .reg rd (BigReg.plain (addSeq a b))) := by
  simp only [result, addResult, h, ok_bind]

theorem result_sub : result cfg (.sub rd ra rb) x =
    if val a < val b then .error (.err .underflow) else .ok (.reg rd (BigReg.plain (limbs a.length (val a - val b)))) := by
  simp only [result, subResult, h, ok_bind, subSeq_eq]
  split_ifs <;> rfl

theorem result_mul : result cfg (.mul rd ra rb) x =
    (do checkCapacity cfg.maxLimbs (mulSeq a b); return .reg rd (BigReg.plain (mulSeq a b))) := by
  simp only [result, mulResult, h, ok_bind]

theorem result_cmp : result cfg (.cmp ra rb) x = .ok (.cmp (cmp3 a b)) := by
  simp only [result, cmpResult, h, ok_bind, pure_ok]

end

theorem result_trim (h : plain1 x ra = .ok a) : result cfg (.trim rd ra) x = .ok (.reg rd (BigReg.plain (canon (val a)))) := by
  simp only [result, trimResult, h, ok_bind, pure_ok, canon_eq_trim]

theorem result_mov_plain (hk : (x.reg ra).kind = .plain) (h : (x.reg ra).seq = some a) :
    result cfg (.mov rd ra) x = .ok (.reg rd (BigReg.plain a)) := by
  simp only [result, movResult, readLimbs_ok.2 h, hk, ok_bind, pure_ok]

theorem result_mov_mont (hk : (x.reg ra).kind = .mont) (h : (x.reg ra).seq = some a) :
    result cfg (.mov rd ra) x = .ok (.reg rd (BigReg.mont a (x.reg ra).tag)) := by
  simp only [result, movResult, readLimbs_ok.2 h, hk, ok_bind, pure_ok]

end

/-- The code CMP writes (R40) is that of the values' order (R137). -/
theorem code_cmp3 (a b : List Limb) : (cmp3 a b).code = if val a < val b then 0b01 else if val b < val a then 0b10 else 0b00 := by
  rw [cmp3_eq]
  split_ifs <;> rfl

end Sys2Proof.Machine

namespace Sys2Proof

open Machine

/-- Settles O11: `addSeq` is the sum in the limbs R132 gives it, and the capacity check decides whether it is written. -/
theorem addResult : Obligations.AddResult := by
  intro s rd ra rb a b n
  refine ⟨fun hk ha hb hn => exec_capacity ?_, exec_two_plain_of_mont ⟨rd, 0, .inl rfl⟩⟩
  rw [result_add (plain2_ok.2 ⟨hk, ha, hb⟩), addSeq_eq, ← hn]

/-- Settles O12: `subSeq` has a value exactly when the subtrahend is not the larger one (R133). -/
theorem subResult : Obligations.SubResult := by
  intro s rd ra rb a b
  refine ⟨fun hk ha hb => ?_, exec_two_plain_of_mont ⟨rd, 0, .inr (.inl rfl)⟩⟩
  have hr := result_sub (cfg := s.cfg) (rd := rd) (plain2_ok.2 ⟨hk, ha, hb⟩)
  refine ⟨fun hle => exec_wrote ?_, fun hlt => exec_failed (e := .underflow) ?_⟩
  · rw [hr, if_neg (Nat.not_lt.2 hle)]
  · rw [hr, if_pos hlt]

/-- Settles O13: `mulSeq` is the product in the limbs R134 gives it, and the capacity check decides whether it is written. -/
theorem mulResult : Obligations.MulResult := by
  intro s rd ra rb a b n
  refine ⟨fun hk ha hb hn => exec_capacity ?_, exec_two_plain_of_mont ⟨rd, 0, .inr (.inr (.inl rfl))⟩⟩
  rw [result_mul (plain2_ok.2 ⟨hk, ha, hb⟩), mulSeq_eq, hn]
  simp only [List.length_eq_zero_iff]

/-- Settles O15: `cmp3` is the order of the values, and its code is all that a CMP writes. -/
theorem cmpResult : Obligations.CmpResult := by
  intro s ra rb a b
  refine ⟨fun hk ha hb => ?_, exec_two_plain_of_mont ⟨0, 0, .inr (.inr (.inr (.inr rfl)))⟩⟩
  rw [exec_succeeded (result_cmp (plain2_ok.2 ⟨hk, ha, hb⟩)), ← code_cmp3]
  rfl

/-- Settles O16: trimming a sequence gives the canonical sequence of its value. -/
theorem trimResult : Obligations.TrimResult := fun _ rd _ _ =>
  ⟨fun hk ha => ⟨canonical_canon _, exec_wrote (result_trim (plain1_ok.2 ⟨hk, ha⟩))⟩, exec_one_plain_of_mont ⟨rd, 0, .inl rfl⟩⟩

/-- Settles O17: the register MOV writes holds exactly the source's limbs, with its kind and tag. -/
theorem movResult : Obligations.MovResult := fun _ _ _ _ ha =>
  ⟨fun hk => exec_wrote (result_mov_plain hk ha), fun hk => exec_wrote (result_mov_mont hk ha)⟩

end Sys2Proof
end

section
/-! # Long division and DIVMOD (41_longdiv.md). Repeated subtraction (R170) and DIVMOD's one division per digit (R171) are both floor
division in the dividend's limb count. -/

namespace Sys2Proof.Machine

open Sys2Proof

/-- R170 by value, from DIVMOD's digits. -/
theorem divmodSeq_eq (s t : List Limb) : divmodSeq s t =
    if val t = 0 then none else some (limbs s.length (val s / val t), limbs s.length (val s % val t)) := by
  rw [divmodSeq_eq_divmodDigits, divmodDigits_eq]

/-- Nothing up to the dividend loses a digit in the dividend's limb count. -/
theorem val_limbs_of_le_val {a : List Limb} {v : Nat} (h : v ≤ val a) : val (limbs a.length v) = v :=
  val_limbs_of_lt (h.trans_lt (val_lt a))

theorem result_divmod {cfg : Config} {x : Snapshot} {rd rc ra rb : RegId} {a b : List Limb} (h : plain2 x ra rb = .ok (a, b)) :
    result cfg (.divmod rd rc ra rb) x = if val b = 0 then .error (.err .divideByZero) else
      .ok (.quotRem rd (BigReg.plain (limbs a.length (val a / val b))) rc (BigReg.plain (limbs a.length (val a % val b)))) := by
  simp only [result, divmodResult, h, ok_bind, divmodDigits_eq]
  split_ifs <;> rfl

end Sys2Proof.Machine

namespace Sys2Proof

open Machine

/-- Settles O55: repeated subtraction is floor division, and both results fit in the dividend's limbs. -/
theorem divisionIdentity : Obligations.DivisionIdentity := by
  intro a b
  refine ⟨fun hb => by rw [divmodSeq_eq, if_pos hb], fun hb => ?_⟩
  have hq : val (limbs a.length (val a / val b)) = val a / val b := val_limbs_of_le_val (Nat.div_le_self _ _)
  have hr : val (limbs a.length (val a % val b)) = val a % val b := val_limbs_of_le_val (Nat.mod_le _ _)
  refine ⟨_, _, by rw [divmodSeq_eq, if_neg hb], ?_, ?_, hq, hr, length_limbs _ _, length_limbs _ _⟩
  · rw [hq, hr, Nat.div_add_mod']
  · rw [hr]
    exact Nat.mod_lt _ (Nat.pos_of_ne_zero hb)

/-- Settles O14: DIVMOD's digits are floor division, and a zero divisor, whatever its length, has none. -/
theorem divmodResult : Obligations.DivmodResult := by
  intro s rd rc ra rb a b _
  refine ⟨fun hk ha hb => ?_, exec_two_plain_of_mont ⟨rd, rc, .inr (.inr (.inr (.inl rfl)))⟩⟩
  have hr := result_divmod (cfg := s.cfg) (rd := rd) (rc := rc) (plain2_ok.2 ⟨hk, ha, hb⟩)
  refine ⟨fun h0 => ?_, fun h0 => exec_failed (e := .divideByZero) ?_⟩
  · exact exec_succeeded (hr.trans (if_neg h0))
  · rw [hr, if_pos h0]

end Sys2Proof
end

section
/-! # REDC and the commands MCTX, MCONV, MMUL and MOUT (42_montgomery.md). REDC's value is the one residue that, times `R = B^L`, is
congruent to its argument (R194); what each command writes is that residue for the argument the command gives REDC. -/

namespace Sys2Proof.Machine

open Sys2Proof

/-! ### The REDC loop (R193, R194) -/

section
variable {n m : Nat} (hm : (n % base * m + 1) % base = 0) {l v : Nat}
include hm

theorem redcLoop_mul_modEq : redcLoop n m l v * base ^ l ≡ v [MOD n] := by
  obtain ⟨k, -, hl⟩ := redcLoop_exact hm l v
  rw [Nat.mul_comm, hl]
  exact Nat.add_mul_mod_self_left v n k

theorem redcLoop_lt (hv : v < n * base ^ l) : redcLoop n m l v < 2 * n := by
  obtain ⟨k, hk, hl⟩ := redcLoop_exact hm l v
  have hnk : n * k ≤ n * base ^ l := Nat.mul_le_mul_left n hk.le
  refine Nat.lt_of_mul_lt_mul_left (a := base ^ l) ?_
  calc base ^ l * redcLoop n m l v = v + n * k := hl
    _ < n * base ^ l + n * base ^ l := by omega
    _ = base ^ l * (2 * n) := by ring

end

/-! ### REDC under a slot with odd modulus (R37, R194) -/

section
variable {cfg : Config} {gen : Word} {c : Context} (h : ContextOk cfg gen c)
include h

theorem n0odd_iff_val : c.n0odd = true ↔ val c.n % 2 = 1 := by
  rw [h.oddIs, n0Odd_iff]

variable (ho : val c.n % 2 = 1)
include ho

/-- A slot's `NINV` makes every REDC iteration divide exactly (R191). -/
theorem val_mul_ninv : (val c.n % base * c.ninv.toNat + 1) % base = 0 := by
  rw [val_mod_base]
  exact (negInv_some (h.ninvIs ((n0odd_iff_val h).2 ho))).2

theorem redc_of_odd (v : Nat) : redc c v = .ok (canon (redcVal c v)) := by
  rw [redc_eq, if_pos ((n0odd_iff_val h).2 ho)]

theorem redcVal_mul_modEq (v : Nat) : redcVal c v * base ^ c.l ≡ v [MOD val c.n] := by
  rw [redcVal, redcFinal_eq]
  exact ((Nat.mod_modEq _ _).mul_right _).trans (redcLoop_mul_modEq (val_mul_ninv h ho))

/-- `R` is invertible modulo an odd `N`, so REDC's value is the only residue its congruence has. -/
theorem redcVal_eq_mod {u v : Nat} (hu : u * base ^ c.l ≡ v [MOD val c.n]) : redcVal c v = u % val c.n := by
  have hcop : Nat.gcd (val c.n) (base ^ c.l) = 1 := Nat.Coprime.pow_right _ ((gcd_base _).2 ho)
  have hmod : redcVal c v ≡ u [MOD val c.n] :=
    Nat.ModEq.cancel_right_of_coprime hcop ((redcVal_mul_modEq h ho v).trans hu.symm)
  rw [← hmod, Nat.mod_eq_of_lt (redcVal_lt h.positive v)]

/-- Into Montgomery form (R197): `CF ≡ R²`, so REDC of `x·CF` is `x·R mod N`. -/
theorem redcVal_mul_cf (x : Nat) : redcVal c (x * c.cf) = x * base ^ c.l % val c.n := by
  refine redcVal_eq_mod h ho ?_
  have hcf : c.cf ≡ base ^ (2 * c.l) [MOD val c.n] := by
    rw [h.cfIs]
    exact Nat.mod_modEq _ _
  calc x * base ^ c.l * base ^ c.l = x * base ^ (2 * c.l) := by ring
    _ ≡ x * c.cf [MOD val c.n] := (hcf.mul_left x).symm

/-- Out of Montgomery form (R195, R199): REDC undoes the multiplication by `R`. -/
theorem redcVal_residue_mul_pow (x : Nat) : redcVal c (x * base ^ c.l % val c.n) = x % val c.n :=
  redcVal_eq_mod h ho (Nat.mod_modEq _ _).symm

end

/-! ### The slot MCONV names, and the operand reads that fail (R197, 60_exceptions.md R264) -/

theorem slot_eq_some_iff {x : Snapshot} {ctx : SlotId} {c : Context} :
    x.slot ctx = some c ↔ x.slots[ctx.val]? = some (some c) := by
  simp [Snapshot.slot, List.getD_eq_getElem?_getD, Option.getD_eq_iff]

section
variable {x : Snapshot} {ra rb : RegId}

/-- A check of two kinds fails when one of the sources has the wrong kind. -/
theorem requireKind_two_error {α : Type} {k l : Kind} (h : (x.reg ra).kind ≠ k ∨ (x.reg rb).kind ≠ l) (m : Except Stop α) :
    (do requireKind x ra k; requireKind x rb l; m) = .error (.err .operandKind) := by
  by_cases ha : (x.reg ra).kind = k
  · rw [requireKind_of_kind ha, ok_bind, requireKind_error.2 ⟨h.resolve_left (not_not.2 ha), rfl⟩, error_bind]
  · rw [requireKind_error.2 ⟨ha, rfl⟩, error_bind]

theorem liveContext_none {t : Word} (h : ∀ c, some c ∈ x.slots → c.id ≠ t) : liveContext x t = .error (.err .contextInvalid) :=
  liveContext_error.2 ⟨ctxOf_none.2 h, rfl⟩

theorem mconvOperands_of_mont {ctx : SlotId} (h : (x.reg ra).kind = .mont) :
    mconvOperands x ra ctx = .error (.err .operandKind) := by
  rw [mconvOperands, requireKind_plain_of_mont h, error_bind]

theorem mconvOperands_of_empty {ctx : SlotId} (hk : (x.reg ra).kind = .plain) (h : x.slot ctx = none) :
    mconvOperands x ra ctx = .error (.err .contextInvalid) := by
  rw [mconvOperands, requireKind_of_kind hk, ok_bind, h]

theorem mmulOperands_of_plain (h : (x.reg ra).kind = .plain ∨ (x.reg rb).kind = .plain) :
    mmulOperands x ra rb = .error (.err .operandKind) :=
  requireKind_two_error (h.imp (fun ha => by simp [ha]) (fun hb => by simp [hb])) _

theorem mmulOperands_of_tag_ne (hk : (x.reg ra).kind = .mont ∧ (x.reg rb).kind = .mont) (h : (x.reg ra).tag ≠ (x.reg rb).tag) :
    mmulOperands x ra rb = .error (.err .modulusMismatch) := by
  simp only [mmulOperands, requireKind_of_kind hk.1, requireKind_of_kind hk.2, ok_bind, if_pos h, error_bind]

theorem mmulOperands_of_stale (hk : (x.reg ra).kind = .mont ∧ (x.reg rb).kind = .mont) (ht : (x.reg ra).tag = (x.reg rb).tag)
    (h : ∀ c, some c ∈ x.slots → c.id ≠ (x.reg ra).tag) : mmulOperands x ra rb = .error (.err .contextInvalid) := by
  simp only [mmulOperands, requireKind_of_kind hk.1, requireKind_of_kind hk.2, ok_bind, if_neg (not_not.2 ht), liveContext_none h,
    error_bind]

theorem moutOperands_of_plain (h : (x.reg ra).kind = .plain) : moutOperands x ra = .error (.err .operandKind) := by
  rw [moutOperands, requireKind_error.2 ⟨by simp [h], rfl⟩, error_bind]

theorem moutOperands_of_stale (hk : (x.reg ra).kind = .mont) (h : ∀ c, some c ∈ x.slots → c.id ≠ (x.reg ra).tag) :
    moutOperands x ra = .error (.err .contextInvalid) := by
  rw [moutOperands, requireKind_of_kind hk, ok_bind, liveContext_none h, error_bind]

end

/-! ### What the commands give, by what their operand reads give -/

section
variable {s : State} {rd ra rb : RegId} {ctx : SlotId} {e : ErrKind}

theorem exec_mconv_failed (h : mconvOperands s.sources ra ctx = .error (.err e)) :
    exec (.mconv rd ra ctx) s = .next (s.failed e.code) :=
  exec_failed (by simp only [result, mconvResult, h, error_bind])

theorem exec_mmul_failed (h : mmulOperands s.sources ra rb = .error (.err e)) :
    exec (.mmul rd ra rb) s = .next (s.failed e.code) :=
  exec_failed (by simp only [result, mmulResult, h, error_bind])

theorem exec_mout_failed (h : moutOperands s.sources ra = .error (.err e)) :
    exec (.mout rd ra) s = .next (s.failed e.code) :=
  exec_failed (by simp only [result, moutResult, h, error_bind])

variable {c : Context} {a b : List Limb}

/-- REDC's check of an even modulus stops MCONV (R193 step 1, R197). -/
theorem exec_mconv_even {cfg : Config} {gen : Word} (h : mconvOperands s.sources ra ctx = .ok (c, a)) (hc : ContextOk cfg gen c)
    (he : val c.n % 2 = 0) : exec (.mconv rd ra ctx) s = .next (s.failed 0x05) := by
  refine exec_failed (e := .noModularInverse) ?_
  have ho : ¬ c.n0odd = true := by
    rw [n0odd_iff_val hc]
    omega
  simp only [result, mconvResult, h, ok_bind, redc_eq, if_neg ho, error_bind]

section
variable {cfg : Config} {gen : Word} (hc : ContextOk cfg gen c) (ho : val c.n % 2 = 1)
include hc ho

theorem exec_mconv (h : mconvOperands s.sources ra ctx = .ok (c, a)) :
    exec (.mconv rd ra ctx) s = .next (s.wrote rd (BigReg.mont (canon (val a * base ^ c.l % val c.n)) c.id)) := by
  refine exec_wrote ?_
  simp only [result, mconvResult, h, ok_bind, redc_of_odd hc ho, redcVal_mul_cf hc ho]
  rfl

theorem exec_mmul (h : mmulOperands s.sources ra rb = .ok (c, a, b)) :
    exec (.mmul rd ra rb) s = .next (s.wrote rd (BigReg.mont (canon (redcVal c (val a * val b))) (s.sources.reg ra).tag)) := by
  refine exec_wrote ?_
  simp only [result, mmulResult, h, ok_bind, redc_of_odd hc ho]
  rfl

theorem exec_mout (h : moutOperands s.sources ra = .ok (c, a)) :
    exec (.mout rd ra) s = .next (s.wrote rd (BigReg.plain (canon (redcVal c (val a))))) := by
  refine exec_wrote ?_
  simp only [result, moutResult, h, ok_bind, redc_of_odd hc ho]
  rfl

end

end

/-! ### MCTX (R190, R196) -/

theorem result_mctx {cfg : Config} {x : Snapshot} {ctx : SlotId} {ra : RegId} {a : List Limb} (h : plain1 x ra = .ok a) :
    result cfg (.mctx ctx ra) x = if val a = 0 then .error (.err .divideByZero) else
      mctxCommit x ctx (canon (val a)) (base ^ (2 * (canon (val a)).length) % val a) := by
  simp only [result, mctxResult, h, ok_bind, contextConstants_eq, canon_eq_trim]
  split_ifs <;> rfl

/-- MCTX is refused where the id would wrap (R38, U6). -/
theorem mctxCommit_wrap {x : Snapshot} (hg : x.gen = 0xFFFFFFFF#32) (ctx : SlotId) (n : List Limb) (cf : Nat) :
    mctxCommit x ctx n cf = .error (.refuse .idWrap) := by
  rw [mctxCommit, if_pos hg]

/-- The slot MCTX commits, with `NINV` named only by what it does under an odd modulus (R196, U7). -/
theorem mctxCommit_slot {x : Snapshot} (hg : x.gen ≠ 0xFFFFFFFF#32) (ctx : SlotId) (n : List Limb) (cf : Nat) :
    ∃ m : Limb, (val n % 2 = 1 → (val n % base * m.toNat + 1) % base = 0) ∧
      mctxCommit x ctx n cf = .ok (.slot ctx ⟨x.gen, n, n.length, cf, decide (val n % 2 = 1), m⟩) := by
  refine ⟨(negInv (n.headD 0)).getD (Config.freeLimb x.draw), fun ho => ?_, ?_⟩
  · obtain ⟨m, hm⟩ := Option.isSome_iff_exists.1 ((negInv_isSome (n.headD 0)).2 (eq_of_beq ((n0Odd_iff n).2 ho)))
    rw [hm, Option.getD_some, val_mod_base]
    exact (negInv_some hm).2
  · have hodd : n0Odd n = decide (val n % 2 = 1) := Bool.eq_iff_iff.2 (by rw [n0Odd_iff, decide_eq_true_iff])
    rw [mctxCommit, if_neg hg, hodd]

end Sys2Proof.Machine

namespace Sys2Proof

open Machine

/-- Settles O54: the loop adds a multiple of `N` and divides by `R` exactly (`redcLoop_exact`). -/
theorem redcValueLaw : Obligations.RedcValueLaw := by
  intro cfg gen c v h ho
  have hm := val_mul_ninv h ho
  exact ⟨⟨redcVal c v, redc_of_odd h ho v, redcVal_lt h.positive v, redcVal_mul_modEq h ho v⟩, redcLoop_mul_modEq hm, redcLoop_lt hm⟩

/-- Settles O19: the outcome is decided by the value of the modulus, then by `GEN` (`result_mctx`, `mctxCommit_slot`). -/
theorem mctxResult : Obligations.MctxResult := by
  intro s ctx ra a
  refine ⟨fun hk ha => ?_, exec_one_plain_of_mont ⟨0, ctx, .inr rfl⟩⟩
  have hr := result_mctx (cfg := s.cfg) (ctx := ctx) (plain1_ok.2 ⟨hk, ha⟩)
  refine ⟨fun h0 hg => ?_, fun h0 hg => exec_refused ?_, fun h0 => exec_failed (e := .divideByZero) ?_⟩
  · obtain ⟨m, hm, hcommit⟩ := mctxCommit_slot hg ctx (canon (val a)) (base ^ (2 * (canon (val a)).length) % val a)
    rw [val_canon] at hm hcommit
    exact ⟨m, hm, exec_succeeded (by rw [hr, if_neg h0, hcommit])⟩
  · rw [hr, if_neg h0, mctxCommit_wrap hg]
  · rw [hr, if_pos h0]

/-- Settles O20: REDC of `x·CF` is `x·R mod N` (`redcVal_mul_cf`), and the failures are the operand read's or REDC's own. -/
theorem mconvResult : Obligations.MconvResult := by
  intro s rd ra ctx a
  refine ⟨fun hk ha c hslot hc => ?_, fun hk hslot => exec_mconv_failed (mconvOperands_of_empty hk hslot),
    fun hk => exec_mconv_failed (mconvOperands_of_mont hk)⟩
  have hop := mconvOperands_ok.2 ⟨hk, hslot, ha⟩
  exact ⟨fun ho => exec_mconv hc ho hop, exec_mconv_even hop hc⟩

/-- Settles O21: the product's REDC is the residue, and ids are distinct, so the tag names the slot (`ctxOf_of_slotsOk`). -/
theorem mmulResult : Obligations.MmulResult := by
  intro s rd ra rb a b
  refine ⟨fun hk ht ha hb hs j c hj hid ho => ?_, fun hk ht => exec_mmul_failed (mmulOperands_of_tag_ne hk ht),
    fun hk ht hstale => exec_mmul_failed (mmulOperands_of_stale hk ht hstale), fun hk => exec_mmul_failed (mmulOperands_of_plain hk)⟩
  have hc := hs.each j c hj
  have hop := mmulOperands_ok.2 ⟨hk, ht, hid ▸ ctxOf_of_slotsOk hs hj, ha, hb⟩
  exact ⟨_, redcVal_lt hc.positive _, redcVal_mul_modEq hc ho _, exec_mmul hc ho hop⟩

/-- Settles O22: the value's REDC is the residue, and ids are distinct, so the tag names the slot (`ctxOf_of_slotsOk`). -/
theorem moutResult : Obligations.MoutResult := by
  intro s rd ra a
  refine ⟨fun hk ha hs j c hj hid ho => ?_, fun hk hstale => exec_mout_failed (moutOperands_of_stale hk hstale),
    fun hk => exec_mout_failed (moutOperands_of_plain hk)⟩
  have hc := hs.each j c hj
  have hop := moutOperands_ok.2 ⟨hk, hid ▸ ctxOf_of_slotsOk hs hj, ha⟩
  exact ⟨_, redcVal_lt hc.positive _, redcVal_mul_modEq hc ho _, exec_mout hc ho hop⟩

/-- Settles O24: MCONV leaves `x·R mod N` under the slot's tag, the MOUT finds the same slot, and REDC undoes the `R`. -/
theorem montgomeryRoundTrip : Obligations.MontgomeryRoundTrip := by
  intro s rd ra rq ctx a c hk ha hslot hslots hs ho
  have hj := slot_eq_some_iff.1 hslot
  have hc := hs.each _ c hj
  have hin := exec_mconv (rd := rd) hc ho (mconvOperands_ok.2 ⟨hk, hslot, ha⟩)
  set v := BigReg.mont (canon (val a * base ^ c.l % val c.n)) c.id
  have hreg : (s.wrote rd v).sources.reg rd = v := (reg_wrote s rd rd v).trans (if_pos rfl)
  have hctx : (s.wrote rd v).sources.ctxOf c.id = some c := by
    have hsame : (s.wrote rd v).sources.slots = s.sources.slots := hslots.symm
    rw [← ctxOf_of_slotsOk hs hj, Snapshot.ctxOf, Snapshot.ctxOf, hsame]
  have hop : moutOperands (s.wrote rd v).sources rd = .ok (c, canon (val a * base ^ c.l % val c.n)) := by
    rw [moutOperands_ok, hreg]
    exact ⟨rfl, hctx, seq_mont _ _⟩
  refine ⟨_, _, hin, exec_mout (rd := rq) hc ho hop, ?_⟩
  rw [reg_wrote, if_pos rfl, val_canon, redcVal_residue_mul_pow hc ho]

end Sys2Proof
end

section
/-! # Sliding-window exponentiation and MPOW (43_exponent.md). One rule of the scan (`scan_induction`) gives both that MPOW's table check
never fires and what MPOW computes: the Montgomery form of the base to the exponent's bits that are scanned. -/

namespace Sys2Proof.Machine

open Sys2Proof

/-! ### The reference window size (R231) -/

/-- The bound of a window size is at least the size, so the search of R231 ends within its tries. -/
theorem le_windowBound {k : Nat} (hk : 1 ≤ k) : k ≤ windowBound k := by
  have hden : 0 < 2 ^ (k + 1) - k - 2 := by
    obtain ⟨j, rfl⟩ : ∃ j, k = j + 1 := ⟨k - 1, by omega⟩
    have hj : j < 2 ^ j := Nat.lt_two_pow_self
    rw [show 2 ^ (j + 1 + 1) = 4 * 2 ^ j by ring]
    omega
  rw [windowBound, Nat.le_div_iff_mul_le hden]
  calc k * (2 ^ (k + 1) - k - 2) ≤ k * 2 ^ (k + 1) := Nat.mul_le_mul_left k (by omega)
    _ ≤ k * 2 ^ (2 * k) := Nat.mul_le_mul_left k (Nat.pow_le_pow_right (by decide) (by omega))
    _ ≤ k * (k + 1) * 2 ^ (2 * k) := Nat.mul_le_mul_right _ (Nat.le_mul_of_pos_right k (Nat.succ_pos k))

/-- The search gives the least size from `k` on whose bound reaches `n`, if one of its tries does. -/
theorem windowSearch_spec {n : Nat} (fuel : Nat) {k : Nat} (h : n ≤ windowBound (k + fuel)) :
    k ≤ windowSearch n fuel k ∧ n ≤ windowBound (windowSearch n fuel k) ∧
      ∀ j, k ≤ j → j < windowSearch n fuel k → windowBound j < n := by
  induction fuel generalizing k with
  | zero => exact ⟨le_refl k, h, fun j hj hlt => absurd hlt (Nat.not_lt.2 hj)⟩
  | succ fuel ih =>
    rw [windowSearch]
    by_cases hb : windowBound k < n
    · obtain ⟨hle, hreach, hleast⟩ := ih (k := k + 1) (by rwa [Nat.add_right_comm])
      rw [if_pos hb]
      refine ⟨by omega, hreach, fun j hj hlt => ?_⟩
      obtain rfl | hj := Nat.eq_or_lt_of_le hj
      · exact hb
      · exact hleast j hj hlt
    · rw [if_neg hb]
      exact ⟨le_refl k, Nat.not_lt.1 hb, fun j hj hlt => absurd hlt (Nat.not_lt.2 hj)⟩

/-! ### The window's low end (R235) -/

/-- Trimming passes zeros only. -/
theorem bit_eq_false_of_lt_trimLow {e : List Limb} (fuel : Nat) {lo j : Nat} (hj : lo ≤ j) (hlt : j < trimLow e fuel lo) :
    bit e j = false := by
  induction fuel generalizing lo with
  | zero => exact absurd hlt (Nat.not_lt.2 hj)
  | succ fuel ih =>
    rw [trimLow] at hlt
    split_ifs at hlt with hb
    · obtain rfl | hj := Nat.eq_or_lt_of_le hj
      · exact hb
      · exact ih hj hlt
    · exact absurd hlt (Nat.not_lt.2 hj)

/-! ### The BitCursor (R233) -/

theorem flag_lt_two (b : Bool) : flag b < 2 := by cases b <;> decide

theorem val_lt_two_pow_bitlen (s : List Limb) : val s < 2 ^ bitlen s := by
  rw [bitlen, Nat.mul_comm, pow_mul]
  exact val_lt s

/-- The highest set bit, looked for from any number of bits on that hold the value. -/
theorem topBit_eq {s : List Limb} {n : Nat} (h : val s < 2 ^ n) :
    topBit s n = if val s = 0 then -1 else (Nat.log2 (val s) : Int) := by
  induction n with
  | zero => simp [topBit, show val s = 0 by simpa using h]
  | succ n ih =>
    rw [topBit, bit_eq_testBit]
    cases hb : (val s).testBit n with
    | true =>
      have hge : 2 ^ n ≤ val s := Nat.ge_two_pow_of_testBit hb
      have h0 : val s ≠ 0 := by
        have : 0 < 2 ^ n := Nat.two_pow_pos n
        omega
      rw [if_pos rfl, if_neg h0, (Nat.log2_eq_iff h0).2 ⟨hge, h⟩]
    | false =>
      rw [if_neg (by decide)]
      refine ih (Nat.lt_pow_two_of_testBit _ fun i hi => ?_)
      obtain rfl | hi := Nat.eq_or_lt_of_le hi
      · exact hb
      · exact Nat.testBit_lt_two_pow (h.trans_le (Nat.pow_le_pow_right (by decide) hi))

theorem new_pos (s : List Limb) : (BitCursor.new s).pos = if val s = 0 then -1 else (Nat.log2 (val s) : Int) :=
  topBit_eq (val_lt_two_pow_bitlen s)

theorem backward_forward (s : List Limb) (c : BitCursor) : (c.forward s).backward = c := by
  have hb := flag_lt_two (c.deref s)
  have hacc : (2 * c.acc + flag (c.deref s)) / 2 = c.acc := by omega
  rw [BitCursor.forward, BitCursor.backward, hacc, Int.sub_add_cancel]

/-! ### The rule of the scan (R234) -/

/-- What each of the scan's two branches keeps, with the table's lookup answering, holds where the scan ends. `P n r` speaks of the
result `r` with the bits below `n` still to scan. -/
theorem scan_induction {c : Context} {e : List Limb} {k : Nat} (hk : 1 ≤ k) {table : List Nat} {P : Nat → Nat → Prop}
    (hzero : ∀ n r, bit e n = false → P (n + 1) r → P n (mmul c r r))
    (hone : ∀ n r, bit e n = true → P (n + 1) r → ∃ t, table[((window e n k).2 - 1) / 2]? = some t ∧
      P (window e n k).1 (mmul c (squarings c (n - (window e n k).1 + 1) r) t))
    (n : Nat) {r : Nat} (h : P n r) : ∃ v, scan c e k table n n r = .ok v ∧ P 0 v := by
  induction n using Nat.strong_induction_on generalizing r with
  | _ n ih =>
    cases n with
    | zero => exact ⟨r, rfl, h⟩
    | succ n =>
      cases hb : bit e n with
      | false =>
        rw [scan_zero_bit hb]
        exact ih n (Nat.lt_succ_self n) (hzero n r hb h)
      | true =>
        obtain ⟨t, ht, hP⟩ := hone n r hb h
        have hlo : (window e n k).1 < n + 1 := Nat.lt_succ_of_le (window_spec e n k hb hk).1
        simp only [scan_one_bit hk hb, ht]
        exact ih _ hlo hP

/-- A window's value has at most `k` bits, so its entry is in a table of `2^k` (R236, R237). -/
theorem window_index_lt {e : List Limb} {i k : Nat} (hb : bit e i = true) (hk : 1 ≤ k) : ((window e i k).2 - 1) / 2 < 2 ^ k := by
  have := window_lt e i k hb hk
  omega

/-- With a full table the scan ends without an error, whatever the context is (R237). -/
theorem scan_full_table {c : Context} {e : List Limb} {k : Nat} (hk : 1 ≤ k) {table : List Nat} (hlen : table.length = 2 ^ k)
    (n r : Nat) : ∃ v, scan c e k table n n r = .ok v := by
  obtain ⟨v, hv, -⟩ := scan_induction (P := fun _ _ => True) hk (fun _ _ _ _ => trivial)
    (fun m _ hb _ => ⟨_, List.getElem?_eq_getElem (hlen ▸ window_index_lt hb hk), trivial⟩) n trivial
  exact ⟨v, hv⟩

/-! ### The power's exponent, by the bits that are scanned (R234, R235) -/

theorem val_div_two_pow_of_bit_false {e : List Limb} {n : Nat} (hb : bit e n = false) :
    val e / 2 ^ n = 2 * (val e / 2 ^ (n + 1)) := by
  have hmod : val e / 2 ^ n % 2 ≠ 1 := by
    rw [bit_eq_testBit, Nat.testBit_eq_decide_div_mod_eq] at hb
    exact of_decide_eq_false hb
  have hdiv : val e / 2 ^ (n + 1) = val e / 2 ^ n / 2 := by rw [pow_succ, Nat.div_div_eq_div_mul]
  omega

/-- The bits down to a window's low end are the bits above the window, shifted past it, and the window's value. -/
theorem val_div_two_pow_window {e : List Limb} {i k : Nat} (hb : bit e i = true) (hk : 1 ≤ k) :
    val e / 2 ^ (window e i k).1 =
      2 ^ (i - (window e i k).1 + 1) * (val e / 2 ^ (i + 1)) + (window e i k).2 := by
  obtain ⟨hlo, -, hval, -⟩ := window_spec e i k hb hk
  have hpow : 2 ^ (i + 1) = 2 ^ (window e i k).1 * 2 ^ (i - (window e i k).1 + 1) := by
    rw [← pow_add]
    congr 1
    omega
  rw [hval, hpow, ← Nat.div_div_eq_div_mul, Nat.div_add_mod]

/-! ### MPOW's core under a slot of either parity (R193, R234) -/

theorem mpowCore_of_odd {cfg : Config} {c : Context} (hodd : c.n0odd = true) (x : Nat) (e : List Limb) : mpowCore cfg c x e =
    scan c e (windowSize cfg (bitlen e)) (oddTable c (mmul c x x) (2 ^ windowSize cfg (bitlen e)) x) (bitlen e) (bitlen e)
      (redcVal c (1 * c.cf)) := by
  rw [mpowCore, requireOdd, if_pos hodd, ok_bind]

theorem mpowCore_of_even {cfg : Config} {c : Context} (heven : c.n0odd = false) (x : Nat) (e : List Limb) :
    mpowCore cfg c x e = .error (.err .noModularInverse) := by
  rw [mpowCore, requireOdd, if_neg (by simp [heven]), error_bind]

/-! ### Montgomery forms (42_montgomery.md R195, R198) -/

/-- The Montgomery form of `y` under context `c`: `y·R mod N` with `R = B^L`. -/
def montForm (c : Context) (y : Nat) : Nat := y * base ^ c.l % val c.n

section
variable {own : Config} {gen : Word} {c : Context} (h : ContextOk own gen c) (ho : val c.n % 2 = 1)
include h ho

theorem mmul_montForm (y z : Nat) : mmul c (montForm c y) (montForm c z) = montForm c (y * z) := by
  refine redcVal_eq_mod h ho ?_
  calc y * z * base ^ c.l * base ^ c.l = (y * base ^ c.l) * (z * base ^ c.l) := by ring
    _ ≡ montForm c y * montForm c z [MOD val c.n] := ((Nat.mod_modEq _ _).mul (Nat.mod_modEq _ _)).symm

/-- `R` is invertible modulo an odd `N`, so every residue is a Montgomery form. -/
theorem exists_montForm_eq {x : Nat} (hx : x < val c.n) : ∃ y, montForm c y = x :=
  ⟨redcVal c x, Eq.trans (redcVal_mul_modEq h ho x) (Nat.mod_eq_of_lt hx)⟩

theorem squarings_montForm (n y : Nat) : squarings c n (montForm c y) = montForm c (y ^ 2 ^ n) := by
  induction n generalizing y with
  | zero => rw [squarings, pow_zero, pow_one]
  | succ n ih => rw [squarings, mmul_montForm h ho, ih, ← pow_two, ← pow_mul, pow_succ']

/-- Entry `j` of the odd-power table is the power `2j + 1` (R236). -/
theorem oddTable_montForm (x : Nat) {n j : Nat} (hj : j < n) :
    (oddTable c (mmul c (montForm c x) (montForm c x)) n (montForm c x))[j]? = some (montForm c (x ^ (2 * j + 1))) := by
  induction j with
  | zero =>
    obtain ⟨m, rfl⟩ : ∃ m, n = m + 1 := ⟨n - 1, by omega⟩
    rw [oddTable_zero, Nat.mul_zero, Nat.zero_add, pow_one]
  | succ j ih =>
    rw [oddTable_succ _ _ _ _ _ hj, ih (by omega), Option.map_some, mmul_montForm h ho, mmul_montForm h ho, ← pow_two, ← pow_add]
    rfl

/-! ### What MPOW computes (R234, R238, R239) -/

/-- From a table of the base's odd powers, the scan keeps the Montgomery form of the base to the exponent's bits scanned so far. -/
theorem scan_montForm {x k : Nat} (hk : 1 ≤ k) {table : List Nat}
    (htable : ∀ j, j < 2 ^ k → table[j]? = some (montForm c (x ^ (2 * j + 1)))) (e : List Limb) (n : Nat) :
    scan c e k table n n (montForm c (x ^ (val e / 2 ^ n))) = .ok (montForm c (x ^ val e)) := by
  have hzero : ∀ m r, bit e m = false → r = montForm c (x ^ (val e / 2 ^ (m + 1))) →
      mmul c r r = montForm c (x ^ (val e / 2 ^ m)) := by
    rintro m _ hb rfl
    rw [mmul_montForm h ho, ← pow_add, ← two_mul, val_div_two_pow_of_bit_false hb]
  have hone : ∀ m r, bit e m = true → r = montForm c (x ^ (val e / 2 ^ (m + 1))) →
      ∃ t, table[((window e m k).2 - 1) / 2]? = some t ∧
        mmul c (squarings c (m - (window e m k).1 + 1) r) t = montForm c (x ^ (val e / 2 ^ (window e m k).1)) := by
    rintro m _ hb rfl
    obtain ⟨-, -, -, hmod⟩ := window_spec e m k hb hk
    have hodd : 2 * (((window e m k).2 - 1) / 2) + 1 = (window e m k).2 := by omega
    refine ⟨_, htable _ (window_index_lt hb hk), ?_⟩
    rw [squarings_montForm h ho, mmul_montForm h ho, hodd, val_div_two_pow_window hb hk, ← pow_mul, ← pow_add, Nat.mul_comm]
  obtain ⟨v, hv, rfl⟩ := scan_induction (P := fun m r => r = montForm c (x ^ (val e / 2 ^ m))) hk hzero hone n rfl
  rw [hv, pow_zero, Nat.div_one]

theorem mpowCore_montForm {cfg : Config} (hw : ∀ n, 1 ≤ windowSize cfg n) (x : Nat) (e : List Limb) :
    mpowCore cfg c (montForm c x) e = .ok (montForm c (x ^ val e)) := by
  have hstart : redcVal c (1 * c.cf) = montForm c (x ^ (val e / 2 ^ bitlen e)) := by
    rw [Nat.div_eq_of_lt (val_lt_two_pow_bitlen e), pow_zero]
    exact redcVal_mul_cf h ho 1
  rw [mpowCore_of_odd ((n0odd_iff_val h).2 ho), hstart,
    scan_montForm h ho (hw _) (fun _ => oddTable_montForm h ho x) e]

end

/-! ### How MPOW fails (R237, R238, 60_exceptions.md R264) -/

theorem bind_eq_error {ε α β : Type} {m : Except ε α} {f : α → Except ε β} {e : ε} (h : (m >>= f) = .error e) :
    m = .error e ∨ ∃ a, m = .ok a ∧ f a = .error e := by
  cases m with
  | error e' => exact .inl (Except.error.inj h ▸ rfl)
  | ok a => exact .inr ⟨a, rfl, h⟩

section
variable {x : Snapshot} {ra rb : RegId}

theorem mpowOperands_of_kind (h : (x.reg ra).kind = .plain ∨ (x.reg rb).kind = .mont) :
    mpowOperands x ra rb = .error (.err .operandKind) :=
  requireKind_two_error (h.imp (fun ha => by simp [ha]) (fun hb => by simp [hb])) _

theorem mpowOperands_of_stale (hk : (x.reg ra).kind = .mont ∧ (x.reg rb).kind = .plain)
    (h : ∀ c, some c ∈ x.slots → c.id ≠ (x.reg ra).tag) : mpowOperands x ra rb = .error (.err .contextInvalid) := by
  simp only [mpowOperands, requireKind_of_kind hk.1, requireKind_of_kind hk.2, ok_bind, liveContext_none h, error_bind]

theorem mpowOperands_error {e : ErrKind} (h : mpowOperands x ra rb = .error (.err e)) : e = .operandKind ∨ e = .contextInvalid := by
  obtain h | ⟨_, -, h⟩ := bind_eq_error h
  · exact .inl (Stop.err.inj (requireKind_error.1 h).2)
  obtain h | ⟨_, -, h⟩ := bind_eq_error h
  · exact .inl (Stop.err.inj (requireKind_error.1 h).2)
  obtain h | ⟨_, -, h⟩ := bind_eq_error h
  · exact .inr (Stop.err.inj (liveContext_error.1 h).2)
  obtain h | ⟨_, -, h⟩ := bind_eq_error h
  · cases (readLimbs_error.1 h).2
  obtain h | ⟨_, -, h⟩ := bind_eq_error h
  · cases (readLimbs_error.1 h).2
  · cases h

/-- MPOW's core can stop only at the check of an even modulus: the table's lookups all answer (R237). -/
theorem mpowCore_error {cfg : Config} {c : Context} {a : Nat} {t : List Limb} {e : Stop} (hw : ∀ n, 1 ≤ windowSize cfg n)
    (h : mpowCore cfg c a t = .error e) : e = .err .noModularInverse := by
  cases hodd : c.n0odd with
  | false => simpa [mpowCore_of_even hodd, eq_comm] using h
  | true =>
    obtain ⟨v, hv⟩ := scan_full_table (c := c) (e := t) (hw (bitlen t)) (length_oddTable c (mmul c a a) _ a) (bitlen t)
      (redcVal c (1 * c.cf))
    rw [mpowCore_of_odd hodd, hv] at h
    cases h

theorem mpowResult_error {cfg : Config} {rd : RegId} {e : ErrKind} (hw : ∀ n, 1 ≤ windowSize cfg n)
    (h : mpowResult cfg rd ra rb x = .error (.err e)) : e = .operandKind ∨ e = .contextInvalid ∨ e = .noModularInverse := by
  obtain h | ⟨⟨c, a, t⟩, -, h⟩ := bind_eq_error h
  · exact (mpowOperands_error h).imp_right .inl
  obtain h | ⟨v, -, h⟩ := bind_eq_error h
  · exact .inr (.inr (Stop.err.inj (mpowCore_error hw h)))
  · cases h

end

/-! ### What MPOW gives, by what its operand read and its core give (R238) -/

section
variable {s : State} {rd ra rb : RegId}

theorem exec_mpow_failed {e : ErrKind} (h : mpowOperands s.sources ra rb = .error (.err e)) :
    exec (.mpow rd ra rb) s = .next (s.failed e.code) :=
  exec_failed (by simp only [result, mpowResult, h, error_bind])

theorem exec_mpow {c : Context} {a t : List Limb} {v : Nat} (h : mpowOperands s.sources ra rb = .ok (c, a, t))
    (hv : mpowCore s.cfg c (val a) t = .ok v) :
    exec (.mpow rd ra rb) s = .next (s.wrote rd (BigReg.mont (canon v) (s.sources.reg ra).tag)) := by
  refine exec_wrote ?_
  simp only [result, mpowResult, h, ok_bind, hv]
  rfl

end

end Sys2Proof.Machine

namespace Sys2Proof

open Machine

/-- Settles O23: the scan keeps the Montgomery form of the power of the bits scanned so far (`scan_montForm`), and ids are distinct, so the
tag names the slot (`ctxOf_of_slotsOk`). -/
theorem mpowResult : Obligations.MpowResult := by
  intro s rd ra rb a e
  refine ⟨fun hk ha he hw hs j c x hj hid ho hx => ?_, fun hk hstale => exec_mpow_failed (mpowOperands_of_stale hk hstale),
    fun hk => exec_mpow_failed (mpowOperands_of_kind hk)⟩
  have hop := mpowOperands_ok.2 ⟨hk, hid ▸ ctxOf_of_slotsOk hs hj, ha, he⟩
  refine exec_mpow hop ?_
  rw [hx]
  exact mpowCore_montForm (hs.each j c hj) ho hw x e

/-- Settles O25: under an even modulus MPOW stops before its table; under an odd one the base is a Montgomery form, of which MPOW computes the
power whatever the window size (`mpowCore_montForm`). -/
theorem mpowIndependentOfWindowSize : Obligations.MpowIndependentOfWindowSize := by
  intro cfg cfg' own gen c x e hw hw' h hx
  cases hodd : c.n0odd with
  | false => rw [mpowCore_of_even hodd, mpowCore_of_even hodd]
  | true =>
    have ho := (n0odd_iff_val h).1 hodd
    obtain ⟨y, rfl⟩ := exists_montForm_eq h ho hx
    rw [mpowCore_montForm h ho hw, mpowCore_montForm h ho hw']

/-- Settles O26: a success clears `ERRCODE`, and a failure is the operand read's or the check of an even modulus (`mpowResult_error`). -/
theorem indexOutOfRangeNeverFires : Obligations.IndexOutOfRangeNeverFires := by
  intro s t rd ra rb hw h
  rw [exec_eq_complete] at h
  obtain ⟨w, -, rfl⟩ | ⟨e, he, rfl⟩ := complete_next h
  · have hcode : (s.succeed w).status.errCode = 0 := by rw [State_succeed_status]
    rw [hcode]
    decide
  · have hcode : (s.fail e).status.errCode = e.code := by rw [State_fail_status]
    rw [hcode]
    obtain rfl | rfl | rfl := mpowResult_error hw he
    · decide
    · decide
    · decide

/-- Settles O27: the search finds the least size that is enough, and the bound of `n + 1` reaches `n` (`windowSearch_spec`,
`le_windowBound`). -/
theorem referenceWindowSizeIsLeast : Obligations.ReferenceWindowSizeIsLeast := by
  intro n
  have hreach : n + 1 ≤ windowBound (1 + n) := Nat.add_comm n 1 ▸ le_windowBound (Nat.succ_pos n)
  exact windowSearch_spec n (Nat.le_of_succ_le hreach)

/-- Settles O28: `trimLow` stops at the first 1 it meets, and the BitCursor trims as it does (`cursorWindow_eq_window`). -/
theorem cursorFormsTheWindow : Obligations.CursorFormsTheWindow := by
  intro e i k lo w hb hk hwin
  obtain ⟨hge, hle, hbit⟩ := trimLow_spec e (k - 1) (i - (k - 1)) i hb (by omega) (by omega)
  obtain ⟨-, -, hval, hodd⟩ := window_spec e i k hb hk
  have hlt := window_lt e i k hb hk
  have hlo : trimLow e (k - 1) (i - (k - 1)) = lo := congrArg Prod.fst hwin
  rw [hwin] at hval hodd hlt
  rw [hlo] at hge hle hbit
  exact ⟨hge, hle, hbit, fun j hj hjlo => bit_eq_false_of_lt_trimLow (k - 1) hj (hlo ▸ hjlo), hval, hodd, hlt,
    (cursorWindow_eq_window hb hk).trans hwin⟩

/-- Settles O29: the new cursor stands at the value's logarithm (`new_pos`), and halving drops the bit the forward step took in. -/
theorem cursorSteps : Obligations.CursorSteps := by
  refine ⟨fun s h0 => ?_, fun s h0 => ?_, backward_forward⟩
  · have hpos : (BitCursor.new s).pos = -1 := (new_pos s).trans (if_pos h0)
    exact ⟨hpos, rfl, by rw [BitCursor.isFinished, hpos]; decide⟩
  · have hpos : (BitCursor.new s).pos = (Nat.log2 (val s) : Int) := (new_pos s).trans (if_neg h0)
    exact ⟨hpos, rfl, by rw [BitCursor.isFinished, hpos]; exact decide_eq_false (by omega)⟩

end Sys2Proof
end

section
/-! # How a command ends (60_exceptions.md R260, R264 to R266), the engine step that completes it, and the block without power (R277). A
command that does not succeed stops for one of the reasons of `StopReason`: each check that a command makes gives only such reasons, and
so does one check after another. -/

namespace Sys2Proof.Machine

open Sys2Proof

/-! ### Why a command stops -/

/-- Everything that can stop command `i` on the snapshot `x`, with what must hold there: an error of R265's list, one of the two errors that
the pseudocode checks for and no run reports (log 24), or a refusal that the spec asks of a model. -/
inductive StopReason (cfg : Config) (i : Instr) (x : Snapshot) : Stop → Prop
  /-- An error the command can report (R265). -/
  | listed (e : ErrKind) : e.code ∈ i.errorCodes → StopReason cfg i x (.err e)
  /-- REDC's check under the live context of a Mont source whose modulus is even (R193). -/
  | evenContext (r : RegId) (c : Context) : (x.reg r).kind = .mont → x.ctxOf (x.reg r).tag = some c → c.n0odd = false →
      StopReason cfg i x (.err .noModularInverse)
  /-- A lookup outside MPOW's table, where a window size is 0 (R237). -/
  | emptyWindow : ¬ (∀ n, 1 ≤ windowSize cfg n) → StopReason cfg i x (.err .indexOutOfRange)
  /-- A source with an unspecified limb (R33, U2). -/
  | unspecified (r : RegId) : (x.reg r).seq = none → StopReason cfg i x (.refuse (.unspecifiedLimb r))
  /-- An MCTX whose id would wrap (R38, U6). -/
  | idWrap (ctx : SlotId) (ra : RegId) : i = .mctx ctx ra → x.gen = 0xFFFFFFFF#32 → StopReason cfg i x (.refuse .idWrap)

/-- A part of command `i` stops only for the reasons the command can have. -/
def StopsFor {α : Type} (cfg : Config) (i : Instr) (x : Snapshot) (m : Except Stop α) : Prop :=
  ∀ e, m = .error e → StopReason cfg i x e

section
variable {cfg : Config} {i : Instr} {x : Snapshot}

theorem stopsFor_ok {α : Type} (a : α) : StopsFor cfg i x (.ok a) := nofun

theorem stopsFor_error {α : Type} {e : Stop} (h : StopReason cfg i x e) : StopsFor cfg i x (.error e : Except Stop α) := by
  rintro _ ⟨⟩
  exact h

/-- One check after another: the second is made only where the first answers. -/
theorem stopsFor_bind {α β : Type} {m : Except Stop α} {f : α → Except Stop β} (hm : StopsFor cfg i x m)
    (hf : ∀ a, m = .ok a → StopsFor cfg i x (f a)) : StopsFor cfg i x (m >>= f) := by
  intro e h
  obtain h | ⟨a, ha, h⟩ := bind_eq_error h
  · exact hm e h
  · exact hf a ha e h

/-! ### The operand reads (R264) -/

theorem stopsFor_readLimbs (r : RegId) : StopsFor cfg i x (readLimbs x r) := by
  intro e h
  obtain ⟨hseq, rfl⟩ := readLimbs_error.1 h
  exact .unspecified r hseq

theorem stopsFor_liveContext (hc : ErrKind.contextInvalid.code ∈ i.errorCodes) (t : Word) : StopsFor cfg i x (liveContext x t) := by
  intro e h
  obtain ⟨-, rfl⟩ := liveContext_error.1 h
  exact .listed _ hc

section
variable (hk : ErrKind.operandKind.code ∈ i.errorCodes)
include hk

theorem stopsFor_requireKind (r : RegId) (k : Kind) : StopsFor cfg i x (requireKind x r k) := by
  intro e h
  obtain ⟨-, rfl⟩ := requireKind_error.1 h
  exact .listed _ hk

theorem stopsFor_plain1 (ra : RegId) : StopsFor cfg i x (plain1 x ra) :=
  stopsFor_bind (stopsFor_requireKind hk ra _) fun _ _ => stopsFor_readLimbs ra

theorem stopsFor_plain2 (ra rb : RegId) : StopsFor cfg i x (plain2 x ra rb) :=
  stopsFor_bind (stopsFor_requireKind hk ra _) fun _ _ => stopsFor_bind (stopsFor_requireKind hk rb _) fun _ _ =>
    stopsFor_bind (stopsFor_readLimbs ra) fun _ _ => stopsFor_bind (stopsFor_readLimbs rb) fun _ _ => stopsFor_ok _

variable (hc : ErrKind.contextInvalid.code ∈ i.errorCodes)
include hc

theorem stopsFor_mconvOperands (ra : RegId) (ctx : SlotId) : StopsFor cfg i x (mconvOperands x ra ctx) := by
  refine stopsFor_bind (stopsFor_requireKind hk ra _) fun _ _ => ?_
  cases x.slot ctx with
  | none => exact stopsFor_error (.listed _ hc)
  | some c => exact stopsFor_bind (stopsFor_readLimbs ra) fun _ _ => stopsFor_ok _

theorem stopsFor_mmulOperands (hm : ErrKind.modulusMismatch.code ∈ i.errorCodes) (ra rb : RegId) :
    StopsFor cfg i x (mmulOperands x ra rb) := by
  refine stopsFor_bind (stopsFor_requireKind hk ra _) fun _ _ => stopsFor_bind (stopsFor_requireKind hk rb _) fun _ _ => ?_
  split_ifs
  · exact stopsFor_error (.listed _ hm)
  · exact stopsFor_bind (stopsFor_ok ()) fun _ _ => stopsFor_bind (stopsFor_liveContext hc _) fun _ _ =>
      stopsFor_bind (stopsFor_readLimbs ra) fun _ _ => stopsFor_bind (stopsFor_readLimbs rb) fun _ _ => stopsFor_ok _

theorem stopsFor_mpowOperands (ra rb : RegId) : StopsFor cfg i x (mpowOperands x ra rb) :=
  stopsFor_bind (stopsFor_requireKind hk ra _) fun _ _ => stopsFor_bind (stopsFor_requireKind hk rb _) fun _ _ =>
    stopsFor_bind (stopsFor_liveContext hc _) fun _ _ => stopsFor_bind (stopsFor_readLimbs ra) fun _ _ =>
      stopsFor_bind (stopsFor_readLimbs rb) fun _ _ => stopsFor_ok _

theorem stopsFor_moutOperands (ra : RegId) : StopsFor cfg i x (moutOperands x ra) :=
  stopsFor_bind (stopsFor_requireKind hk ra _) fun _ _ => stopsFor_bind (stopsFor_liveContext hc _) fun _ _ =>
    stopsFor_bind (stopsFor_readLimbs ra) fun _ _ => stopsFor_ok _

end

/-! ### The checks after the operand reads -/

theorem stopsFor_checkCapacity (h : ErrKind.capacityOverflow.code ∈ i.errorCodes) (max : Nat) (s : List Limb) :
    StopsFor cfg i x (checkCapacity max s) := by
  rw [checkCapacity_eq]
  split_ifs
  · exact stopsFor_ok _
  · exact stopsFor_error (.listed _ h)

theorem stopsFor_mctxCommit (ctx : SlotId) (ra : RegId) (n : List Limb) (cf : Nat) :
    StopsFor cfg (.mctx ctx ra) x (mctxCommit x ctx n cf) := by
  unfold mctxCommit
  split_ifs with hg
  · exact stopsFor_error (.idWrap ctx ra rfl hg)
  · exact stopsFor_ok _

theorem stopsFor_redc {c : Context} (h : c.n0odd = false → StopReason cfg i x (.err .noModularInverse)) (v : Nat) :
    StopsFor cfg i x (redc c v) := by
  rw [redc_eq]
  split_ifs with ho
  · exact stopsFor_ok _
  · exact stopsFor_error (h (Bool.eq_false_of_not_eq_true ho))

/-- The scan has one check, the table's lookup. -/
theorem scan_error {c : Context} {e : List Limb} {k : Nat} {table : List Nat} {fuel n r : Nat} {stop : Stop}
    (h : scan c e k table fuel n r = .error stop) : stop = .err .indexOutOfRange := by
  induction fuel generalizing n r with
  | zero => simp [scan] at h
  | succ f ih =>
    cases n with
    | zero => simp [scan] at h
    | succ n =>
      simp only [scan] at h
      split_ifs at h
      · exact ih h
      · split at h
        · exact (Except.error.inj h).symm
        · exact ih h

/-- MPOW's core stops at an even modulus, or where a window size is 0: with sizes of at least 1 the lookups all answer (R237). -/
theorem stopsFor_mpowCore {c : Context} (h : c.n0odd = false → StopReason cfg i x (.err .noModularInverse)) (a : Nat)
    (t : List Limb) : StopsFor cfg i x (mpowCore cfg c a t) := by
  cases hodd : c.n0odd with
  | false =>
    rw [mpowCore_of_even hodd]
    exact stopsFor_error (h hodd)
  | true =>
    rw [mpowCore_of_odd hodd]
    by_cases hw : ∀ n, 1 ≤ windowSize cfg n
    · obtain ⟨v, hv⟩ := scan_full_table (c := c) (e := t) (hw (bitlen t)) (length_oddTable c (mmul c a a) _ a) (bitlen t)
        (redcVal c (1 * c.cf))
      rw [hv]
      exact stopsFor_ok v
    · intro e he
      obtain rfl := scan_error he
      exact .emptyWindow hw

end

/-! ### Why each command stops -/

/-- Every command is its operand reads and then its own checks, so its result stops only for the reasons of `StopReason`. -/
theorem stopsFor_result (cfg : Config) (i : Instr) (x : Snapshot) : StopsFor cfg i x (result cfg i x) := by
  cases i with
  | add rd ra rb =>
    exact stopsFor_bind (stopsFor_plain2 (.head _) ra rb) fun _ _ =>
      stopsFor_bind (stopsFor_checkCapacity (.tail _ (.head _)) _ _) fun _ _ => stopsFor_ok _
  | sub rd ra rb =>
    refine stopsFor_bind (stopsFor_plain2 (.head _) ra rb) fun ⟨s, t⟩ _ => ?_
    simp only
    cases subSeq s t with
    | none => exact stopsFor_error (.listed .underflow (.tail _ (.head _)))
    | some r => exact stopsFor_ok _
  | mul rd ra rb =>
    exact stopsFor_bind (stopsFor_plain2 (.head _) ra rb) fun _ _ =>
      stopsFor_bind (stopsFor_checkCapacity (.tail _ (.head _)) _ _) fun _ _ => stopsFor_ok _
  | divmod rd rc ra rb =>
    refine stopsFor_bind (stopsFor_plain2 (.head _) ra rb) fun ⟨s, t⟩ _ => ?_
    simp only
    cases divmodDigits s t with
    | none => exact stopsFor_error (.listed .divideByZero (.tail _ (.head _)))
    | some qr => exact stopsFor_ok _
  | cmp ra rb => exact stopsFor_bind (stopsFor_plain2 (.head _) ra rb) fun _ _ => stopsFor_ok _
  | trim rd ra => exact stopsFor_bind (stopsFor_plain1 (.head _) ra) fun _ _ => stopsFor_ok _
  | mov rd ra =>
    refine stopsFor_bind (stopsFor_readLimbs ra) fun s _ => ?_
    cases (x.reg ra).kind with
    | plain => exact stopsFor_ok _
    | mont => exact stopsFor_ok _
  | mctx ctx ra =>
    refine stopsFor_bind (stopsFor_plain1 (.head _) ra) fun s _ => ?_
    cases contextConstants s with
    | none => exact stopsFor_error (.listed .divideByZero (.tail _ (.head _)))
    | some k => exact stopsFor_mctxCommit ctx ra _ _
  | mconv rd ra ctx =>
    exact stopsFor_bind (stopsFor_mconvOperands (.head _) (.tail _ (.head _)) ra ctx) fun _ _ =>
      stopsFor_bind (stopsFor_redc (fun _ => .listed .noModularInverse (.tail _ (.tail _ (.head _)))) _) fun _ _ => stopsFor_ok _
  | mmul rd ra rb =>
    refine stopsFor_bind (stopsFor_mmulOperands (.head _) (.tail _ (.tail _ (.head _))) (.tail _ (.head _)) ra rb)
      fun ⟨c, s, t⟩ hp => ?_
    obtain ⟨⟨hk, -⟩, -, hctx, -⟩ := mmulOperands_ok.1 hp
    exact stopsFor_bind (stopsFor_redc (.evenContext ra c hk hctx) _) fun _ _ => stopsFor_ok _
  | mpow rd ra rb =>
    refine stopsFor_bind (stopsFor_mpowOperands (.head _) (.tail _ (.head _)) ra rb) fun ⟨c, s, e⟩ hp => ?_
    obtain ⟨⟨hk, -⟩, hctx, -⟩ := mpowOperands_ok.1 hp
    exact stopsFor_bind (stopsFor_mpowCore (.evenContext ra c hk hctx) _ _) fun _ _ => stopsFor_ok _
  | mout rd ra =>
    refine stopsFor_bind (stopsFor_moutOperands (.head _) (.tail _ (.head _)) ra) fun ⟨c, s⟩ hp => ?_
    obtain ⟨hk, hctx, -⟩ := moutOperands_ok.1 hp
    exact stopsFor_bind (stopsFor_redc (.evenContext ra c hk hctx) _) fun _ _ => stopsFor_ok _

/-! ### The two ends of a command (R260, R266) -/

@[simp] theorem State_succeed_errCmd (s : State) (w : Writes) : (s.succeed w).errCmd = s.errCmd := by cases w <;> rfl

/-- Settles O8: a command with a result succeeds, and one without stops for a reason of `StopReason`, which is an error or one of the two
refusals. -/
theorem commandEndsInOneOutcome : Obligations.CommandEndsInOneOutcome := by
  intro i s
  cases hr : result s.cfg i s.sources with
  | ok w => exact .inl ⟨s.succeed w, exec_succeeded hr, rfl, rfl, rfl, State_succeed_errCmd s w⟩
  | error e =>
    cases stopsFor_result s.cfg i s.sources e hr with
    | listed e => exact .inr (.inl ⟨e, exec_failed hr⟩)
    | evenContext => exact .inr (.inl ⟨.noModularInverse, exec_failed hr⟩)
    | emptyWindow => exact .inr (.inl ⟨.indexOutOfRange, exec_failed hr⟩)
    | unspecified r hseq => exact .inr (.inr (.inl ⟨r, exec_refused hr, hseq⟩))
    | idWrap ctx ra hi hg => exact .inr (.inr (.inr ⟨ctx, ra, hi, hg, exec_refused hr⟩))

/-! ### The errors of a block that keeps its invariant (R265) -/

/-- What a command reads is what the block holds: the snapshot of a command in flight is kept (R268). -/
theorem sources_kept {s : State} (h : Sound s) : s.sources.regs = s.regs ∧ s.sources.slots = s.slots := by
  cases hf : s.flight with
  | none => simp [State.sources, hf, State.snapshot]
  | some f =>
    rw [sources_of_flight hf]
    exact ⟨(h.flight f hf).regsKept, (h.flight f hf).slotsKept⟩

/-- The live context that the tag of a Mont source names has an odd modulus (R35, R198). -/
theorem n0odd_of_mont_source {s : State} (h : Sound s) {r : RegId} {c : Context} (hk : (s.sources.reg r).kind = .mont)
    (hc : s.sources.ctxOf (s.sources.reg r).tag = some c) : c.n0odd = true := by
  obtain ⟨hregs, hslots⟩ := sources_kept h
  have hreg : s.sources.reg r = s.reg r := congrArg (·.get r) hregs
  obtain ⟨hmem, hid⟩ := ctxOf_some hc
  rw [hslots] at hmem
  rw [hreg] at hk hid
  obtain ⟨j, hj⟩ := List.getElem?_of_mem hmem
  obtain ⟨_, -, -, -, hlive⟩ := (h.regs r).montValue hk
  exact (hlive j c hj hid).1

/-- Settles O10: of the reasons a command can fail for, no Mont source names an even context (`n0odd_of_mont_source`), no window size
is 0, and the others are listed. -/
theorem errorsPerCommand : Obligations.ErrorsPerCommand := by
  intro i s t hs h herr
  rw [exec_eq_complete] at h
  obtain ⟨w, -, rfl⟩ | ⟨e, he, rfl⟩ := complete_next h
  · exact absurd herr (by simp)
  · cases stopsFor_result s.cfg i s.sources _ he with
    | listed _ hmem => exact hmem
    | evenContext r c hk hc heven => exact absurd ((n0odd_of_mont_source hs hk hc).symm.trans heven) (by decide)
    | emptyWindow hw => exact absurd hs.config.windowPos hw

/-! ### The engine step that completes a command (R266) -/

theorem engineStep_of_done {s : State} {f : Flight} {i : Instr} {r : CmdResult} (hf : s.flight = some f)
    (hd : decode s.cfg.nctx f.word = some i) (hr : f.scratch = .done r) : s.engineStep = s.complete r := by
  simp only [State.engineStep, hf, hd, hr]

/-- Settles O53: the end that the engine's steps came to is the command's result (`end_eq_result`), and `exec` is its completion. -/
theorem engineCompletionIsExec : Obligations.EngineCompletionIsExec := by
  intro s f i r rest hs hl hf hd hr hi
  have hend : r = result s.cfg i f.snap := end_eq_result hs hf hd (.inr hr)
  rw [step_cons hl hi, exec_eq_complete, sources_of_flight (s := { s with inputs := rest }) hf, ← hend]
  exact engineStep_of_done (s := { s with inputs := rest }) hf hd hr

/-! ### A block that lost power (R277) -/

/-- Settles O48: with no input, or with one that is not reset, the block without power loses its state again. -/
theorem lostUntilReset : Obligations.LostUntilReset := by
  rintro s ⟨hl, hreset⟩
  cases hi : s.inputs with
  | nil => exact ⟨s.powerOff, step_lost_nil hl hi, rfl, rfl, hi⟩
  | cons inp rest =>
    refine ⟨_, step_lost_cons hl hi, ?_⟩
    cases inp with
    | reset => exact absurd (by rw [hi]; rfl) hreset
    | _ => exact ⟨rfl, rfl, rfl⟩

end Sys2Proof.Machine
end

section
/-! # Reset and completion (70_reset_and_hazards.md). Reset gives the state of R48 whatever was running (R290, R291), and the engine's steps
of every command come to an end (R310): each algorithm has a count that its next step lowers. -/

namespace Sys2Proof.Machine

open Sys2Proof

/-! ### Reset at any time (R290, R291) -/

/-- Reset is served alike with and without power. -/
theorem step_reset {s : State} {rest : List Input} (h : s.inputs = .reset :: rest) :
    step s = .next { s with inputs := rest }.hardReset := by
  cases hl : s.lost with
  | false => exact step_cons hl h
  | true => exact step_lost_cons hl h

theorem statusWord_hardReset (s : State) : s.hardReset.statusWord = 0 := rfl

/-- Settles O47: the step is `hardReset`, which sets each field without looking at what was there. -/
theorem resetAtAnyTime : Obligations.ResetAtAnyTime := by
  intro s rest h
  exact ⟨_, step_reset h, fun r => reg_hardReset _ r, rfl, rfl, statusWord_hardReset _, rfl, rfl, rfl, rfl⟩

/-! ### The engine's steps come to an end (R310) -/

/-- From the scratch state `sc`, some number of engine steps leads to an end. -/
def Scratch.Ends (cfg : Config) (i : Instr) (x : Snapshot) (sc : Scratch) : Prop :=
  ∃ (n : Nat) (r : CmdResult), Scratch.advanceN cfg i x n sc = .done r

section
variable {cfg : Config} {i : Instr} {x : Snapshot}

theorem ends_done (r : CmdResult) : (Scratch.done r).Ends cfg i x := ⟨0, r, rfl⟩

theorem ends_of_advance {sc : Scratch} (h : (sc.advance cfg i x).Ends cfg i x) : sc.Ends cfg i x := by
  obtain ⟨n, r, h⟩ := h
  exact ⟨n + 1, r, h⟩

/-- The REDC loop runs its `L` iterations (R193). -/
theorem ends_redc (dest : Dest) (c : Context) (acc iter : Nat) : (Scratch.redc dest c acc iter).Ends cfg i x := by
  induction h : c.l - iter generalizing acc iter with
  | zero =>
    refine ends_of_advance ?_
    rw [Scratch.advance, if_neg (by omega)]
    exact ends_done _
  | succ n ih =>
    refine ends_of_advance ?_
    rw [Scratch.advance, if_pos (by omega)]
    exact ih _ _ (by omega)

/-- Taking away a value that is not 0 leaves less. -/
theorem val_subSeq_lt {s t r : List Limb} (h : subSeq s t = some r) (ht : val t ≠ 0) : val r < val s := by
  rw [subSeq_eq] at h
  split_ifs at h with hlt
  obtain rfl := Option.some.inj h
  have hle : val s - val t ≤ val s := Nat.sub_le _ _
  rw [val_limbs_of_le_val hle]
  omega

/-- A division goes through its limb positions, and at each of them the dividend gets smaller until it is below the divisor (R170). -/
theorem ends_div (job : DivUse) {d : List Limb} (hd : val d ≠ 0) (rem : List Limb) (pos digit : Nat) (q : List Limb) :
    (Scratch.div job d rem pos digit q).Ends cfg i x := by
  induction pos generalizing rem digit q with
  | zero => exact ends_of_advance (ends_done _)
  | succ p ihPos =>
    induction h : val rem using Nat.strong_induction_on generalizing rem digit with
    | _ v ihRem =>
      refine ends_of_advance ?_
      rw [Scratch.advance]
      split_ifs
      · exact ihPos _ _ _
      · have hshift : val (shlLimbs d p) ≠ 0 := by
          rw [val_shlLimbs]
          exact mul_ne_zero hd (pow_ne_zero p (by decide))
        cases hsub : subSeq rem (shlLimbs d p) with
        | none => exact ends_done _
        | some rem' => exact ihRem _ (h ▸ val_subSeq_lt hsub hshift) rem' _ rfl

/-- A window squares once for each of its bits, and leaves the rest of the scan (R234). -/
theorem ends_powWindow {dest : Dest} {c : Context} {e : List Limb} {k : Nat} {table : List Nat} {lo : Nat}
    (hrest : ∀ r, (Scratch.powScan dest c e k table r ((lo : Int) - 1)).Ends cfg i x) (r : Nat) (p : Int) (sq w : Nat) :
    (Scratch.powWindow dest c e k table r p lo sq w).Ends cfg i x := by
  induction h : (p - lo + 1 - sq).toNat generalizing r sq with
  | zero =>
    refine ends_of_advance ?_
    rw [Scratch.advance, if_neg (by omega)]
    cases table[(w - 1) / 2]? with
    | none => exact ends_done _
    | some t => exact hrest _
  | succ n ih =>
    refine ends_of_advance ?_
    rw [Scratch.advance, if_pos (by omega)]
    exact ih _ _ (by omega)

/-- The scan goes down by one bit, or by a window of at least one bit (R234, R235). -/
theorem ends_powScan (dest : Dest) (c : Context) (e : List Limb) {k : Nat} (hk : 1 ≤ k) (table : List Nat) (r : Nat) (p : Int) :
    (Scratch.powScan dest c e k table r p).Ends cfg i x := by
  induction h : (p + 1).toNat using Nat.strong_induction_on generalizing r p with
  | _ m ih =>
    refine ends_of_advance ?_
    rw [Scratch.advance]
    split_ifs with hneg hzero
    · exact ends_done _
    · exact ih _ (by omega) _ _ rfl
    · have hone : bit e p.toNat = true := by simpa using hzero
      have hlo : (window e p.toNat k).1 ≤ p.toNat := (window_spec e p.toNat k hone hk).1
      rw [cursorWindow_eq_window hone hk]
      exact ends_powWindow (lo := (window e p.toNat k).1) (fun r' => ih _ (by omega) r' _ rfl) _ _ _ _

/-- The odd-power table gets its `2^k` entries, and then the scan begins (R236, R234). -/
theorem ends_powTable (dest : Dest) (c : Context) (e : List Limb) {k : Nat} (hk : 1 ≤ k) (x2 : Nat) (table : List Nat) :
    (Scratch.powTable dest c e k x2 table).Ends cfg i x := by
  induction h : 2 ^ k - table.length generalizing table with
  | zero =>
    refine ends_of_advance ?_
    rw [Scratch.advance, if_neg (by omega)]
    exact ends_powScan dest c e hk _ _ _
  | succ n ih =>
    refine ends_of_advance ?_
    rw [Scratch.advance, if_pos (by omega)]
    exact ih _ (by rw [List.length_append, List.length_singleton]; omega)

/-! Where an algorithm begins: a check that fails ends the command (R264). -/

theorem ends_begin_bind {α : Type} {m : Except Stop α} {f : α → Except Stop Scratch}
    (h : ∀ a, (Scratch.begin (f a)).Ends cfg i x) : (Scratch.begin (m >>= f)).Ends cfg i x := by
  cases m with
  | error e => exact ends_done _
  | ok a => exact h a

theorem ends_beginDiv (job : DivUse) (s t : List Limb) : (Scratch.begin (Scratch.beginDiv job s t)).Ends cfg i x := by
  unfold Scratch.beginDiv
  split_ifs with h
  · exact ends_done _
  · exact ends_div job (by rwa [val_trim, Ne, ← trim_eq_nil]) _ _ _ _

theorem ends_beginRedc (dest : Dest) (c : Context) (v : Nat) : (Scratch.begin (Scratch.beginRedc dest c v)).Ends cfg i x :=
  ends_begin_bind fun _ => ends_redc dest c v 0

/-- The single-pass commands end in the first step; the others begin an algorithm that ends. -/
theorem ends_first (hw : ∀ b, 1 ≤ windowSize cfg b) : (Scratch.first cfg i x).Ends cfg i x := by
  cases i with
  | divmod rd rc ra rb => exact ends_begin_bind fun _ => ends_beginDiv _ _ _
  | mctx ctx ra => exact ends_begin_bind fun _ => ends_beginDiv _ _ _
  | mconv rd ra ctx => exact ends_begin_bind fun _ => ends_beginRedc _ _ _
  | mmul rd ra rb => exact ends_begin_bind fun _ => ends_beginRedc _ _ _
  | mpow rd ra rb => exact ends_begin_bind fun _ => ends_begin_bind fun _ => ends_powTable _ _ _ (hw _) _ _
  | mout rd ra => exact ends_begin_bind fun _ => ends_beginRedc _ _ _
  | _ => exact ends_done _

end

/-- Settles O52: the first step ends the command or begins an algorithm that ends. -/
theorem engineStepsTerminate : Obligations.EngineStepsTerminate :=
  fun _ _ _ hw => ends_of_advance (ends_first hw)

end Sys2Proof.Machine
end
